-- ==== Sys2Proof/Word.lean ====
section
/-! DEFINITION. The word types of the µPD77016 Family (spec 00_scope.md R6, R9). -/

namespace Sys2Proof

/-- A general register, 40 bits (R20). -/
abbrev Word40 := BitVec 40

/-- A data word, a data address, an instruction address or a 16-bit register (R6). -/
abbrev Word16 := BitVec 16

/-- An instruction word (R100). -/
abbrev Word32 := BitVec 32

/-- One byte of the model's memory cells; the machine itself has no byte address (R72). -/
abbrev Byte := BitVec 8

/-- The largest value of a 40-bit two's complement number (R9). -/
abbrev max40 : Int := 2 ^ 39 - 1

/-- The least value of a 40-bit two's complement number (R9). -/
abbrev min40 : Int := -2 ^ 39

end Sys2Proof
end

