-- ==== Sys2Proof/Syntax.lean ====
section
/-! DEFINITION. The instructions, one constructor per row of spec/opcode_table.json (R4), as decoded
statements (R150). A statement written with `IF (ro cond)` is the constructor `cond` (R365); the
other constructors are the statements without a condition. -/

namespace Sys2Proof

/-- Number of a general register R0-R7 (R10). -/
abbrev GReg := Fin 8

/-- Number of a data pointer DP0-DP7, or of its index register (R10). -/
abbrev DReg := Fin 8

/-- The two data spaces (R42). -/
inductive Space where
  | x | y
deriving DecidableEq, Repr

/-- The six pointer forms `DPn`, `DPn++`, `DPn--`, `DPn##`, `DPn%%`, `!DPn##` (R10, R284). -/
inductive Modi where
  | plain | inc | dec | addDn | modulo | bitRev
deriving DecidableEq, Repr

/-- Direction of a transfer between memory and a register (R106). -/
inductive Dir where
  | store | load
deriving DecidableEq, Repr

/-- One side of LSPA: load of `ro` or store of `rh` (R276). `dp` counts from DP0 on the X side and
from DP4 on the Y side. -/
structure ParSide where
  dir : Dir
  dp : Fin 4
  modi : Modi
  reg : GReg
deriving DecidableEq, Repr

/-- The parallel load/store functions of a word, each optional (R106). -/
structure Par where
  x : Option ParSide
  y : Option ParSide
deriving DecidableEq, Repr

/-- The register parts a partial load can write (R277). -/
inductive LoadPart where
  | rl | rh | re | reh | ro
deriving DecidableEq, Repr

/-- The register parts a partial store can read (R277). -/
inductive StorePart where
  | rl | rh | re
deriving DecidableEq, Repr

/-- The eight transfers that suf and d select (R107). -/
inductive PartOp where
  | store (p : StorePart)
  | load (p : LoadPart)
deriving DecidableEq, Repr

/-- One side of LSSE (R277). -/
structure PartSide where
  op : PartOp
  dp : Fin 4
  modi : Modi
  reg : GReg
deriving DecidableEq, Repr

/-- The two sides of an LSSE word (R277). -/
structure PartPair where
  x : Option PartSide
  y : Option PartSide
deriving DecidableEq, Repr

/-- The 18 registers of the address unit: MOV of them may carry a condition, LDI may set them
(R301, R315). -/
inductive AddrReg where
  | dp (n : DReg)
  | dn (n : DReg)
  | dmx
  | dmy
deriving DecidableEq, Repr

/-- The ten other registers MOV reaches (R301). -/
inductive CtlReg where
  | stk | sp | lc | lsr1 | lsr2 | lsr3 | lsp | sr | eir | esr
deriving DecidableEq, Repr

/-- The registers MOV reaches beside the L part (R301). -/
inductive MovReg where
  | addr (a : AddrReg)
  | ctl (c : CtlReg)
deriving DecidableEq, Repr

/-- `dest = rl` or `rl = source` (R300). -/
inductive MovDir where
  | toSpecial | fromSpecial
deriving DecidableEq, Repr

/-- The destinations of LDI (R315). -/
inductive LdiDest where
  | rl (n : GReg)
  | addr (a : AddrReg)
deriving DecidableEq, Repr

/-- The nine conditions (R118, R365). -/
inductive Cond where
  | ever | eq0 | ne0 | gt0 | le0 | ge0 | lt0 | eqEx | neEx
deriving DecidableEq, Repr

/-- The thirteen monomials (R230). -/
inductive Mono where
  | clr | inc | dec | abs | not | neg | clip | rnd | exp | put | aca | acs | div
deriving DecidableEq, Repr

/-- What a condition may govern (R366): a monomial; a MOV of an address-unit register (R310); a branch
(R322). -/
inductive CondBody where
  | mono (m : Mono) (op1 op2 : GReg)
  | mov (d : MovDir) (a : AddrReg) (r : GReg)
  | jmp (rel : Word16)
  | jreg (dp : DReg)
  | call (rel : Word16)
  | creg (dp : DReg)
  | ret
  | reti
deriving DecidableEq, Repr

/-- The count of REP and LOOP: 15 immediate bits or the L part of a register (R115, R116). -/
inductive Count where
  | imm (c : BitVec 15)
  | reg (r : GReg)
deriving DecidableEq, Repr

/-- The instructions, in the order of the opcode table. `op1`, `op2`, `op3` are the operands OP1, OP2,
OP3 of R121; `rel` is the displacement in the word of JMP and CALL (R331, log 37); `rle` is the
loop-end relative address (R116). -/
inductive Instr where
  | madd (op1 op2 op3 : GReg) (p : Par)
  | msub (op1 op2 op3 : GReg) (p : Par)
  | suma (op1 op2 op3 : GReg) (p : Par)
  | uuma (op1 op2 op3 : GReg) (p : Par)
  | mas1 (op1 op2 op3 : GReg) (p : Par)
  | mas16 (op1 op2 op3 : GReg) (p : Par)
  | mpy (op1 op2 op3 : GReg) (p : Par)
  | add (op1 op2 op3 : GReg) (p : Par)
  | iadd (op1 op2 : GReg) (imm : Word16)
  | sub (op1 op2 op3 : GReg) (p : Par)
  | isub (op1 op2 : GReg) (imm : Word16)
  | sra (op1 op2 op3 : GReg) (p : Par)
  | isra (op1 op2 : GReg) (imm : Word16)
  | srl (op1 op2 op3 : GReg) (p : Par)
  | isrl (op1 op2 : GReg) (imm : Word16)
  | sll (op1 op2 op3 : GReg) (p : Par)
  | isll (op1 op2 : GReg) (imm : Word16)
  | and (op1 op2 op3 : GReg) (p : Par)
  | iand (op1 op2 : GReg) (imm : Word16)
  | or (op1 op2 op3 : GReg) (p : Par)
  | ior (op1 op2 : GReg) (imm : Word16)
  | xor (op1 op2 op3 : GReg) (p : Par)
  | ixor (op1 op2 : GReg) (imm : Word16)
  | lt (op1 op2 op3 : GReg) (p : Par)
  | clr (op : GReg) (p : Par)
  | inc (op1 op2 : GReg) (p : Par)
  | dec (op1 op2 : GReg) (p : Par)
  | abs (op1 op2 : GReg) (p : Par)
  | not (op1 op2 : GReg) (p : Par)
  | neg (op1 op2 : GReg) (p : Par)
  | clip (op1 op2 : GReg) (p : Par)
  | rnd (op1 op2 : GReg) (p : Par)
  | exp (op1 op2 : GReg) (p : Par)
  | put (op1 op2 : GReg) (p : Par)
  | aca (op1 op2 : GReg) (p : Par)
  | acs (op1 op2 : GReg) (p : Par)
  | div (op1 op2 : GReg) (p : Par)
  | lspa (p : Par)
  | lsse (q : PartPair)
  | lsda (op : PartOp) (reg : GReg) (sp : Space) (addr : Word16)
  | lsim (op : PartOp) (reg : GReg) (dp : DReg) (imm : Word16)
  | mov (d : MovDir) (m : MovReg) (r : GReg)
  | ldi (dest : LdiDest) (imm : Word16)
  | jmp (rel : Word16)
  | jreg (dp : DReg)
  | call (rel : Word16)
  | creg (dp : DReg)
  | ret
  | reti
  | rep (c : Count)
  | loop (c : Count) (rle : Byte)
  | lpop
  | nop
  | halt
  | stop
  | fint
  | cond (c : Cond) (top : GReg) (b : CondBody)
deriving DecidableEq, Repr

end Sys2Proof
end

