-- ==== Sys2Proof/WellFormed.lean ====
section
/-! DEFINITION. Which statements exist (R120, R150) and which the manual forbids or the spec refuses
as ill-formed (R155, R156, R276-R278). A word that decodes to an ill-formed statement is refused by
`step`; nothing is executed for it. -/

namespace Sys2Proof

/-- Lowest bit and number of bits a partial load writes (R268-R273). -/
def LoadPart.bits : LoadPart → Nat × Nat
  | .rl => (0, 16)
  | .rh => (16, 16)
  | .re => (32, 8)
  | .reh => (16, 24)
  | .ro => (0, 40)

/-- Lowest bit and number of bits a partial store reads (R272, R274, R275). -/
def StorePart.bits : StorePart → Nat × Nat
  | .rl => (0, 16)
  | .rh => (16, 16)
  | .re => (32, 8)

/-- Two bit ranges have a bit in common. -/
def rangesMeet (a b : Nat × Nat) : Bool :=
  decide (a.1 < b.1 + b.2) && decide (b.1 < a.1 + a.2)

/-- The part pairs that two loads of one LSSE word may write in one register, the first on the X side
or on the Y side (R278). -/
def LoadPart.mayPair : LoadPart → LoadPart → Bool
  | .reh, .rl | .rl, .reh => true
  | .re, .rh | .rh, .re => true
  | .re, .rl | .rl, .re => true
  | .rh, .rl | .rl, .rh => true
  | _, _ => false

/-- LSPA sides of one word: two loads into one register are forbidden (R155 a); a store and a load of
one register overlap, since the load writes all 40 bits (R156 b); two stores are free (R282). -/
def Par.sidesAgree (p : Par) : Bool :=
  match p.x, p.y with
  | some a, some b => a.reg != b.reg || (a.dir == .store && b.dir == .store)
  | _, _ => true

/-- No transfer of the word names the operation's destination: a load into it is forbidden (R155 b),
a store from it is refused (R156 a). -/
def Par.avoids (rd : GReg) (p : Par) : Bool :=
  p.x.all (fun a => a.reg != rd) && p.y.all (fun a => a.reg != rd)

/-- A word of one operation with result `rd` and parallel transfers. -/
def Par.fits (rd : GReg) (p : Par) : Bool :=
  p.sidesAgree && p.avoids rd

/-- LSSE sides of one word: two loads into one register only as a pair of R278, a store and a load of
one register only where the bits differ (R156 b). -/
def PartPair.sidesAgree (q : PartPair) : Bool :=
  match q.x, q.y with
  | some a, some b =>
    a.reg != b.reg ||
      (match a.op, b.op with
      | .load m, .load n => m.mayPair n
      | .load m, .store n => !rangesMeet m.bits n.bits
      | .store m, .load n => !rangesMeet m.bits n.bits
      | .store _, .store _ => true)
  | _, _ => true

/-- An immediate count is 1-0x7FFF (R119); a count in a register is checked when it is read. -/
def Count.inRange : Count → Bool
  | .imm c => c != 0
  | .reg _ => true

/-- What stands under a condition exists as a statement (R310, R366): CLR has one operand; a MOV or a
branch with the condition EVER is the plain MOV or branch. -/
def CondBody.fits (c : Cond) : CondBody → Bool
  | .mono .clr a b => a == b
  | .mono _ _ _ => true
  | _ => c != .ever

/-- The statement exists and is neither forbidden nor refused as ill-formed. -/
def Instr.wellFormed : Instr → Bool
  | .madd _ _ rd p | .msub _ _ rd p | .suma _ _ rd p | .uuma _ _ rd p | .mas1 _ _ rd p
  | .mas16 _ _ rd p | .mpy _ _ rd p | .add _ _ rd p | .sub _ _ rd p | .sra _ _ rd p
  | .srl _ _ rd p | .sll _ _ rd p | .and _ _ rd p | .or _ _ rd p | .xor _ _ rd p
  | .lt _ _ rd p => p.fits rd
  | .iadd .. | .isub .. | .isra .. | .isrl .. | .isll .. | .iand .. | .ior .. | .ixor .. => true
  | .clr rd p => p.fits rd
  | .inc _ rd p | .dec _ rd p | .abs _ rd p | .not _ rd p | .neg _ rd p | .clip _ rd p
  | .rnd _ rd p | .exp _ rd p | .put _ rd p | .aca _ rd p | .acs _ rd p | .div _ rd p => p.fits rd
  | .lspa p => p.sidesAgree && (p.x.isSome || p.y.isSome)
  | .lsse q => q.sidesAgree && (q.x.isSome || q.y.isSome)
  | .lsda .. | .lsim .. => true
  | .mov d m _ => !(d == .toSpecial && m == .ctl .lc)
  | .ldi .. => true
  | .jmp _ | .jreg _ | .call _ | .creg _ | .ret | .reti => true
  | .rep c => c.inRange
  | .loop c rle => c.inRange && decide (2 ≤ rle.toNat)
  | .lpop | .nop | .halt | .stop | .fint => true
  | .cond c _ b => b.fits c

end Sys2Proof
end

