-- ==== Sys2Proof/Decode.lean ====
section
/-! DEFINITION. The decoder and the encoder of the 32-bit instruction word (30_encoding.md). Leading
bits and field positions are the spec's (R101-R118). The numeric values of the opcode, register,
suffix, modification, condition and selector fields are lost: they are the parameters of R7 and R122,
one `Codes`, an argument of the decoder and of the encoder. -/

namespace Sys2Proof

/-- Why a word is no statement of the spec (R123). -/
inductive DecodeError where
  /-- Leading bits 010000, 00110x or 001000, assigned to no category. -/
  | leadingBits
  /-- An unassigned value of an opcode field. -/
  | opcode
  /-- The unassigned eighth value of modix or modiy. -/
  | modi
  /-- A suffix and direction pair outside the eight listed. -/
  | suffix
  /-- An unassigned register code, or one of the other MOV group. -/
  | regCode
  /-- An unassigned condition. -/
  | condition
  /-- An unassigned CPU-control selector. -/
  | selector
  /-- A bit the format leaves unused, or a marker bit, is not 0. -/
  | unusedBit
  /-- The ALU NOP with a condition: a condition with nothing after it (R366). -/
  | emptyCondition
  /-- CLR with two different register fields (log 11). -/
  | clrFields
  /-- Not the four bytes of one instruction word. -/
  | length
deriving DecidableEq, Repr

/-- The parameters `OPCODE`, `REG_CODE`, `SUF_CODE`, `MODI_CODE` and `COND_CODE` (R7, R122): each list
gives the field values of the names of one table, the names in the spec's listing order. -/
structure Codes where
  /-- `OPCODE.3OP`, bits 27-24 of row 1: MADD MSUB SUMA UUMA MAS1 MAS16 MPY ADD SUB SRA SRL SLL AND OR
  XOR LT (R122). -/
  op3 : List Nat
  /-- `OPCODE.2OP`, bits 27-24 of rows 2 and 3: the ALU NOP, CLR INC DEC ABS NOT NEG CLIP RND EXP PUT ACA
  ACS DIV (R122). -/
  op2 : List Nat
  /-- `OPCODE.IMM`, bits 27-24 of row 4: IADD ISUB ISRA ISRL ISLL IAND IOR IXOR (R122). -/
  opImm : List Nat
  /-- `OPCODE.CTRL`, all of bits 27-0 of row 21: NOP HALT STOP FINT LPOP. Where in these bits the selector
  stands is lost with figure A-9 (R117), so a value gives them all (log 5). -/
  ctrl : List Nat
  /-- `REG_CODE` of the address-unit registers, bits 21-17 with bit 22 = 0: DP0-DP7, DN0-DN7, DMX, DMY
  (R110, R301). -/
  addrReg : List Nat
  /-- `REG_CODE` of the other registers, bits 21-17 with bit 22 = 1: STK SP LC LSR1 LSR2 LSR3 LSP SR EIR
  ESR (R110, R301). -/
  ctlReg : List Nat
  /-- `SUF_CODE`: suf and d as one number, suf above d, of the eight transfers of R107. -/
  suf : List Nat
  /-- `MODI_CODE`: nop and the six pointer forms (R106). -/
  modi : List Nat
  /-- `COND_CODE`: EVER, == 0, != 0, > 0, <= 0, >= 0, < 0, == EX, != EX (R118). -/
  cond : List Nat
  /-- The direction bits dx and dy are 1 for a load (R106). -/
  loadIsOne : Bool
  /-- The bit xy of LSDA is 1 for Y memory (R108). -/
  yIsOne : Bool
  /-- The bit jc is 1 for a call (R112, R113). -/
  callIsOne : Bool
  /-- The bit rt is 1 for an interrupt return (R114). -/
  retiIsOne : Bool
deriving DecidableEq, Repr

/-- The code values in the spec's listing order, 0 upward (D25); the register codes go on from the first
group to the second, and suf counts apart for stores and for loads. DESIGN CHOICE, unsafe (log 5, log 6). -/
def Codes.listing : Codes where
  op3 := [0, 1, 2, 3, 4, 5, 6, 7, 8, 9, 10, 11, 12, 13, 14, 15]
  op2 := [0, 1, 2, 3, 4, 5, 6, 7, 8, 9, 10, 11, 12, 13]
  opImm := [0, 1, 2, 3, 4, 5, 6, 7]
  ctrl := [0, 1, 2, 3, 4]
  addrReg := [0, 1, 2, 3, 4, 5, 6, 7, 8, 9, 10, 11, 12, 13, 14, 15, 16, 17]
  ctlReg := [18, 19, 20, 21, 22, 23, 24, 25, 26, 27]
  suf := [0, 2, 4, 1, 3, 5, 7, 9]
  modi := [0, 1, 2, 3, 4, 5, 6]
  cond := [0, 1, 2, 3, 4, 5, 6, 7, 8]
  loadIsOne := true
  yIsOne := true
  callIsOne := true
  retiIsOne := true

/-- A table has `n` values below `bound`, no two equal (R122: injective). -/
def soundTable (t : List Nat) (n bound : Nat) : Bool :=
  decide (t.length = n) && decide t.Nodup && t.all (fun v => decide (v < bound))

/-- Every table gives each of its names a value of its field, and no two names one value (R122). -/
def Codes.sound (c : Codes) : Bool :=
  soundTable c.op3 16 16 && soundTable c.op2 14 16 && soundTable c.opImm 8 16 &&
    soundTable c.ctrl 5 (2 ^ 28) && soundTable c.addrReg 18 32 && soundTable c.ctlReg 10 32 &&
    soundTable c.suf 8 16 && soundTable c.modi 7 8 && soundTable c.cond 9 16

/-- The field value of the name at place `k` of a table. -/
def codeAt (t : List Nat) (k : Nat) : Nat := t.getD k 0

/-- The place of a field value in a table, none for an unassigned value. -/
def placeOf : List Nat → Nat → Option Nat
  | [], _ => none
  | v :: rest, x => if v = x then some 0 else (placeOf rest x).map (· + 1)

/-- Bits `lo + len - 1` to `lo` of a word, as a number. -/
def fld (w : Word32) (lo len : Nat) : Nat := w.toNat / 2 ^ lo % 2 ^ len

/-- A 3-bit register number field. -/
def fldReg (w : Word32) (lo : Nat) : Fin 8 := Fin.ofNat 8 (fld w lo 3)

/-- A 16-bit immediate field. -/
def fldImm (w : Word32) (lo : Nat) : Word16 := BitVec.ofNat 16 (fld w lo 16)

/-- The place of a modification in R106's list; `nop`, no transfer, is at 0. -/
def Modi.place : Modi → Nat
  | .plain => 1
  | .inc => 2
  | .dec => 3
  | .addDn => 4
  | .modulo => 5
  | .bitRev => 6

/-- The modification at a place other than 0. -/
def Modi.ofPlace : Nat → Option Modi
  | 1 => some .plain
  | 2 => some .inc
  | 3 => some .dec
  | 4 => some .addDn
  | 5 => some .modulo
  | 6 => some .bitRev
  | _ => none

/-- A bit whose two values mean yes and no, yes as 1 where `yesIsOne`. -/
def bitCode (yesIsOne yes : Bool) : Nat := if yes == yesIsOne then 1 else 0

/-- The meaning of such a bit. -/
def bitMeans (yesIsOne : Bool) (bit : Nat) : Bool := (bit == 1) == yesIsOne

/-- The direction bit (R106). -/
def Dir.code (c : Codes) (d : Dir) : Nat := bitCode c.loadIsOne (d == .load)

/-- The direction a bit stands for. -/
def Dir.ofCode (c : Codes) (bit : Nat) : Dir := if bitMeans c.loadIsOne bit then .load else .store

/-- The place of a partial transfer in R107's list. -/
def PartOp.place : PartOp → Nat
  | .store .rl => 0
  | .store .rh => 1
  | .store .re => 2
  | .load .rl => 3
  | .load .rh => 4
  | .load .re => 5
  | .load .reh => 6
  | .load .ro => 7

/-- The partial transfer at a place of R107's list. -/
def PartOp.ofPlace : Nat → Option PartOp
  | 0 => some (.store .rl)
  | 1 => some (.store .rh)
  | 2 => some (.store .re)
  | 3 => some (.load .rl)
  | 4 => some (.load .rh)
  | 5 => some (.load .re)
  | 6 => some (.load .reh)
  | 7 => some (.load .ro)
  | _ => none

/-- The partial transfer that suf and d select, none outside the eight listed (R107, R123). -/
def PartOp.ofCodes (c : Codes) (suf d : Nat) : Option PartOp :=
  (placeOf c.suf (2 * suf + d)).bind PartOp.ofPlace

/-- suf and d of a partial transfer (R107). -/
def PartOp.codes (c : Codes) (o : PartOp) : Nat × Nat :=
  (codeAt c.suf o.place / 2, codeAt c.suf o.place % 2)

/-- The place of a condition in R118's list. -/
def Cond.place : Cond → Nat
  | .ever => 0
  | .eq0 => 1
  | .ne0 => 2
  | .gt0 => 3
  | .le0 => 4
  | .ge0 => 5
  | .lt0 => 6
  | .eqEx => 7
  | .neEx => 8

/-- The condition at a place of R118's list. -/
def Cond.ofPlace : Nat → Option Cond
  | 0 => some .ever
  | 1 => some .eq0
  | 2 => some .ne0
  | 3 => some .gt0
  | 4 => some .le0
  | 5 => some .ge0
  | 6 => some .lt0
  | 7 => some .eqEx
  | 8 => some .neEx
  | _ => none

/-- The place of an address-unit register in R301's list. -/
def AddrReg.place : AddrReg → Nat
  | .dp n => n.val
  | .dn n => 8 + n.val
  | .dmx => 16
  | .dmy => 17

/-- The address-unit register at a place of R301's list. -/
def AddrReg.ofPlace (c : Nat) : Option AddrReg :=
  if c < 8 then some (.dp (Fin.ofNat 8 c))
  else if c < 16 then some (.dn (Fin.ofNat 8 (c - 8)))
  else if c = 16 then some .dmx
  else if c = 17 then some .dmy
  else none

/-- The place of a register of the other group in R301's list. -/
def CtlReg.place : CtlReg → Nat
  | .stk => 0
  | .sp => 1
  | .lc => 2
  | .lsr1 => 3
  | .lsr2 => 4
  | .lsr3 => 5
  | .lsp => 6
  | .sr => 7
  | .eir => 8
  | .esr => 9

/-- The register of the other group at a place of R301's list. -/
def CtlReg.ofPlace : Nat → Option CtlReg
  | 0 => some .stk
  | 1 => some .sp
  | 2 => some .lc
  | 3 => some .lsr1
  | 4 => some .lsr2
  | 5 => some .lsr3
  | 6 => some .lsp
  | 7 => some .sr
  | 8 => some .eir
  | 9 => some .esr
  | _ => none

/-- The place of a monomial in the list of 2-operand opcodes; the ALU NOP is at 0 (R122). -/
def Mono.place : Mono → Nat
  | .clr => 1
  | .inc => 2
  | .dec => 3
  | .abs => 4
  | .not => 5
  | .neg => 6
  | .clip => 7
  | .rnd => 8
  | .exp => 9
  | .put => 10
  | .aca => 11
  | .acs => 12
  | .div => 13

/-- The monomial at a place other than 0. -/
def Mono.ofPlace : Nat → Option Mono
  | 1 => some .clr
  | 2 => some .inc
  | 3 => some .dec
  | 4 => some .abs
  | 5 => some .not
  | 6 => some .neg
  | 7 => some .clip
  | 8 => some .rnd
  | 9 => some .exp
  | 10 => some .put
  | 11 => some .aca
  | 12 => some .acs
  | 13 => some .div
  | _ => none

/-- The parallel word of a monomial; CLR has one operand (R121). -/
def Mono.instr (m : Mono) (op1 op2 : GReg) (p : Par) : Instr :=
  match m with
  | .clr => .clr op2 p
  | .inc => .inc op1 op2 p
  | .dec => .dec op1 op2 p
  | .abs => .abs op1 op2 p
  | .not => .not op1 op2 p
  | .neg => .neg op1 op2 p
  | .clip => .clip op1 op2 p
  | .rnd => .rnd op1 op2 p
  | .exp => .exp op1 op2 p
  | .put => .put op1 op2 p
  | .aca => .aca op1 op2 p
  | .acs => .acs op1 op2 p
  | .div => .div op1 op2 p

/-- One LSPA side from its fields; with `nop` the other fields have no meaning (R106, log 12). -/
def decodeParSide (c : Codes) (d dp modi reg : Nat) : Except DecodeError (Option ParSide) :=
  match placeOf c.modi modi with
  | none => .error .modi
  | some 0 => .ok none
  | some k =>
    match Modi.ofPlace k with
    | some m => .ok (some ⟨Dir.ofCode c d, Fin.ofNat 4 dp, m, Fin.ofNat 8 reg⟩)
    | none => .error .modi

/-- The parallel load/store fields of rows 1 and 2 (R102, R103, R106). -/
def decodePar (c : Codes) (w : Word32) : Except DecodeError Par :=
  match decodeParSide c (fld w 17 1) (fld w 14 2) (fld w 11 3) (fld w 8 3),
      decodeParSide c (fld w 16 1) (fld w 6 2) (fld w 3 3) (fld w 0 3) with
  | .ok x, .ok y => .ok ⟨x, y⟩
  | .error e, _ => .error e
  | _, .error e => .error e

/-- One LSSE side from its fields (R107): suf and d are one of the eight pairs also where the side is
absent (R123). -/
def decodePartSide (c : Codes) (suf d dp modi reg : Nat) : Except DecodeError (Option PartSide) :=
  match PartOp.ofCodes c suf d, placeOf c.modi modi with
  | none, _ => .error .suffix
  | _, none => .error .modi
  | some _, some 0 => .ok none
  | some o, some k =>
    match Modi.ofPlace k with
    | some m => .ok (some ⟨o, Fin.ofNat 4 dp, m, Fin.ofNat 8 reg⟩)
    | none => .error .modi

/-- The operation at a place of the 3-operand list (R122). -/
def op3Instr (k : Nat) (a b d : GReg) (p : Par) : Option Instr :=
  match k with
  | 0 => some (.madd a b d p)
  | 1 => some (.msub a b d p)
  | 2 => some (.suma a b d p)
  | 3 => some (.uuma a b d p)
  | 4 => some (.mas1 a b d p)
  | 5 => some (.mas16 a b d p)
  | 6 => some (.mpy a b d p)
  | 7 => some (.add a b d p)
  | 8 => some (.sub a b d p)
  | 9 => some (.sra a b d p)
  | 10 => some (.srl a b d p)
  | 11 => some (.sll a b d p)
  | 12 => some (.and a b d p)
  | 13 => some (.or a b d p)
  | 14 => some (.xor a b d p)
  | 15 => some (.lt a b d p)
  | _ => none

/-- Row 1: trinomials and register binomials (R102, R122). -/
def decodeOp3 (c : Codes) (w : Word32) : Except DecodeError Instr :=
  match decodePar c w with
  | .error e => .error e
  | .ok p =>
    match (placeOf c.op3 (fld w 24 4)).bind
        (fun k => op3Instr k (fldReg w 28) (fldReg w 21) (fldReg w 18) p) with
    | some i => .ok i
    | none => .error .opcode

/-- Row 2: monomials and the ALU NOP with parallel load/store (R103); the ALU NOP without a transfer
is the whole-word NOP (R117, log 13). -/
def decodeOp2 (c : Codes) (w : Word32) : Except DecodeError Instr :=
  match decodePar c w with
  | .error e => .error e
  | .ok p =>
    match placeOf c.op2 (fld w 24 4) with
    | none => .error .opcode
    | some 0 => if p.x.isSome || p.y.isSome then .ok (.lspa p) else .ok .nop
    | some k =>
      match Mono.ofPlace k with
      | none => .error .opcode
      | some m =>
        if m = .clr ∧ fld w 21 3 ≠ fld w 18 3 then .error .clrFields
        else .ok (m.instr (fldReg w 21) (fldReg w 18) p)

/-- The cond and top fields of rows 3, 8, 10, 14, 15, 16 (R118). -/
def decodeCond (c : Codes) (w : Word32) : Except DecodeError (Cond × GReg) :=
  match (placeOf c.cond (fld w 3 4)).bind Cond.ofPlace with
  | some k => .ok (k, fldReg w 0)
  | none => .error .condition

/-- Row 3: a monomial with a condition (R104); the ALU NOP is no statement there (R150, R366). -/
def decodeOp2Cond (c : Codes) (w : Word32) : Except DecodeError Instr :=
  if fld w 7 11 ≠ 0 then .error .unusedBit
  else
    match decodeCond c w with
    | .error e => .error e
    | .ok (k, top) =>
      match placeOf c.op2 (fld w 24 4) with
      | none => .error .opcode
      | some 0 => .error .emptyCondition
      | some j =>
        match Mono.ofPlace j with
        | none => .error .opcode
        | some m =>
          if m = .clr ∧ fld w 21 3 ≠ fld w 18 3 then .error .clrFields
          else .ok (.cond k top (.mono m (fldReg w 21) (fldReg w 18)))

/-- The operation at a place of the immediate list (R122). -/
def opImmInstr (k : Nat) (a b : GReg) (imm : Word16) : Option Instr :=
  match k with
  | 0 => some (.iadd a b imm)
  | 1 => some (.isub a b imm)
  | 2 => some (.isra a b imm)
  | 3 => some (.isrl a b imm)
  | 4 => some (.isll a b imm)
  | 5 => some (.iand a b imm)
  | 6 => some (.ior a b imm)
  | 7 => some (.ixor a b imm)
  | _ => none

/-- Row 4: immediate binomials (R105). -/
def decodeOpImm (c : Codes) (w : Word32) : Except DecodeError Instr :=
  if fld w 16 2 ≠ 0 then .error .unusedBit
  else
    match (placeOf c.opImm (fld w 24 4)).bind
        (fun k => opImmInstr k (fldReg w 21) (fldReg w 18) (fldImm w 0)) with
    | some i => .ok i
    | none => .error .opcode

/-- Row 5: LSSE (R107). -/
def decodeLsse (c : Codes) (w : Word32) : Except DecodeError Instr :=
  if fld w 18 2 ≠ 0 then .error .unusedBit
  else
    match decodePartSide c (fld w 23 3) (fld w 17 1) (fld w 14 2) (fld w 11 3) (fld w 8 3),
        decodePartSide c (fld w 20 3) (fld w 16 1) (fld w 6 2) (fld w 3 3) (fld w 0 3) with
    | .ok x, .ok y => .ok (.lsse ⟨x, y⟩)
    | .error e, _ => .error e
    | _, .error e => .error e

/-- The space bit of LSDA (R108). -/
def Space.code (c : Codes) (sp : Space) : Nat := bitCode c.yIsOne (sp == .y)

/-- The space a bit of LSDA stands for. -/
def Space.ofCode (c : Codes) (bit : Nat) : Space := if bitMeans c.yIsOne bit then .y else .x

/-- Row 6: LSDA (R108). -/
def decodeLsda (c : Codes) (w : Word32) : Except DecodeError Instr :=
  if fld w 17 2 ≠ 0 then .error .unusedBit
  else
    match PartOp.ofCodes c (fld w 20 3) (fld w 16 1) with
    | none => .error .suffix
    | some o => .ok (.lsda o (fldReg w 23) (Space.ofCode c (fld w 19 1)) (fldImm w 0))

/-- Row 7: LSIM (R109). -/
def decodeLsim (c : Codes) (w : Word32) : Except DecodeError Instr :=
  match PartOp.ofCodes c (fld w 20 3) (fld w 16 1) with
  | none => .error .suffix
  | some o => .ok (.lsim o (fldReg w 23) (fldReg w 17) (fldImm w 0))

/-- A word with cond and top: the plain statement under EVER, else the conditional one. -/
def withCond (c : Codes) (w : Word32) (plain : Instr) (b : CondBody) : Except DecodeError Instr :=
  match decodeCond c w with
  | .error e => .error e
  | .ok (.ever, _) => .ok plain
  | .ok (k, top) => .ok (.cond k top b)

/-- The direction bit of MOV, 0 for `dest = rl` and 1 for `rl = source` (R110). -/
def MovDir.code : MovDir → Nat
  | .toSpecial => 0
  | .fromSpecial => 1

/-- Rows 8-11: MOV (R110). Bit 22 = 0 goes with the address-unit registers, bit 22 = 1 with the
others. -/
def decodeMov (c : Codes) (w : Word32) : Except DecodeError Instr :=
  let r := fldReg w 23
  let d : MovDir := if fld w 16 1 = 0 then .toSpecial else .fromSpecial
  if fld w 22 1 = 0 then
    if fld w 7 9 ≠ 0 then .error .unusedBit
    else
      match (placeOf c.addrReg (fld w 17 5)).bind AddrReg.ofPlace with
      | none => .error .regCode
      | some a => withCond c w (.mov d (.addr a) r) (.mov d a r)
  else if fld w 0 16 ≠ 0 then .error .unusedBit
  else
    match (placeOf c.ctlReg (fld w 17 5)).bind CtlReg.ofPlace with
    | none => .error .regCode
    | some k => .ok (.mov d (.ctl k) r)

/-- Rows 12 and 13: LDI (R111). -/
def decodeLdi (c : Codes) (w : Word32) : Except DecodeError Instr :=
  if fld w 16 1 = 0 then
    if fld w 22 4 ≠ 0 then .error .unusedBit
    else
      match (placeOf c.addrReg (fld w 17 5)).bind AddrReg.ofPlace with
      | none => .error .regCode
      | some a => .ok (.ldi (.addr a) (fldImm w 0))
  else if fld w 17 6 ≠ 0 then .error .unusedBit
  else .ok (.ldi (.rl (fldReg w 23)) (fldImm w 0))

/-- Row 14: relative jump and call (R112). -/
def decodeJmp (c : Codes) (w : Word32) : Except DecodeError Instr :=
  if fld w 23 2 ≠ 0 then .error .unusedBit
  else if bitMeans c.callIsOne (fld w 25 1) then withCond c w (.call (fldImm w 7)) (.call (fldImm w 7))
  else withCond c w (.jmp (fldImm w 7)) (.jmp (fldImm w 7))

/-- Row 15: indirect jump and call (R113). -/
def decodeJreg (c : Codes) (w : Word32) : Except DecodeError Instr :=
  if fld w 20 5 ≠ 0 ∨ fld w 7 10 ≠ 0 then .error .unusedBit
  else if bitMeans c.callIsOne (fld w 25 1) then withCond c w (.creg (fldReg w 17)) (.creg (fldReg w 17))
  else withCond c w (.jreg (fldReg w 17)) (.jreg (fldReg w 17))

/-- Row 16: return and interrupt return (R114). -/
def decodeRet (c : Codes) (w : Word32) : Except DecodeError Instr :=
  if fld w 7 18 ≠ 0 then .error .unusedBit
  else if bitMeans c.retiIsOne (fld w 25 1) then withCond c w .reti .reti
  else withCond c w .ret .ret

/-- Rows 17 to 20: REP and LOOP (R115, R116). -/
def decodeHwLoop (w : Word32) : Except DecodeError Instr :=
  match fld w 26 2 with
  | 3 =>
    if fld w 15 11 ≠ 0 then .error .unusedBit
    else .ok (.rep (.imm (BitVec.ofNat 15 (fld w 0 15))))
  | 2 =>
    if fld w 3 23 ≠ 0 then .error .unusedBit else .ok (.rep (.reg (fldReg w 0)))
  | 1 =>
    if fld w 24 2 ≠ 0 ∨ fld w 15 1 ≠ 0 then .error .unusedBit
    else .ok (.loop (.imm (BitVec.ofNat 15 (fld w 0 15))) (BitVec.ofNat 8 (fld w 16 8)))
  | _ =>
    if fld w 24 2 ≠ 0 ∨ fld w 3 13 ≠ 0 then .error .unusedBit
    else .ok (.loop (.reg (fldReg w 0)) (BitVec.ofNat 8 (fld w 16 8)))

/-- Row 21: CPU control (R117). Where the selector stands in bits 27-0 is lost: the model reads all 28
bits as one value of `OPCODE.CTRL`, and with the listing order the selector is in the low bits and every
other bit 0. DESIGN CHOICE, unsafe (log 5). -/
def decodeCtrl (c : Codes) (w : Word32) : Except DecodeError Instr :=
  match placeOf c.ctrl (fld w 0 28) with
  | some 0 => .ok .nop
  | some 1 => .ok .halt
  | some 2 => .ok .stop
  | some 3 => .ok .fint
  | some 4 => .ok .lpop
  | _ => .error .selector

/-- The statement of a 32-bit instruction word, by the leading bits of R101. -/
def decodeWord (c : Codes) (w : Word32) : Except DecodeError Instr :=
  if fld w 31 1 = 1 then decodeOp3 c w
  else
    match fld w 26 5 with
    | 0 | 1 | 2 | 3 => decodeCtrl c w
    | 4 | 5 | 6 | 7 => decodeHwLoop w
    | 9 => decodeRet c w
    | 10 => decodeJreg c w
    | 11 => decodeJmp c w
    | 14 => decodeLdi c w
    | 15 => decodeMov c w
    | 17 => decodeLsim c w
    | 18 => decodeLsda c w
    | 19 => decodeLsse c w
    | 20 | 21 | 22 | 23 => decodeOpImm c w
    | 24 | 25 | 26 | 27 => decodeOp2Cond c w
    | 28 | 29 | 30 | 31 => decodeOp2 c w
    | _ => .error .leadingBits

/-- The word whose bytes these are, low byte first (the model's layout, log 8). -/
def wordOfBytes (b0 b1 b2 b3 : Byte) : Word32 := b3 ++ b2 ++ b1 ++ b0

/-- The decoder on any bytes. -/
def decode (c : Codes) : List Byte → Except DecodeError Instr
  | [b0, b1, b2, b3] => decodeWord c (wordOfBytes b0 b1 b2 b3)
  | _ => .error .length

/-- The four bytes of a word, low byte first. -/
def bytesOfWord (w : Word32) : List Byte :=
  [BitVec.ofNat 8 (fld w 0 8), BitVec.ofNat 8 (fld w 8 8), BitVec.ofNat 8 (fld w 16 8),
    BitVec.ofNat 8 (fld w 24 8)]

/-- The host's entry: the instruction of the word whose low `nbits` bits are those of `w` and whose
other bits are 0, with the code values of `Codes.listing`. -/
def decodeTableWord (nbits w : Nat) : Option Instr :=
  match decode Codes.listing (bytesOfWord (BitVec.ofNat 32 (w % 2 ^ nbits))) with
  | .ok i => some i
  | .error _ => none

/-! ## The encoder, from the same formats -/

/-- The fields of one LSPA side: direction, pointer, modification, register. -/
def ParSide.fields (c : Codes) : Option ParSide → Nat × Nat × Nat × Nat
  | none => (0, 0, codeAt c.modi 0, 0)
  | some a => (a.dir.code c, a.dp.val, codeAt c.modi a.modi.place, a.reg.val)

/-- Bits 17-0 from the fields of the two sides (R106). -/
def packSides (x y : Nat × Nat × Nat × Nat) : Nat :=
  x.1 * 2 ^ 17 + y.1 * 2 ^ 16 + x.2.1 * 2 ^ 14 + x.2.2.1 * 2 ^ 11 + x.2.2.2 * 2 ^ 8
    + y.2.1 * 2 ^ 6 + y.2.2.1 * 2 ^ 3 + y.2.2.2

/-- Bits 17-0 of rows 1 and 2. -/
def Par.bits (c : Codes) (p : Par) : Nat := packSides (ParSide.fields c p.x) (ParSide.fields c p.y)

/-- Row 1 (R102). -/
def encOp3 (c : Codes) (place : Nat) (a b d : GReg) (p : Par) : Word32 :=
  BitVec.ofNat 32 (2 ^ 31 + a.val * 2 ^ 28 + codeAt c.op3 place * 2 ^ 24 + b.val * 2 ^ 21
    + d.val * 2 ^ 18 + p.bits c)

/-- Row 2 (R103). -/
def encOp2 (c : Codes) (place : Nat) (a b : GReg) (p : Par) : Word32 :=
  BitVec.ofNat 32 (7 * 2 ^ 28 + codeAt c.op2 place * 2 ^ 24 + a.val * 2 ^ 21 + b.val * 2 ^ 18 + p.bits c)

/-- The cond and top fields; EVER leaves top 0 (R118). -/
def condBits (c : Codes) (k : Cond) (top : GReg) : Nat := codeAt c.cond k.place * 2 ^ 3 + top.val

/-- Row 3 (R104). -/
def encOp2Cond (c : Codes) (m : Mono) (a b : GReg) (k : Cond) (top : GReg) : Word32 :=
  BitVec.ofNat 32 (6 * 2 ^ 28 + codeAt c.op2 m.place * 2 ^ 24 + a.val * 2 ^ 21 + b.val * 2 ^ 18
    + condBits c k top)

/-- Row 4 (R105). -/
def encOpImm (c : Codes) (place : Nat) (a b : GReg) (imm : Word16) : Word32 :=
  BitVec.ofNat 32 (5 * 2 ^ 28 + codeAt c.opImm place * 2 ^ 24 + a.val * 2 ^ 21 + b.val * 2 ^ 18 + imm.toNat)

/-- The suffix code of one LSSE side and its other fields; an absent side carries the first listed
pair (log 12). -/
def PartSide.fields (c : Codes) : Option PartSide → Nat × (Nat × Nat × Nat × Nat)
  | none => ((PartOp.codes c (.store .rl)).1, (PartOp.codes c (.store .rl)).2, 0, codeAt c.modi 0, 0)
  | some a => ((a.op.codes c).1, (a.op.codes c).2, a.dp.val, codeAt c.modi a.modi.place, a.reg.val)

/-- Row 5 (R107). -/
def encLsse (c : Codes) (q : PartPair) : Word32 :=
  BitVec.ofNat 32 (19 * 2 ^ 26 + (PartSide.fields c q.x).1 * 2 ^ 23 + (PartSide.fields c q.y).1 * 2 ^ 20
    + packSides (PartSide.fields c q.x).2 (PartSide.fields c q.y).2)

/-- Row 6 (R108). -/
def encLsda (c : Codes) (op : PartOp) (reg : GReg) (sp : Space) (addr : Word16) : Word32 :=
  BitVec.ofNat 32 (18 * 2 ^ 26 + reg.val * 2 ^ 23 + (op.codes c).1 * 2 ^ 20 + sp.code c * 2 ^ 19
    + (op.codes c).2 * 2 ^ 16 + addr.toNat)

/-- Row 7 (R109). -/
def encLsim (c : Codes) (op : PartOp) (reg : GReg) (dp : DReg) (imm : Word16) : Word32 :=
  BitVec.ofNat 32 (17 * 2 ^ 26 + reg.val * 2 ^ 23 + (op.codes c).1 * 2 ^ 20 + dp.val * 2 ^ 17
    + (op.codes c).2 * 2 ^ 16 + imm.toNat)

/-- Rows 8 to 11 (R110): `tail` is bits 15-0, `code` the 5-bit register code, `group` bit 22. -/
def encMov (d : MovDir) (group code : Nat) (r : GReg) (tail : Nat) : Word32 :=
  BitVec.ofNat 32 (15 * 2 ^ 26 + r.val * 2 ^ 23 + group * 2 ^ 22 + code * 2 ^ 17 + d.code * 2 ^ 16 + tail)

/-- Rows 12 and 13 (R111). -/
def encLdi (c : Codes) : LdiDest → Word16 → Word32
  | .addr a, imm => BitVec.ofNat 32 (14 * 2 ^ 26 + codeAt c.addrReg a.place * 2 ^ 17 + imm.toNat)
  | .rl n, imm => BitVec.ofNat 32 (14 * 2 ^ 26 + n.val * 2 ^ 23 + 2 ^ 16 + imm.toNat)

/-- Row 14 (R112). -/
def encJmp (c : Codes) (call : Bool) (rel : Word16) (tail : Nat) : Word32 :=
  BitVec.ofNat 32 (11 * 2 ^ 26 + bitCode c.callIsOne call * 2 ^ 25 + rel.toNat * 2 ^ 7 + tail)

/-- Row 15 (R113). -/
def encJreg (c : Codes) (call : Bool) (dp : DReg) (tail : Nat) : Word32 :=
  BitVec.ofNat 32 (10 * 2 ^ 26 + bitCode c.callIsOne call * 2 ^ 25 + dp.val * 2 ^ 17 + tail)

/-- Row 16 (R114). -/
def encRet (c : Codes) (reti : Bool) (tail : Nat) : Word32 :=
  BitVec.ofNat 32 (9 * 2 ^ 26 + bitCode c.retiIsOne reti * 2 ^ 25 + tail)

/-- Rows 17 and 18 (R115). -/
def encRep : Count → Word32
  | .imm c => BitVec.ofNat 32 (7 * 2 ^ 26 + c.toNat)
  | .reg r => BitVec.ofNat 32 (6 * 2 ^ 26 + r.val)

/-- Rows 19 and 20 (R116). -/
def encLoop : Count → Byte → Word32
  | .imm c, rle => BitVec.ofNat 32 (5 * 2 ^ 26 + rle.toNat * 2 ^ 16 + c.toNat)
  | .reg r, rle => BitVec.ofNat 32 (4 * 2 ^ 26 + rle.toNat * 2 ^ 16 + r.val)

/-- The tail of an unconditional MOV or branch: EVER, with top 0 (R118). -/
def everBits (c : Codes) : Nat := condBits c .ever 0

/-- The word of a conditional statement. -/
def encCond (c : Codes) (k : Cond) (top : GReg) : CondBody → Word32
  | .mono m a b => encOp2Cond c m a b k top
  | .mov d a r => encMov d 0 (codeAt c.addrReg a.place) r (condBits c k top)
  | .jmp rel => encJmp c false rel (condBits c k top)
  | .jreg dp => encJreg c false dp (condBits c k top)
  | .call rel => encJmp c true rel (condBits c k top)
  | .creg dp => encJreg c true dp (condBits c k top)
  | .ret => encRet c false (condBits c k top)
  | .reti => encRet c true (condBits c k top)

/-- The word of a CPU-control statement (R117). -/
def encCtrl (c : Codes) (place : Nat) : Word32 := BitVec.ofNat 32 (codeAt c.ctrl place)

/-- The word of an instruction. -/
def encode (c : Codes) : Instr → Word32
  | .madd a b d p => encOp3 c 0 a b d p
  | .msub a b d p => encOp3 c 1 a b d p
  | .suma a b d p => encOp3 c 2 a b d p
  | .uuma a b d p => encOp3 c 3 a b d p
  | .mas1 a b d p => encOp3 c 4 a b d p
  | .mas16 a b d p => encOp3 c 5 a b d p
  | .mpy a b d p => encOp3 c 6 a b d p
  | .add a b d p => encOp3 c 7 a b d p
  | .sub a b d p => encOp3 c 8 a b d p
  | .sra a b d p => encOp3 c 9 a b d p
  | .srl a b d p => encOp3 c 10 a b d p
  | .sll a b d p => encOp3 c 11 a b d p
  | .and a b d p => encOp3 c 12 a b d p
  | .or a b d p => encOp3 c 13 a b d p
  | .xor a b d p => encOp3 c 14 a b d p
  | .lt a b d p => encOp3 c 15 a b d p
  | .iadd a b i => encOpImm c 0 a b i
  | .isub a b i => encOpImm c 1 a b i
  | .isra a b i => encOpImm c 2 a b i
  | .isrl a b i => encOpImm c 3 a b i
  | .isll a b i => encOpImm c 4 a b i
  | .iand a b i => encOpImm c 5 a b i
  | .ior a b i => encOpImm c 6 a b i
  | .ixor a b i => encOpImm c 7 a b i
  | .clr r p => encOp2 c Mono.clr.place r r p
  | .inc a b p => encOp2 c Mono.inc.place a b p
  | .dec a b p => encOp2 c Mono.dec.place a b p
  | .abs a b p => encOp2 c Mono.abs.place a b p
  | .not a b p => encOp2 c Mono.not.place a b p
  | .neg a b p => encOp2 c Mono.neg.place a b p
  | .clip a b p => encOp2 c Mono.clip.place a b p
  | .rnd a b p => encOp2 c Mono.rnd.place a b p
  | .exp a b p => encOp2 c Mono.exp.place a b p
  | .put a b p => encOp2 c Mono.put.place a b p
  | .aca a b p => encOp2 c Mono.aca.place a b p
  | .acs a b p => encOp2 c Mono.acs.place a b p
  | .div a b p => encOp2 c Mono.div.place a b p
  | .lspa p => encOp2 c 0 0 0 p
  | .lsse q => encLsse c q
  | .lsda o r sp a => encLsda c o r sp a
  | .lsim o r d i => encLsim c o r d i
  | .mov d (.addr a) r => encMov d 0 (codeAt c.addrReg a.place) r (everBits c)
  | .mov d (.ctl k) r => encMov d 1 (codeAt c.ctlReg k.place) r 0
  | .ldi d i => encLdi c d i
  | .jmp rel => encJmp c false rel (everBits c)
  | .jreg d => encJreg c false d (everBits c)
  | .call rel => encJmp c true rel (everBits c)
  | .creg d => encJreg c true d (everBits c)
  | .ret => encRet c false (everBits c)
  | .reti => encRet c true (everBits c)
  | .rep k => encRep k
  | .loop k rle => encLoop k rle
  | .nop => encCtrl c 0
  | .halt => encCtrl c 1
  | .stop => encCtrl c 2
  | .fint => encCtrl c 3
  | .lpop => encCtrl c 4
  | .cond k top b => encCond c k top b

end Sys2Proof
end

