-- ==== Sys2Proof/Config.lean ====
section
/-! DEFINITION. What a member or a platform fixes (spec 00_scope.md R7) and the free values, each an
opaque constant of which nothing can be proved. The parameters of R7 that are plain data are the
fields of `Platform`; a run's `Platform` stands in the state and no step changes it (log 3). -/

namespace Sys2Proof

/-- The members of the family (R1). -/
inductive Member where
  | upd77016 | upd77015 | upd77017 | upd77018 | upd77018A | upd77019
  | upd77110 | upd77111 | upd77112 | upd77113 | upd77114
deriving DecidableEq, Repr

/-- The region classes of a data address (R77, R78); `absent` is the spec's `none`. -/
inductive Region where
  | iram | irom | ext | periph | absent
deriving DecidableEq, Repr

/-- `size` consecutive addresses from `base`, all of one class (R78). -/
structure Span where
  base : Nat
  size : Nat
  region : Region
deriving DecidableEq, Repr

/-- An interrupt source with the address of its entry in the vector area (R384, R385). -/
structure IntSource where
  id : Nat
  vector : Word16
deriving DecidableEq, Repr

/-- The parameters of R7 that are plain data. -/
structure Platform where
  /-- `MEMBER` (R2). -/
  member : Member
  /-- `RegionX`: the first span that holds the address decides, no span is `absent` (R78). -/
  xMap : List Span
  /-- `RegionY`, as `xMap` (R78). -/
  yMap : List Span
  /-- `IMEM_IMPLEMENTED`: pairs of first address and number of addresses that hold code (R78). -/
  codeMap : List (Nat × Nat)
  /-- `INT_SOURCES` with `VECTOR_ENTRIES`, highest `INT_PRIORITY` first (R384, R385, R391). -/
  intSources : List IntSource
  /-- `ESR_OV_BIT` (R30): ESR has fewer than 16 bits, so the place is below 15. -/
  esrOvBit : Fin 15
  /-- `ESR_BUSERR_BIT` (R31). -/
  esrBusErrBit : Fin 15
  /-- `ESR_WIDTH`, less than 16 (R40). -/
  esrWidth : Nat
  /-- `EIR_WIDTH`, at most 16 (R40). -/
  eirWidth : Nat
  /-- `SP_WIDTH`, at least 5 (R36). -/
  spWidth : Nat
  /-- `LSP_WIDTH`, at least 3 (R38). -/
  lspWidth : Nat
  /-- `OPCODE`, `REG_CODE`, `SUF_CODE`, `MODI_CODE`, `COND_CODE` (R122). -/
  codes : Codes
deriving DecidableEq, Repr

namespace Config

/-- The platform at reset: every address implemented internal RAM and no interrupt source, as the
spec's own test vectors take it; member, bit places, widths and field values are the model's
choice. DESIGN CHOICE, unsafe (log 3, log 4, log 5, log 6). -/
def defaultPlatform : Platform where
  member := .upd77019
  xMap := [⟨0, 65536, .iram⟩]
  yMap := [⟨0, 65536, .iram⟩]
  codeMap := [(0, 65536)]
  intSources := []
  esrOvBit := 0
  esrBusErrBit := 1
  esrWidth := 2
  eirWidth := 16
  spWidth := 5
  lspWidth := 3
  codes := Codes.listing

/-- `RESET_PC` (R421). DESIGN CHOICE, unsafe (log 2). -/
def resetPc : Word16 := 0

/-- The result of EXP on a value that does not fit in 32 bits (R239). Free value (log 14). -/
opaque freeExp : Nat → Word40

/-- The bits above a narrow register's width after `rl = source` (R303). Free value (log 15). -/
opaque freeUpper : Nat → Word16

/-- Whether a DIV whose left shift loses the sign sets OV (R243). Free value (log 16). -/
opaque freeDivOv : Nat → Bool

/-- Whether `UUMA_WIDE` of this product is the exact 2P, else it is 2P modulo 2^32 (R174).
Free value (log 17). -/
opaque uumaWideExact : Nat → Bool

/-- `ModSplit`: the number of low bits of DPn that form DP_L for this modulo value (R266).
Free value (log 18). -/
opaque modSplit : Word16 → Fin 17

/-- `LOOP_FLAG_VALUE`: bit 15 of LC and LSR3 as read, by whether a loop is active (R353).
Free value (log 19). -/
opaque loopFlagValue : Bool → Bool

/-- `SaveIE`: SR bits 15-13 and EIR after interrupt entry, from SR and EIR (R386, R388).
Free value (log 20). -/
opaque saveIE : Word16 → Word16 → BitVec 3 × Word16

/-- `RestoreIE`: SR bits 15-13 and EIR after an effective RETI, from SR and EIR (R333, R386).
Free value (log 20). -/
opaque restoreIE : Word16 → Word16 → BitVec 3 × Word16

/-- `INT_MASKED`: whether this source is masked under SR and EIR (R384). Free value (log 20). -/
opaque intMasked : Nat → Word16 → Word16 → Bool

/-- Whether a pending unmasked interrupt is accepted before this word, where R390 allows it (U33).
Free value (log 20). -/
opaque acceptNow : Nat → Bool

end Config
end Sys2Proof
end

