-- ==== Sys2Proof/Machine/State.lean ====
section
/-! DEFINITION. The machine's state (10_state.md), the reasons a step can stop (R160) and the state
after reset (R55, R422). -/

namespace Sys2Proof.Machine

/-- A memory space: (byte address, byte) pairs, addresses strictly rising (`Memory.wf`). An address
that is not listed has no value (log 9). -/
abbrev Memory := List Host.Cell

/-- Run mode (R48). -/
inductive RunMode where
  | running
  | halted
  | stopped
deriving DecidableEq, Repr

/-- An entry of the loop stack: the saved LSA, LEA and LC, named LSR1, LSR2, LSR3 by MOV (R38). -/
structure LoopEntry where
  lsa : Word16
  lea : Word16
  lc : Word16
deriving DecidableEq, Repr

/-- What the previous word leaves for the checks on the next one (R49). -/
structure Marks where
  /-- `dp_fresh`: the data pointer that a MOV or LDI wrote in the previous word (R47, R430). -/
  dpFresh : Option DReg := none
  /-- The previous word was a MOV that reads or writes STK or SP (R431). -/
  stackMoved : Bool := false
  /-- The previous word was LOOP or a loop-end word: no interrupt is accepted now (R390 b, c). -/
  acceptHold : Bool := false
deriving DecidableEq, Repr

/-- The state of the machine. `draws`, `cycles` and `platform` are the model's own fields
(log 14, log 23, log 3). -/
structure State where
  /-- R0-R7 (R20). -/
  r : Vector Word40 8
  /-- The program counter (R23). -/
  pc : Word16
  /-- DP0-DP7 (R33). -/
  dp : Vector Word16 8
  /-- DN0-DN7 (R34). -/
  dn : Vector Word16 8
  /-- The modulo register of DP0-DP3 (R35). -/
  dmx : Word16
  /-- The modulo register of DP4-DP7 (R35). -/
  dmy : Word16
  /-- The stack pointer, as a number of SP_WIDTH bits (R36). -/
  sp : Word16
  /-- The call stack: place k holds STK[k + 1] (R36). -/
  stk : Vector Word16 15
  /-- The loop counter, bits 14-0 the count (R37). -/
  lc : Word16
  /-- The loop start address (R37). -/
  lsa : Word16
  /-- The loop end address (R37). -/
  lea : Word16
  /-- The loop stack pointer, as a number of LSP_WIDTH bits (R38). -/
  lsp : Word16
  /-- The loop stack: place k holds LSTK[k + 1] (R38). -/
  lstk : Vector LoopEntry 4
  /-- The repeat counter (R39). -/
  rc : Word16
  /-- The repeat flag: false (0) while a repeat is in progress (R39, R46). -/
  rf : Bool
  /-- The status register (R40, R41). -/
  sr : Word16
  /-- The interrupt-enable-flag stack register (R40, R41). -/
  eir : Word16
  /-- The error status register with OV and the bus-access-error flag (R30, R31, R40). -/
  esr : Word16
  /-- Running, halt mode or stop mode (R48). -/
  mode : RunMode
  /-- Latched interrupt requests not yet accepted, by source number (R45). -/
  pending : List Nat
  /-- Interrupt entries not yet matched by an effective RETI (R334, R388, R389). -/
  intDepth : Nat
  /-- The marks of the previous word (R49). -/
  marks : Marks
  /-- Free values used so far. -/
  draws : Nat
  /-- Cycles counted so far (R445). -/
  cycles : Nat
  /-- Instruction memory, a word at byte addresses 4a to 4a + 3 (R42, log 8). -/
  imem : Memory
  /-- X memory, a word at byte addresses 2a and 2a + 1 (R42, log 8). -/
  xmem : Memory
  /-- Y memory, a word at byte addresses 2a and 2a + 1 (R42, log 8). -/
  ymem : Memory
  /-- The parameters of the member and the platform (R7). -/
  platform : Platform
deriving DecidableEq, Repr

/-- The named faults of R160: the program did what the manual forbids or whose result it leaves open.
The machine's behaviour after it is not described, so each stop is safe. -/
inductive Fault where
  /-- A transfer uses DPn in the word right after the MOV or LDI that set it (R430). Safe. -/
  | dpUsedTooEarly (n : DReg)
  /-- CALL, CREG or interrupt entry with SP at 0xF or above (R327, R388). Safe. -/
  | stackOverflow
  /-- RET or RETI with SP 0 or above 0xF (R332). Safe. -/
  | stackUnderflow
  /-- RET or RETI right after a MOV of STK or SP (R431). Safe. -/
  | returnAfterStackMove
  /-- A conditional CALL or CREG whose following word is an unconditional RET or RETI (R432). Safe. -/
  | returnAfterCondCall
  /-- LOOP with LSP at 4 or above (R346). Safe. -/
  | loopStackOverflow
  /-- LPOP with LSP 0 or above 4 (R351). Safe. -/
  | loopStackUnderflow
  /-- REP or LOOP with a count of 0 or of 0x8000 and above (R341, R346). Safe. -/
  | badCount
  /-- The repeat target is a branch, REP, LOOP, LPOP, STOP or HALT (R343). Safe. -/
  | forbiddenRepeatTarget
  /-- A word R349 forbids near a loop end or at a loop head. Safe. -/
  | forbiddenNearLoopEnd
  /-- `DPn%%` with the modulo register 0 or at 0x8000 and above (R266). Safe. -/
  | moduloRange
  /-- MOV of a value above 0xF to SP or above 4 to LSP, or of another loop flag to LSR3 (R305). Safe. -/
  | badPointerValue
  /-- X and Y accesses of one word in a forbidden pair of regions (R279). `esr` is ESR before the
  word with the bus-access-error flag recorded on a member that has it; nothing is said of OV. Safe. -/
  | forbiddenRegionPair (esr : Word16)
  /-- A memory word that nothing has written is read; `none` is instruction memory (R55, U24). Safe. -/
  | uninitialisedRead (space : Option Space) (addr : Word16)
  /-- DIV with one register as divisor and dividend (R243). Safe. -/
  | divSameRegister
deriving DecidableEq, Repr

/-- The step is outside what the spec describes (R160): it has no result. Each is safe. -/
inductive Refusal where
  /-- An arm of `exec` that has no meaning yet. Safe. -/
  | notModelled (mnemonic : String)
  /-- The word at PC is the encoding of no statement (R123). Raised by `step`. Safe. -/
  | undefinedWord
  /-- The word at PC is a statement that is forbidden or refused as ill-formed (R155, R156, R278).
  Raised by `step`. Safe. -/
  | illFormed
  /-- Sequential advance from 0xFFFF (R24). Safe. -/
  | pcOverrun
  /-- A fetch from an address that holds no code (R78 d). Raised by `step`. Safe. -/
  | codeNotImplemented (addr : Word16)
  /-- MOV of STK while SP addresses no entry (R304). Safe. -/
  | noStackEntry
  /-- MOV of LSR1-3, or a loop exit, while LSP addresses no entry (R306). Safe. -/
  | noLoopEntry
  /-- A store to internal ROM (R78 b). Safe. -/
  | storeToRom (space : Space) (addr : Word16)
  /-- An access to the external area, the peripheral area or an address with nothing behind it
  (R78 c). Safe. -/
  | regionNotDescribed (region : Region)
  /-- An immediate shift amount of 40-63 (R209). Safe. -/
  | immediateShiftRange
  /-- STOP on the µPD77016 (R363). Safe. -/
  | stopNotOnMember
  /-- MOV with LC as destination: not a statement (R301). Safe. -/
  | lcNotADestination
  /-- RETI in the word right before an entry of the vector area (R385, U34). Safe. -/
  | retiBeforeVectorEntry
  /-- A step in stop mode: STOP ends the run (R363, U35). Raised by `step`. Safe. -/
  | inStopMode
deriving DecidableEq, Repr

/-- The machine right after reset. The manual gives no reset value (R55); R422 asks that the machine
runs with no repeat, no loop, an empty call stack, no interrupt depth and no pending request. Every
other register holds 0 (DESIGN CHOICE, unsafe, log 1); memory has nothing written (log 9). -/
def State.reset : State where
  r := Vector.replicate 8 0
  pc := Config.resetPc
  dp := Vector.replicate 8 0
  dn := Vector.replicate 8 0
  dmx := 0
  dmy := 0
  sp := 0
  stk := Vector.replicate 15 0
  lc := 0
  lsa := 0
  lea := 0
  lsp := 0
  lstk := Vector.replicate 4 ⟨0, 0, 0⟩
  rc := 0
  rf := true
  sr := 0
  eir := 0
  esr := 0
  mode := .running
  pending := []
  intDepth := 0
  marks := {}
  draws := 0
  cycles := 0
  imem := []
  xmem := []
  ymem := []
  platform := Config.defaultPlatform

end Sys2Proof.Machine
end

