-- ==== Sys2Proof/Machine/Memory.lean ====
section
/-! DEFINITION. The cells of a memory space and the words in them (20_memory.md R70-R74). The machine
addresses whole words; the byte order in the cells is the model's own (log 8). -/

namespace Sys2Proof.Machine

/-- The byte at a byte address; none where nothing was written. -/
def Memory.read : Memory → Nat → Option Byte
  | [], _ => none
  | (k, v) :: m, a => if a = k then some v else Memory.read m a

/-- The memory with a byte written. -/
def Memory.write : Memory → Nat → Byte → Memory
  | [], a, b => [(a, b)]
  | (k, v) :: m, a, b =>
    if a < k then (a, b) :: (k, v) :: m
    else if a = k then (k, b) :: m
    else (k, v) :: Memory.write m a b

/-- The canonical form: addresses strictly rising. An unlisted address has no value, so no entry can
equal what it reads as. -/
def Memory.wf : Memory → Bool
  | [] => true
  | (k, _) :: m => m.all (fun c => decide (k < c.1)) && Memory.wf m

/-- Every cell lies below a bound. -/
def Memory.below (n : Nat) (m : Memory) : Bool := m.all (fun c => decide (c.1 < n))

/-- The 16-bit word at a word address, if both its bytes were written. -/
def Memory.read16 (m : Memory) (a : Word16) : Option Word16 :=
  match m.read (2 * a.toNat), m.read (2 * a.toNat + 1) with
  | some lo, some hi => some (hi ++ lo)
  | _, _ => none

/-- The memory with a 16-bit word written. -/
def Memory.write16 (m : Memory) (a : Word16) (v : Word16) : Memory :=
  (m.write (2 * a.toNat) (v.extractLsb' 0 8)).write (2 * a.toNat + 1) (v.extractLsb' 8 8)

/-- The 32-bit word at a word address, if its four bytes were written. -/
def Memory.read32 (m : Memory) (a : Word16) : Option Word32 :=
  match m.read (4 * a.toNat), m.read (4 * a.toNat + 1), m.read (4 * a.toNat + 2),
      m.read (4 * a.toNat + 3) with
  | some b0, some b1, some b2, some b3 => some (b3 ++ b2 ++ b1 ++ b0)
  | _, _, _, _ => none

/-- The memory with a 32-bit word written. -/
def Memory.write32 (m : Memory) (a : Word16) (v : Word32) : Memory :=
  (((m.write (4 * a.toNat) (v.extractLsb' 0 8)).write (4 * a.toNat + 1) (v.extractLsb' 8 8)).write
    (4 * a.toNat + 2) (v.extractLsb' 16 8)).write (4 * a.toNat + 3) (v.extractLsb' 24 8)

/-- The cells of a data space (R71). -/
def State.data (s : State) : Space → Memory
  | .x => s.xmem
  | .y => s.ymem

/-- The state with the cells of a data space replaced. -/
def State.setData (s : State) (sp : Space) (m : Memory) : State :=
  match sp with
  | .x => { s with xmem := m }
  | .y => { s with ymem := m }

end Sys2Proof.Machine
end

