-- ==== Sys2Proof/Machine/Operands.lean ====
section
/-! DEFINITION. Operand forms: general registers and their parts (R20-R22), transfers (R268-R275),
pointer forms (R261-R267), conditions (R365), counts (R341), narrow registers (R302, R303), the
platform's lookups (R78, R279). -/

namespace Sys2Proof

/-! ## Conditions -/

/-- The predicate of a condition on the 40-bit value of the tested register (R365). -/
def Cond.holds (c : Cond) (v : Word40) : Bool :=
  match c with
  | .ever => true
  | .eq0 => v.toInt == 0
  | .ne0 => v.toInt != 0
  | .gt0 => decide (0 < v.toInt)
  | .le0 => decide (v.toInt ≤ 0)
  | .ge0 => decide (0 ≤ v.toInt)
  | .lt0 => decide (v.toInt < 0)
  | .eqEx => v.extractLsb' 31 9 != 0 && v.extractLsb' 31 9 != BitVec.allOnes 9
  | .neEx => v.extractLsb' 31 9 == 0 || v.extractLsb' 31 9 == BitVec.allOnes 9

/-- The partial transfer an LSPA side makes: loads are of `ro`, stores of `rh` (R276). -/
def ParSide.toPart (a : ParSide) : PartSide :=
  ⟨match a.dir with
    | .load => .load .ro
    | .store => .store .rh, a.dp, a.modi, a.reg⟩

/-- The two partial transfers of the parallel fields (R276). -/
def Par.toPair (p : Par) : PartPair := ⟨p.x.map ParSide.toPart, p.y.map ParSide.toPart⟩

/-! ## Members -/

/-- `HAS_BUS_ERR_FLAG`: the µPD7701x family (R2, R31). -/
def Member.hasBusErrFlag : Member → Bool
  | .upd77016 | .upd77015 | .upd77017 | .upd77018 | .upd77018A | .upd77019 => true
  | .upd77110 | .upd77111 | .upd77112 | .upd77113 | .upd77114 => false

/-- `HAS_STOP`: every member but the µPD77016 (R2, R363). -/
def Member.hasStop : Member → Bool
  | .upd77016 => false
  | _ => true

/-- `HAS_WAKEUP`: the µPD77111 family, where the WAKEUP pin can end stop mode (R2 d, R363). No step shows
the pin: STOP ends a run (D20, U35, log 25). -/
def Member.hasWakeup : Member → Bool
  | .upd77110 | .upd77111 | .upd77112 | .upd77113 | .upd77114 => true
  | .upd77016 | .upd77015 | .upd77017 | .upd77018 | .upd77018A | .upd77019 => false

/-- The members whose forbidden pairs name the internal ROM (R279). -/
def Member.forbidsRomPairs : Member → Bool
  | .upd77015 | .upd77017 | .upd77018 | .upd77018A | .upd77019 => true
  | _ => false

/-- `FORBIDDEN_PAIRS`, unordered (R279). -/
def Member.forbidsPair (m : Member) (a b : Region) : Bool :=
  match a, b with
  | .ext, .ext | .periph, .periph => true
  | .irom, .irom | .irom, .ext | .ext, .irom => m.forbidsRomPairs
  | _, _ => false

end Sys2Proof

namespace Sys2Proof.Machine

/-! ## General registers -/

/-- General register `i`, all 40 bits. -/
def State.reg (s : State) (i : GReg) : Word40 := s.r[i]

/-- The state with general register `i` written. -/
def State.setReg (s : State) (i : GReg) (v : Word40) : State := { s with r := s.r.set i v }

/-- The extension part, bits 39-32 (R21). -/
def partE (v : Word40) : Byte := v.extractLsb' 32 8

/-- The high part, bits 31-16 (R21). -/
def partH (v : Word40) : Word16 := v.extractLsb' 16 16

/-- The low part, bits 15-0 (R21). -/
def partL (v : Word40) : Word16 := v.extractLsb' 0 16

/-- The register value made of its three parts (R21). -/
def joinParts (e : Byte) (h l : Word16) : Word40 := e ++ h ++ l

/-- Eight copies of the sign of a memory word (R268, R269). -/
def signByte (m : Word16) : Byte := if m.msb then 0xFF else 0x00

/-- A register after a load of `m` into one of its parts (R268-R271, R273). -/
def loadedPart (part : LoadPart) (old : Word40) (m : Word16) : Word40 :=
  match part with
  | .ro => joinParts (signByte m) m 0
  | .reh => joinParts (signByte m) m (partL old)
  | .rh => joinParts (partE old) m (partL old)
  | .re => joinParts (m.extractLsb' 0 8) (partH old) (partL old)
  | .rl => joinParts (partE old) (partH old) m

/-- The memory word that a store of one part of a register writes (R272, R274, R275). -/
def storedPart (part : StorePart) (v : Word40) : Word16 :=
  match part with
  | .re => (partE v).zeroExtend 16
  | .rh => partH v
  | .rl => partL v

/-! ## Data pointers -/

/-- Data pointer `n` (R33). -/
def State.ptr (s : State) (n : DReg) : Word16 := s.dp[n]

/-- The state with data pointer `n` written. -/
def State.setPtr (s : State) (n : DReg) (v : Word16) : State := { s with dp := s.dp.set n v }

/-- Index register `n` (R34). -/
def State.idx (s : State) (n : DReg) : Word16 := s.dn[n]

/-- The state with index register `n` written. -/
def State.setIdx (s : State) (n : DReg) (v : Word16) : State := { s with dn := s.dn.set n v }

/-- The data pointer of a side: DP0-DP3 for X, DP4-DP7 for Y (R106). -/
def sidePtr (sp : Space) (k : Fin 4) : DReg :=
  match sp with
  | .x => Fin.ofNat 8 k.val
  | .y => Fin.ofNat 8 (4 + k.val)

/-- The space a data pointer addresses: X for n = 0-3, Y for n = 4-7 (R71). -/
def ptrSpace (n : DReg) : Space := if n.val ≤ 3 then .x else .y

/-- The modulo register of a data pointer: DMX for n = 0-3, DMY for n = 4-7 (R35). -/
def State.moduloReg (s : State) (n : DReg) : Word16 :=
  match ptrSpace n with
  | .x => s.dmx
  | .y => s.dmy

/-- The address of a pointer form: the bit-reversed pointer for `!DPn##`, else the pointer (R261, R267). -/
def pointerAddress (m : Modi) (d : Word16) : Word16 :=
  match m with
  | .bitRev => d.reverse
  | _ => d

/-- The pointer after `DPn%%`, with the cut `k` and DNn unsigned (R266). -/
def moduloNext (k : Nat) (dm d n : Word16) : Word16 :=
  BitVec.ofNat 16 (d.toNat - d.toNat % 2 ^ k + (d.toNat % 2 ^ k + n.toNat) % (dm.toNat + 1))

/-- The pointer after its modification (R263, R264, R266, R267). -/
def modifiedPointer (m : Modi) (dm d n : Word16) : Word16 :=
  match m with
  | .plain => d
  | .inc => d + 1
  | .dec => d - 1
  | .addDn => d + n
  | .modulo => moduloNext (Config.modSplit dm).val dm d n
  | .bitRev => d + n

/-- DMX or DMY has a value that `%%` works with, 1-0x7FFF (R266, R309). -/
def moduloInRange (dm : Word16) : Bool := decide (1 ≤ dm.toNat) && decide (dm.toNat < 0x8000)

/-! ## Counts and narrow registers -/

/-- The count of REP or LOOP as a 16-bit number (R341, R345). -/
def State.countOf (s : State) : Count → Word16
  | .imm c => c.zeroExtend 16
  | .reg r => partL (s.reg r)

/-- A count the instructions accept, 1-0x7FFF (R341, R346). -/
def countInRange (c : Word16) : Bool := decide (1 ≤ c.toNat) && decide (c.toNat < 0x8000)

/-- The bits of a register of `w` bits. -/
def lowMask (w : Nat) : Word16 := BitVec.ofNat 16 (2 ^ w - 1)

/-- What a register of `w` bits receives: the bits above are ignored (R302). -/
def narrowed (w : Nat) (v : Word16) : Word16 := v &&& lowMask w

/-- What `rl` receives from a register of `w` bits: its bits, and free bits above (R303). -/
def widened (w : Nat) (free v : Word16) : Word16 := (v &&& lowMask w) ||| (free &&& ~~~ lowMask w)

/-! ## The platform -/

/-- The region of an address in a map (R78). -/
def regionOf (m : List Span) (a : Word16) : Region :=
  match m with
  | [] => .absent
  | sp :: rest =>
    if sp.base ≤ a.toNat ∧ a.toNat < sp.base + sp.size then sp.region else regionOf rest a

/-- `RegionX` and `RegionY` (R78). -/
def State.region (s : State) (sp : Space) (a : Word16) : Region :=
  match sp with
  | .x => regionOf s.platform.xMap a
  | .y => regionOf s.platform.yMap a

/-- `IMEM_IMPLEMENTED` (R78). -/
def State.codeAt (s : State) (a : Word16) : Bool :=
  s.platform.codeMap.any (fun c => decide (c.1 ≤ a.toNat) && decide (a.toNat < c.1 + c.2))

end Sys2Proof.Machine
end

