-- ==== Sys2Proof/Machine/Flags.lean ====
section
/-! DEFINITION. The flags of ESR (R30, R31) and the result of an operation with its overflow (R170,
R190, R230). -/

namespace Sys2Proof.Machine

/-- A 16-bit word with one bit set. -/
def bitAt (k : Fin 15) : Word16 := BitVec.ofNat 16 (2 ^ k.val)

/-- The overflow flag OV (R30). -/
def State.ov (s : State) : Bool := s.esr.getLsbD s.platform.esrOvBit.val

/-- ESR after an operation: OV set to 1 on overflow, else unchanged; no operation clears it (R30). -/
def State.esrAfter (s : State) (overflow : Bool) : Word16 :=
  if overflow then s.esr ||| bitAt s.platform.esrOvBit else s.esr

/-- ESR with the bus-access-error flag recorded, on a member that has the flag (R31, R279). -/
def State.esrAfterBusError (s : State) : Word16 :=
  if s.platform.member.hasBusErrFlag then s.esr ||| bitAt s.platform.esrBusErrBit else s.esr

/-- What an operation gives: the 40-bit value, whether OV is set, and whether a free value was used. -/
structure AluOut where
  value : Word40
  overflow : Bool := false
  drawn : Bool := false
deriving DecidableEq, Repr

/-- An exact integer does not fit in 40-bit two's complement (R9). -/
def outOf40 (n : Int) : Bool := decide (n < min40) || decide (max40 < n)

/-- The result of an exact add or subtract: the low 40 bits, not corrected, and OV (R170, R192). -/
def exactOut (n : Int) : AluOut := { value := BitVec.ofInt 40 n, overflow := outOf40 n }

/-- The state after an operation wrote its destination and its flag (R153). -/
def State.writeAlu (s : State) (rd : GReg) (o : AluOut) : State :=
  { s.setReg rd o.value with
    esr := s.esrAfter o.overflow
    draws := s.draws + (if o.drawn then 1 else 0) }

end Sys2Proof.Machine
end

