-- ==== Sys2Proof/Machine/Ops.lean ====
section
/-! DEFINITION. The shared operations: how a step stops, memory transfers (R78, R153-R157, R276-R281),
the end of a word and the next PC (R158), the call stack (R36), the loop stack (R38), placement
checks (R343, R349), fetching, and taking an interrupt and returning from it (R388, R333). -/

namespace Sys2Proof.Machine

/-- The result of a step or of a meaning. -/
abbrev Res := Host.Outcome State Fault Refusal

/-- A reason to stop. -/
inductive Stop where
  | fault (f : Fault)
  | refusal (r : Refusal)
deriving DecidableEq, Repr

/-- Stop if there is a reason, else go on. -/
def guardStop (o : Option Stop) (k : Res) : Res :=
  match o with
  | none => k
  | some (.fault f) => .fault f
  | some (.refusal r) => .refused r

/-- A reason to stop under a condition. -/
def stopIf (b : Bool) (x : Stop) : Option Stop := if b then some x else none

/-! ## The call stack and the loop stack -/

/-- The place of the entry SP points at, when SP is 1-0xF (R36). -/
def State.stackPlace (s : State) : Option (Fin 15) :=
  if h : 1 ≤ s.sp.toNat ∧ s.sp.toNat ≤ 15 then some ⟨s.sp.toNat - 1, by omega⟩ else none

/-- STK[SP] (R36, R304); 0 stands where SP addresses no entry, which every caller has excluded. -/
def State.stackTop (s : State) : Word16 :=
  match s.stackPlace with
  | some k => s.stk[k]
  | none => 0

/-- The state with STK[SP] written (R304). -/
def State.setStackTop (s : State) (v : Word16) : State :=
  match s.stackPlace with
  | some k => { s with stk := s.stk.set k v }
  | none => s

/-- SP ← SP + 1, STK[SP] ← the address (R326). -/
def State.pushReturn (s : State) (a : Word16) : State :=
  { s with sp := s.sp + 1 }.setStackTop a

/-- A push needs SP at 0xE or below (R327, R388). -/
def pushStop (s : State) : Option Stop :=
  stopIf (decide (0xF ≤ s.sp.toNat)) (.fault .stackOverflow)

/-- A return needs SP in 1-0xF (R332). -/
def popStop (s : State) : Option Stop :=
  stopIf (s.stackPlace.isNone) (.fault .stackUnderflow)

/-- The place of the loop-stack entry LSP points at, when LSP is 1-4 (R38). -/
def State.loopPlace (s : State) : Option (Fin 4) :=
  if h : 1 ≤ s.lsp.toNat ∧ s.lsp.toNat ≤ 4 then some ⟨s.lsp.toNat - 1, by omega⟩ else none

/-- The entry LSP points at: LSR1, LSR2, LSR3 (R38). -/
def State.loopTop (s : State) : LoopEntry :=
  match s.loopPlace with
  | some k => s.lstk[k]
  | none => ⟨0, 0, 0⟩

/-- The state with the entry LSP points at written. -/
def State.setLoopTop (s : State) (e : LoopEntry) : State :=
  match s.loopPlace with
  | some k => { s with lstk := s.lstk.set k e }
  | none => s

/-- LSP ← LSP + 1, LSR1 ← LSA, LSR2 ← LEA, LSR3 ← LC (R345). -/
def State.pushLoop (s : State) : State :=
  { s with lsp := s.lsp + 1 }.setLoopTop ⟨s.lsa, s.lea, s.lc⟩

/-- LC ← LSR3, LEA ← LSR2, LSA ← LSR1, LSP ← LSP - 1 (R347, R351). -/
def State.popLoop (s : State) : State :=
  { s with lc := s.loopTop.lc, lea := s.loopTop.lea, lsa := s.loopTop.lsa, lsp := s.lsp - 1 }

/-! ## Where a word stands -/

/-- A loop is active exactly when LSP is not 0 (R354). -/
def State.loopActive (s : State) : Bool := s.lsp != 0

/-- The word is at LEA of an active loop (R347). -/
def State.atLoopEnd (s : State) : Bool := s.loopActive && s.pc == s.lea

/-- The word is at LEA - 2, LEA - 1 or LEA of an active loop, addresses modulo 2^16 (R349, log 33). -/
def State.nearLoopEnd (s : State) : Bool :=
  s.loopActive && decide ((s.lea - s.pc).toNat ≤ 2)

/-- A branch, REP, LOOP, LPOP, HALT or STOP may be neither a repeat target (R343) nor one of the last
three words of a loop (R349). -/
def placeStop (s : State) : Option Stop :=
  (stopIf (!s.rf) (.fault .forbiddenRepeatTarget)).or
    (stopIf s.nearLoopEnd (.fault .forbiddenNearLoopEnd))

/-- `rl = LC` may be neither the first word of a loop nor one of its last three (R349). -/
def lcReadStop (s : State) : Option Stop :=
  stopIf (s.nearLoopEnd || (s.loopActive && s.pc == s.lsa)) (.fault .forbiddenNearLoopEnd)

/-! ## The end of a word -/

/-- Sequential advance from 0xFFFF has no meaning (R24). -/
def advanceStop (s : State) : Option Stop := stopIf (s.pc == 0xFFFF) (.refusal .pcOverrun)

/-- The marks the next word sees and the cycles of this one. -/
def State.endWord (s : State) (m : Marks) (cyc : Nat) : State :=
  { s with marks := m, cycles := s.cycles + cyc }

/-- The word ends and PC takes a given value. -/
def State.goTo (s : State) (a : Word16) (m : Marks) (cyc : Nat) : State :=
  { s.endWord m cyc with pc := a }

/-- The word was the repeat target and executions are left (R342). -/
def State.repeatGoesOn (s : State) : Bool := !s.rf && decide (1 < s.rc.toNat)

/-- The word was the loop end and passes are left (R347). -/
def State.loopGoesOn (s : State) : Bool := s.atLoopEnd && decide (1 < s.lc.toNat % 0x8000)

/-- Why no next PC can be chosen for a word that is no taken branch (R24, R158). -/
def retireStop (s : State) : Option Stop :=
  if s.repeatGoesOn || s.loopGoesOn then none
  else (stopIf (s.atLoopEnd && s.loopPlace.isNone) (.refusal .noLoopEntry)).or (advanceStop s)

/-- The next PC of a word that is no taken branch, with the bookkeeping of a repeat and of a loop end
(R158 cases 1, 2 and 5; R342, R347). `s` is the state after the word's own effect (R158), so a `LSP = rl`
at LEA that makes LSP 0 ends no loop. That it then holds off no interrupt either is the model's reading of
"loop-end word" in R390 c (DESIGN CHOICE, safe, log 38). -/
def State.retired (s : State) (m : Marks) (cyc : Nat) : State :=
  if s.repeatGoesOn then { s.endWord m cyc with rc := s.rc - 1 }
  else if s.atLoopEnd then
    if s.loopGoesOn then
      { s.goTo s.lsa { m with acceptHold := true } cyc with rf := true, lc := s.lc - 1 }
    else { s.popLoop.goTo (s.pc + 1) { m with acceptHold := true } cyc with rf := true }
  else { s.goTo (s.pc + 1) m cyc with rf := true }

/-- The end of a word that is no taken branch. -/
def complete (m : Marks) (cyc : Nat) (s : State) : Res :=
  guardStop (retireStop s) (.next (s.retired m cyc))

/-- The end of a word that only advances PC: REP, LOOP, LPOP, HALT, STOP (R341, R345, R351, R362,
R363), none of which is a repeat target or the end of the loop active before it (R343, R349); for LPOP at
the LEA it restores, log 41. -/
def advance (m : Marks) (cyc : Nat) (s : State) : Res :=
  guardStop (advanceStop s) (.next (s.goTo (s.pc + 1) m cyc))

/-! ## Transfers -/

/-- The word of a data space as loaded; 0 stands where nothing was written, which every caller has
excluded. -/
def State.loadWord (s : State) (sp : Space) (a : Word16) : Word16 := ((s.data sp).read16 a).getD 0

/-- Why an access cannot be made: its region (R78) or a word nothing has written (R55). -/
def accessStop (s : State) (sp : Space) (a : Word16) (op : PartOp) : Option Stop :=
  match s.region sp a, op with
  | .iram, .store _ => none
  | .irom, .store _ => some (.refusal (.storeToRom sp a))
  | .iram, .load _ | .irom, .load _ =>
    stopIf ((s.data sp).read16 a).isNone (.fault (.uninitialisedRead (some sp) a))
  | g, _ => some (.refusal (.regionNotDescribed g))

/-- One access: loads and stores take their memory word and register from `base`, the state before the
transfers of the word (R80, R154). -/
def accessEffect (base : State) (sp : Space) (a : Word16) (op : PartOp) (r : GReg) (s : State) : State :=
  match op with
  | .load part => s.setReg r (loadedPart part (s.reg r) (base.loadWord sp a))
  | .store part => s.setData sp ((s.data sp).write16 a (storedPart part (base.reg r)))

/-- The address of one side of a word (R261, R267). -/
def State.sideAddress (s : State) (sp : Space) (a : PartSide) : Word16 :=
  pointerAddress a.modi (s.ptr (sidePtr sp a.dp))

/-- Why a pointer cannot be used: set in the previous word (R430), or `%%` with a modulo register out
of range (R266). -/
def pointerStop (s : State) (n : DReg) (m : Modi) : Option Stop :=
  (stopIf (s.marks.dpFresh == some n) (.fault (.dpUsedTooEarly n))).or
    (stopIf (m == .modulo && !moduloInRange (s.moduloReg n)) (.fault .moduloRange))

/-- The pointer checks of one side, if there is one. -/
def sidePointerStop (s : State) (sp : Space) : Option PartSide → Option Stop
  | none => none
  | some a => pointerStop s (sidePtr sp a.dp) a.modi

/-- The access checks of one side, if there is one. -/
def sideAccessStop (s : State) (sp : Space) : Option PartSide → Option Stop
  | none => none
  | some a => accessStop s sp (s.sideAddress sp a) a.op

/-- An X and a Y access in a forbidden pair of regions (R279). -/
def regionPairStop (s : State) (q : PartPair) : Option Stop :=
  match q.x, q.y with
  | some a, some b =>
    stopIf (s.platform.member.forbidsPair (s.region .x (s.sideAddress .x a))
        (s.region .y (s.sideAddress .y b)))
      (.fault (.forbiddenRegionPair s.esrAfterBusError))
  | _, _ => none

/-- Why the transfers of a word cannot be made. -/
def pairStop (s : State) (q : PartPair) : Option Stop :=
  (sidePointerStop s .x q.x).or ((sidePointerStop s .y q.y).or ((regionPairStop s q).or
    ((sideAccessStop s .x q.x).or (sideAccessStop s .y q.y))))

/-- The pointer of a side after the access (R262). -/
def State.nextPointer (s : State) (n : DReg) (m : Modi) : Word16 :=
  modifiedPointer m (s.moduloReg n) (s.ptr n) (s.idx n)

/-- One side: the access, then the pointer (R157, R276). -/
def sideEffect (base : State) (sp : Space) (o : Option PartSide) (s : State) : State :=
  match o with
  | none => s
  | some a =>
    (accessEffect base sp (base.sideAddress sp a) a.op a.reg s).setPtr (sidePtr sp a.dp)
      (base.nextPointer (sidePtr sp a.dp) a.modi)

/-- The two sides of a word (R154). -/
def State.transfers (s : State) (q : PartPair) : State :=
  sideEffect s .y q.y (sideEffect s .x q.x s)

/-- The transfers and the end of a word of one cycle. -/
def transferWord (q : PartPair) (s : State) : Res :=
  guardStop (pairStop s q) (complete {} 1 (s.transfers q))

/-- A word of one operation and parallel transfers: the checks on the state before the word, then the
operation, then the transfers (R80, R151). -/
def aluWord (rd : GReg) (o : AluOut) (p : Par) (s : State) : Res :=
  guardStop (pairStop s p.toPair) (complete {} 1 ((s.writeAlu rd o).transfers p.toPair))

/-! ## Fetching -/

/-- The statement at an instruction address, or why there is none (R78 d, R123, R151 phase 1). -/
def fetchAt (s : State) (a : Word16) : Except Stop Instr :=
  if s.codeAt a then
    match s.imem.read32 a with
    | none => .error (.fault (.uninitialisedRead none a))
    | some w =>
      match decode s.platform.codes (bytesOfWord w) with
      | .error _ => .error (.refusal .undefinedWord)
      | .ok i => if i.wellFormed then .ok i else .error (.refusal .illFormed)
  else .error (.refusal (.codeNotImplemented a))

/-- The word at an address is an unconditional RET or RETI (R432). -/
def plainReturnAt (s : State) (a : Word16) : Bool :=
  match fetchAt s a with
  | .ok .ret | .ok .reti => true
  | _ => false

/-! ## Branches -/

/-- CALL: push the address of the next word, go to the target (R326). -/
def State.callTo (s : State) (target : Word16) (cyc : Nat) : State :=
  (s.pushReturn (s.pc + 1)).goTo target {} cyc

/-- RET: go to STK[SP], SP ← SP - 1 (R330). -/
def State.returnTo (s : State) (cyc : Nat) : State :=
  { s.goTo s.stackTop {} cyc with sp := s.sp - 1 }

/-- The target of JMP imm and CALL imm: the sum of the word's address and its displacement, modulo
2^16 (R331). -/
def State.relTarget (s : State) (rel : Word16) : Word16 := s.pc + rel

/-- Checks on a RET or RETI before its condition (R323, R431). -/
def returnPlaceStop (s : State) : Option Stop :=
  (placeStop s).or (stopIf s.marks.stackMoved (.fault .returnAfterStackMove))

/-- Checks on a conditional CALL or CREG before its condition (R323, R432). -/
def condCallStop (s : State) : Option Stop :=
  (placeStop s).or (stopIf (plainReturnAt s (s.pc + 1)) (.fault .returnAfterCondCall))

/-! ## Interrupts -/

/-- SR with bits 15-13 replaced (R41). -/
def withEnableBits (b : BitVec 3) (sr : Word16) : Word16 := b ++ sr.extractLsb' 0 13

/-- The state with the interrupt-enable bits of SR and with EIR replaced (R386). -/
def State.setEnables (s : State) (v : BitVec 3 × Word16) : State :=
  { s with sr := withEnableBits v.1 s.sr, eir := narrowed s.platform.eirWidth v.2 }

/-- A request is latched; the pending requests are a set (R45, R364). The environment of the core does
this, no instruction (log 21). A second request of a source whose first is pending leaves the set as it
is: R389 does not describe it (DESIGN CHOICE, unsafe, log 39). -/
def State.latchRequest (s : State) (id : Nat) : State :=
  if s.pending.contains id then s else { s with pending := s.pending ++ [id] }

/-- The source to accept: pending and not masked, of highest priority (R384, R391). -/
def State.readySource (s : State) : Option IntSource :=
  s.platform.intSources.find? (fun q => s.pending.contains q.id && !Config.intMasked q.id s.sr s.eir)

/-- Between the last word and the next an interrupt may be accepted: no repeat is in progress, and the
last word was neither LOOP nor a loop end (R390). -/
def State.acceptAllowed (s : State) : Bool := s.rf && !s.marks.acceptHold

/-- Interrupt entry: STK and SP take the address of the next word, SR bits 15-13 and EIR the values
`SaveIE` gives, the request is no longer pending, PC goes to the vector entry (R388). -/
def State.entered (s : State) (q : IntSource) : State :=
  { (s.pushReturn s.pc).setEnables (Config.saveIE s.sr s.eir) with
    pending := s.pending.filter (fun k => k != q.id)
    intDepth := s.intDepth + 1
    mode := .running
    pc := q.vector }

/-- Taking an interrupt (R388). -/
def acceptInterrupt (q : IntSource) (s : State) : Res :=
  guardStop (pushStop s) (.next (s.entered q))

/-- The return from an interrupt: RET, and SR bits 15-13 and EIR as `RestoreIE` gives them; the depth
falls by one (R333, R389). -/
def State.interruptReturned (s : State) (cyc : Nat) : State :=
  { (s.returnTo cyc).setEnables (Config.restoreIE s.sr s.eir) with intDepth := s.intDepth - 1 }

/-- The word after PC is an entry of the vector area (R385). -/
def beforeVectorEntry (s : State) : Bool :=
  s.platform.intSources.any (fun q => decide (s.pc.toNat + 1 = q.vector.toNat))

end Sys2Proof.Machine
end

