-- ==== Sys2Proof/Machine/Trinomial.lean ====
section
/-! DEFINITION. The trinomials (41_trinomial.md): an accumulator `op3`, two multiplier inputs `op1` and
`op2`, and two optional transfers. -/

namespace Sys2Proof.Machine

/-- Twice the product of two signed 16-bit inputs, exact (R170). -/
def prodSS (a b : Word16) : Int := 2 * (a.toInt * b.toInt)

/-- Twice the product of a signed and an unsigned input, exact (R173). -/
def prodSU (a b : Word16) : Int := 2 * (a.toInt * (b.toNat : Int))

/-- The product term of UUMA for a product P: 2P, exact below 2^31; from 2^31 on exact or modulo 2^32,
which is open (R174, log 17). -/
def doubledUU (P : Nat) : Int :=
  if P < 2 ^ 31 then 2 * (P : Int)
  else if Config.uumaWideExact P then 2 * (P : Int)
  else ((2 * P % 2 ^ 32 : Nat) : Int)

/-- The product term of UUMA for two unsigned inputs (R174). -/
def prodUU (a b : Word16) : Int := doubledUU (a.toNat * b.toNat)

/-- MADD, `ro = ro + rh * rh'` (R171). -/
def execMadd (op1 op2 op3 : GReg) (p : Par) (s : State) : Res :=
  aluWord op3 (exactOut ((s.reg op3).toInt + prodSS (partH (s.reg op1)) (partH (s.reg op2)))) p s

/-- MSUB, `ro = ro - rh * rh'` (R172). -/
def execMsub (op1 op2 op3 : GReg) (p : Par) (s : State) : Res :=
  aluWord op3 (exactOut ((s.reg op3).toInt - prodSS (partH (s.reg op1)) (partH (s.reg op2)))) p s

/-- SUMA, `ro = ro + rh * rl` (R173). -/
def execSuma (op1 op2 op3 : GReg) (p : Par) (s : State) : Res :=
  aluWord op3 (exactOut ((s.reg op3).toInt + prodSU (partH (s.reg op1)) (partL (s.reg op2)))) p s

/-- UUMA, `ro = ro + rl * rl'` (R174). -/
def execUuma (op1 op2 op3 : GReg) (p : Par) (s : State) : Res :=
  aluWord op3 (exactOut ((s.reg op3).toInt + prodUU (partL (s.reg op1)) (partL (s.reg op2)))) p s

/-- The accumulator of MAS1 and MAS16 after an arithmetic right shift, which never overflows with the
product (R175, R176). -/
def shiftedSum (n : Nat) (acc : Word40) (m : Int) : AluOut :=
  { value := BitVec.ofInt 40 (acc.toInt / 2 ^ n + m) }

/-- MAS1, `ro = (ro >> 1) + rh * rh'` (R175). -/
def execMas1 (op1 op2 op3 : GReg) (p : Par) (s : State) : Res :=
  aluWord op3 (shiftedSum 1 (s.reg op3) (prodSS (partH (s.reg op1)) (partH (s.reg op2)))) p s

/-- MAS16, `ro = (ro >> 16) + rh * rh'` (R176). -/
def execMas16 (op1 op2 op3 : GReg) (p : Par) (s : State) : Res :=
  aluWord op3 (shiftedSum 16 (s.reg op3) (prodSS (partH (s.reg op1)) (partH (s.reg op2)))) p s

end Sys2Proof.Machine
end

