-- ==== Sys2Proof/Machine/Binomial.lean ====
section
/-! DEFINITION. The binomials (42_binomial.md): ten register forms with two optional transfers, eight
immediate forms. -/

namespace Sys2Proof.Machine

/-- MPY, `ro = rh * rh'`; the product always fits (R191). -/
def execMpy (op1 op2 op3 : GReg) (p : Par) (s : State) : Res :=
  aluWord op3 { value := BitVec.ofInt 40 (prodSS (partH (s.reg op1)) (partH (s.reg op2))) } p s

/-- ADD, `ro'' = ro + ro'` (R192). -/
def execAdd (op1 op2 op3 : GReg) (p : Par) (s : State) : Res :=
  aluWord op3 (exactOut ((s.reg op1).toInt + (s.reg op2).toInt)) p s

/-- SUB, `ro'' = ro - ro'` (R194). -/
def execSub (op1 op2 op3 : GReg) (p : Par) (s : State) : Res :=
  aluWord op3 (exactOut ((s.reg op1).toInt - (s.reg op2).toInt)) p s

/-- The shift amount in a register: bits 5-0 of its L part (R209). -/
def shiftAmount (v : Word40) : Nat := (v.extractLsb' 0 6).toNat

/-- SRA, `ro' = ro SRA rl` (R196). -/
def execSra (op1 op2 op3 : GReg) (p : Par) (s : State) : Res :=
  aluWord op3 { value := (s.reg op1).sshiftRight (shiftAmount (s.reg op2)) } p s

/-- SRL, `ro' = ro SRL rl` (R198). -/
def execSrl (op1 op2 op3 : GReg) (p : Par) (s : State) : Res :=
  aluWord op3 { value := s.reg op1 >>> shiftAmount (s.reg op2) } p s

/-- SLL, `ro' = ro SLL rl`; OV never changes (R200). -/
def execSll (op1 op2 op3 : GReg) (p : Par) (s : State) : Res :=
  aluWord op3 { value := s.reg op1 <<< shiftAmount (s.reg op2) } p s

/-- AND, `ro'' = ro & ro'` (R202). -/
def execAnd (op1 op2 op3 : GReg) (p : Par) (s : State) : Res :=
  aluWord op3 { value := s.reg op1 &&& s.reg op2 } p s

/-- OR, `ro'' = ro | ro'` (R204). -/
def execOr (op1 op2 op3 : GReg) (p : Par) (s : State) : Res :=
  aluWord op3 { value := s.reg op1 ||| s.reg op2 } p s

/-- XOR, `ro'' = ro ^ ro'` (R206). -/
def execXor (op1 op2 op3 : GReg) (p : Par) (s : State) : Res :=
  aluWord op3 { value := s.reg op1 ^^^ s.reg op2 } p s

/-- LT, `ro'' = LT (ro, ro')`: an exact comparison, OV never changes (R208). -/
def execLt (op1 op2 op3 : GReg) (p : Par) (s : State) : Res :=
  aluWord op3 { value := if (s.reg op1).toInt < (s.reg op2).toInt then 1 else 0 } p s

/-- A word of one operation and nothing else (R190). -/
def immWord (rd : GReg) (o : AluOut) (s : State) : Res := complete {} 1 (s.writeAlu rd o)

/-- IADD, `ro' = ro + imm`, the immediate zero-extended (R193). -/
def execIadd (op1 op2 : GReg) (imm : Word16) (s : State) : Res :=
  immWord op2 (exactOut ((s.reg op1).toInt + (imm.toNat : Int))) s

/-- ISUB, `ro' = ro - imm`, the immediate zero-extended (R195). -/
def execIsub (op1 op2 : GReg) (imm : Word16) (s : State) : Res :=
  immWord op2 (exactOut ((s.reg op1).toInt - (imm.toNat : Int))) s

/-- The shift amount in an immediate: bits 5-0 (R209). -/
def immShift (imm : Word16) : Nat := (imm.extractLsb' 0 6).toNat

/-- An immediate shift amount of 40-63 is outside the statement's range (R209). -/
def immShiftStop (imm : Word16) : Option Stop :=
  stopIf (decide (40 ≤ immShift imm)) (.refusal .immediateShiftRange)

/-- ISRA, `ro' = ro SRA imm` (R197). -/
def execIsra (op1 op2 : GReg) (imm : Word16) (s : State) : Res :=
  guardStop (immShiftStop imm) (immWord op2 { value := (s.reg op1).sshiftRight (immShift imm) } s)

/-- ISRL, `ro' = ro SRL imm` (R199). -/
def execIsrl (op1 op2 : GReg) (imm : Word16) (s : State) : Res :=
  guardStop (immShiftStop imm) (immWord op2 { value := s.reg op1 >>> immShift imm } s)

/-- ISLL, `ro' = ro SLL imm` (R201). -/
def execIsll (op1 op2 : GReg) (imm : Word16) (s : State) : Res :=
  guardStop (immShiftStop imm) (immWord op2 { value := s.reg op1 <<< immShift imm } s)

/-- IAND, `ro' = ro & imm`: bits 39-16 become 0 (R203). -/
def execIand (op1 op2 : GReg) (imm : Word16) (s : State) : Res :=
  immWord op2 { value := s.reg op1 &&& imm.zeroExtend 40 } s

/-- IOR, `ro' = ro | imm`: bits 39-16 are those of `ro` (R205). -/
def execIor (op1 op2 : GReg) (imm : Word16) (s : State) : Res :=
  immWord op2 { value := s.reg op1 ||| imm.zeroExtend 40 } s

/-- IXOR, `ro' = ro ^ imm`: bits 39-16 are those of `ro` (R207). -/
def execIxor (op1 op2 : GReg) (imm : Word16) (s : State) : Res :=
  immWord op2 { value := s.reg op1 ^^^ imm.zeroExtend 40 } s

end Sys2Proof.Machine
end

