-- ==== Sys2Proof/Machine/Branch.lean ====
section
/-! DEFINITION. The branch instructions without a condition (47_branch.md). The actions, without the
placement checks, serve the conditional forms too. Cycles: R321. -/

namespace Sys2Proof.Machine

/-- The call action (R326-R328). -/
def callAction (target : Word16) (cyc : Nat) (s : State) : Res :=
  guardStop (pushStop s) (.next (s.callTo target cyc))

/-- The return action (R330, R332). -/
def retAction (cyc : Nat) (s : State) : Res :=
  guardStop (popStop s) (.next (s.returnTo cyc))

/-- The interrupt return action; outside interrupt processing only PC advances (R333, R334). -/
def retiAction (cyc : Nat) (s : State) : Res :=
  if s.intDepth = 0 then advance {} cyc s
  else guardStop (popStop s) (.next (s.interruptReturned cyc))

/-- Checks on a RETI before its condition (R334). -/
def retiPlaceStop (s : State) : Option Stop :=
  (returnPlaceStop s).or (stopIf (beforeVectorEntry s) (.refusal .retiBeforeVectorEntry))

/-- JMP imm (R324). -/
def execJmp (rel : Word16) (s : State) : Res :=
  guardStop (placeStop s) (.next (s.goTo (s.relTarget rel) {} 2))

/-- JREG, `JMP dp` (R325). -/
def execJreg (dp : DReg) (s : State) : Res :=
  guardStop (placeStop s) (.next (s.goTo (s.ptr dp) {} 3))

/-- CALL imm (R326). -/
def execCall (rel : Word16) (s : State) : Res :=
  guardStop (placeStop s) (callAction (s.relTarget rel) 2 s)

/-- CREG, `CALL dp` (R328). -/
def execCreg (dp : DReg) (s : State) : Res :=
  guardStop (placeStop s) (callAction (s.ptr dp) 3 s)

/-- RET (R330). -/
def execRet (s : State) : Res := guardStop (returnPlaceStop s) (retAction 2 s)

/-- RETI (R333, R334). -/
def execReti (s : State) : Res := guardStop (retiPlaceStop s) (retiAction 2 s)

end Sys2Proof.Machine
end

