-- ==== Sys2Proof/Machine/Monomial.lean ====
section
/-! DEFINITION. The monomials (43_monomial.md), with two optional transfers. The same results serve the
conditional form (`monoOut`, R230). -/

namespace Sys2Proof.Machine

/-- INC, `ro' = ro + 1` (R231). -/
def incOut (v : Word40) : AluOut := exactOut (v.toInt + 1)

/-- DEC, `ro' = ro - 1` (R232). -/
def decOut (v : Word40) : AluOut := exactOut (v.toInt - 1)

/-- ABS: the least value stays as it is and sets OV (R234). -/
def absOut (v : Word40) : AluOut := exactOut (if v.toInt < 0 then -v.toInt else v.toInt)

/-- NEG: the least value stays as it is and sets OV (R236). -/
def negOut (v : Word40) : AluOut := exactOut (-v.toInt)

/-- CLIP to 32 bits; OV never changes (R237). -/
def clipOut (v : Word40) : AluOut :=
  { value :=
      if 2 ^ 31 - 1 < v.toInt then 0x007FFFFFFF
      else if v.toInt < -2 ^ 31 then 0xFF80000000
      else v }

/-- RND: clip above 0x00'7FFF'0000 and below -2^31, else add 0x8000 and clear bits 15-0; OV never
changes (R238). -/
def rndOut (v : Word40) : AluOut :=
  { value :=
      if 0x7FFF0000 < v.toInt then 0x007FFF0000
      else if v.toInt < -2 ^ 31 then 0xFF80000000
      else (v + 0x8000) &&& 0xFFFFFF0000 }

/-- The number of consecutive bits equal to bit 31, counted from bit `n - 1` downward (R239). -/
def signRun (w : BitVec 32) : Nat → Nat
  | 0 => 0
  | n + 1 => if w.getLsbD n = w.getLsbD 31 then 1 + signRun w n else 0

/-- EXP, the left shift that normalises bits 31-0; a free value where the operand does not fit in 32
bits (R239, log 14). -/
def expOut (v : Word40) (n : Nat) : AluOut :=
  if 0x7FFFFFFF < v.toInt ∨ v.toInt < -2 ^ 31 then { value := Config.freeExp n, drawn := true }
  else if v = 0 then { value := 0 }
  else if v = 0xFFFFFFFFFF then { value := 0x1F }
  else { value := BitVec.ofNat 40 (signRun (v.extractLsb' 0 32) 31) }

/-- ACA, `ro' += ro` (R241). -/
def acaOut (v acc : Word40) : AluOut := exactOut (acc.toInt + v.toInt)

/-- ACS, `ro' -= ro` (R242). -/
def acsOut (v acc : Word40) : AluOut := exactOut (acc.toInt - v.toInt)

/-- The partial remainder of a DIV step before its left shift: the difference where dividend and
divisor have the same sign, else the sum (R243). -/
def divPartial (d a : Word40) : Word40 := if a.msb = d.msb then a - d else a + d

/-- DIV, one step: shift the partial remainder left and insert the quotient bit. Where the shift
changes the sign bit, OV is set or kept as a free bit says (R243, log 16). -/
def divOut (d a : Word40) (n : Nat) : AluOut :=
  { value := (divPartial d a <<< 1) + (if (divPartial d a).msb then 0 else 1)
    overflow := (divPartial d a).getLsbD 39 != (divPartial d a).getLsbD 38 && Config.freeDivOv n
    drawn := (divPartial d a).getLsbD 39 != (divPartial d a).getLsbD 38 }

/-- DIV with one register as both operands (R243). -/
def divStop (op1 op2 : GReg) : Option Stop := stopIf (op1 == op2) (.fault .divSameRegister)

/-- CLR, `CLR (ro)` (R233). -/
def execClr (op : GReg) (p : Par) (s : State) : Res := aluWord op { value := 0 } p s

/-- INC (R231). -/
def execInc (op1 op2 : GReg) (p : Par) (s : State) : Res := aluWord op2 (incOut (s.reg op1)) p s

/-- DEC (R232). -/
def execDec (op1 op2 : GReg) (p : Par) (s : State) : Res := aluWord op2 (decOut (s.reg op1)) p s

/-- ABS (R234). -/
def execAbs (op1 op2 : GReg) (p : Par) (s : State) : Res := aluWord op2 (absOut (s.reg op1)) p s

/-- NOT, `ro' = ~ro` (R235). -/
def execNot (op1 op2 : GReg) (p : Par) (s : State) : Res :=
  aluWord op2 { value := ~~~ s.reg op1 } p s

/-- NEG (R236). -/
def execNeg (op1 op2 : GReg) (p : Par) (s : State) : Res := aluWord op2 (negOut (s.reg op1)) p s

/-- CLIP (R237). -/
def execClip (op1 op2 : GReg) (p : Par) (s : State) : Res := aluWord op2 (clipOut (s.reg op1)) p s

/-- RND (R238). -/
def execRnd (op1 op2 : GReg) (p : Par) (s : State) : Res := aluWord op2 (rndOut (s.reg op1)) p s

/-- EXP (R239). -/
def execExp (op1 op2 : GReg) (p : Par) (s : State) : Res :=
  aluWord op2 (expOut (s.reg op1) s.draws) p s

/-- PUT, `ro' = ro` (R240). -/
def execPut (op1 op2 : GReg) (p : Par) (s : State) : Res := aluWord op2 { value := s.reg op1 } p s

/-- ACA (R241). -/
def execAca (op1 op2 : GReg) (p : Par) (s : State) : Res :=
  aluWord op2 (acaOut (s.reg op1) (s.reg op2)) p s

/-- ACS (R242). -/
def execAcs (op1 op2 : GReg) (p : Par) (s : State) : Res :=
  aluWord op2 (acsOut (s.reg op1) (s.reg op2)) p s

/-- DIV (R243). -/
def execDiv (op1 op2 : GReg) (p : Par) (s : State) : Res :=
  guardStop (divStop op1 op2) (aluWord op2 (divOut (s.reg op1) (s.reg op2) s.draws) p s)

/-- The result of a monomial for the conditional form, from its source `v`, its old destination `acc`
and the number of free values used (R230). -/
def monoOut (m : Mono) (v acc : Word40) (n : Nat) : AluOut :=
  match m with
  | .clr => { value := 0 }
  | .inc => incOut v
  | .dec => decOut v
  | .abs => absOut v
  | .not => { value := ~~~ v }
  | .neg => negOut v
  | .clip => clipOut v
  | .rnd => rndOut v
  | .exp => expOut v n
  | .put => { value := v }
  | .aca => acaOut v acc
  | .acs => acsOut v acc
  | .div => divOut v acc n

/-- Why a monomial cannot run (R243). -/
def monoStop (m : Mono) (op1 op2 : GReg) : Option Stop :=
  match m with
  | .div => divStop op1 op2
  | _ => none

end Sys2Proof.Machine
end

