-- ==== Sys2Proof/Machine/Transfer.lean ====
section
/-! DEFINITION. MOV (45_register_transfer.md) and LDI (46_immediate_set.md). -/

namespace Sys2Proof.Machine

/-- The value of an address-unit register (R301). -/
def State.addrReg (s : State) : AddrReg → Word16
  | .dp n => s.ptr n
  | .dn n => s.idx n
  | .dmx => s.dmx
  | .dmy => s.dmy

/-- The state with an address-unit register written (R302, R317). -/
def State.setAddrReg (s : State) (a : AddrReg) (v : Word16) : State :=
  match a with
  | .dp n => s.setPtr n v
  | .dn n => s.setIdx n v
  | .dmx => { s with dmx := v }
  | .dmy => { s with dmy := v }

/-- A MOV or LDI to DPn marks it for the next word (R430). -/
def freshMark : AddrReg → Marks
  | .dp n => { dpFresh := some n }
  | _ => {}

/-- The state with the L part of a general register written; E and H stay (R303, R316). -/
def State.setLow (s : State) (r : GReg) (v : Word16) : State :=
  s.setReg r (joinParts (partE (s.reg r)) (partH (s.reg r)) v)

/-- LC or a saved LC as MOV reads it: bit 15 is `LOOP_FLAG_VALUE` (R306, R353, log 19). -/
def State.flagged (s : State) (c : Word16) : Word16 :=
  BitVec.ofBool (Config.loopFlagValue s.loopActive) ++ c.extractLsb' 0 15

/-- `rl = source` and `dest = rl` of the address-unit registers, the group a condition may govern
(R302, R303, R310). -/
def movAddr (d : MovDir) (a : AddrReg) (r : GReg) (s : State) : Res :=
  match d with
  | .toSpecial => complete (freshMark a) 1 (s.setAddrReg a (partL (s.reg r)))
  | .fromSpecial => complete {} 1 (s.setLow r (s.addrReg a))

/-- Why `dest = rl` cannot run (R304, R305, R306). -/
def movToStop (c : CtlReg) (v : Word16) (s : State) : Option Stop :=
  match c with
  | .stk => stopIf s.stackPlace.isNone (.refusal .noStackEntry)
  | .sp => stopIf (decide (0xF < (narrowed s.platform.spWidth v).toNat)) (.fault .badPointerValue)
  | .lc => some (.refusal .lcNotADestination)
  | .lsr1 | .lsr2 => stopIf s.loopPlace.isNone (.refusal .noLoopEntry)
  | .lsr3 =>
    (stopIf s.loopPlace.isNone (.refusal .noLoopEntry)).or
      (stopIf (v.msb != (s.flagged s.loopTop.lc).msb) (.fault .badPointerValue))
  | .lsp => stopIf (decide (4 < (narrowed s.platform.lspWidth v).toNat)) (.fault .badPointerValue)
  | .sr | .eir | .esr => none

/-- `dest = rl` of the other registers (R302, R304, R306, R307). -/
def movToEffect (c : CtlReg) (v : Word16) (s : State) : State :=
  match c with
  | .stk => s.setStackTop v
  | .sp => { s with sp := narrowed s.platform.spWidth v }
  | .lc => s
  | .lsr1 => s.setLoopTop { s.loopTop with lsa := v }
  | .lsr2 => s.setLoopTop { s.loopTop with lea := v }
  | .lsr3 => s.setLoopTop { s.loopTop with lc := v }
  | .lsp => { s with lsp := narrowed s.platform.lspWidth v }
  | .sr => { s with sr := v }
  | .eir => { s with eir := narrowed s.platform.eirWidth v }
  | .esr => { s with esr := narrowed s.platform.esrWidth v }

/-- Why `rl = source` cannot run (R304, R306, R349). -/
def movFromStop (c : CtlReg) (s : State) : Option Stop :=
  match c with
  | .stk => stopIf s.stackPlace.isNone (.refusal .noStackEntry)
  | .lc => lcReadStop s
  | .lsr1 | .lsr2 | .lsr3 => stopIf s.loopPlace.isNone (.refusal .noLoopEntry)
  | .sp | .lsp | .sr | .eir | .esr => none

/-- `rl` from a register of `w` bits; free bits are used where `w` is below 16 (R303). -/
def State.setLowFrom (s : State) (r : GReg) (w : Nat) (v : Word16) : State :=
  { s.setLow r (widened w (Config.freeUpper s.draws) v) with
    draws := s.draws + (if w < 16 then 1 else 0) }

/-- `rl = source` of the other registers; the source is not changed (R303, R304, R306, R307). -/
def movFromEffect (c : CtlReg) (r : GReg) (s : State) : State :=
  match c with
  | .stk => s.setLow r s.stackTop
  | .sp => s.setLowFrom r s.platform.spWidth s.sp
  | .lc => s.setLow r (s.flagged s.lc)
  | .lsr1 => s.setLow r s.loopTop.lsa
  | .lsr2 => s.setLow r s.loopTop.lea
  | .lsr3 => s.setLow r (s.flagged s.loopTop.lc)
  | .lsp => s.setLowFrom r s.platform.lspWidth s.lsp
  | .sr => s.setLow r s.sr
  | .eir => s.setLowFrom r s.platform.eirWidth s.eir
  | .esr => s.setLowFrom r s.platform.esrWidth s.esr

/-- A MOV of STK or SP in either direction bars RET and RETI from the next word (R431). -/
def stackMark : CtlReg → Marks
  | .stk | .sp => { stackMoved := true }
  | _ => {}

/-- MOV of a register outside the address unit, never under a condition (R301, R310). -/
def movCtl (d : MovDir) (c : CtlReg) (r : GReg) (s : State) : Res :=
  match d with
  | .toSpecial =>
    guardStop (movToStop c (partL (s.reg r)) s)
      (complete (stackMark c) 1 (movToEffect c (partL (s.reg r)) s))
  | .fromSpecial =>
    guardStop (movFromStop c s) (complete (stackMark c) 1 (movFromEffect c r s))

/-- MOV (R300). -/
def execMov (d : MovDir) (m : MovReg) (r : GReg) (s : State) : Res :=
  match m with
  | .addr a => movAddr d a r s
  | .ctl c => movCtl d c r s

/-- LDI (R315-R318). -/
def execLdi (dest : LdiDest) (imm : Word16) (s : State) : Res :=
  match dest with
  | .rl n => complete {} 1 (s.setLow n imm)
  | .addr a => complete (freshMark a) 1 (s.setAddrReg a imm)

end Sys2Proof.Machine
end

