-- ==== Sys2Proof/Machine/Control.lean ====
section
/-! DEFINITION. NOP, HALT, STOP, FINT and the condition (49_control.md). -/

namespace Sys2Proof.Machine

/-- NOP (R361). -/
def execNop (s : State) : Res := complete {} 1 s

/-- HALT: PC advances and halt mode begins (R362). -/
def execHalt (s : State) : Res :=
  guardStop (placeStop s) (advance {} 1 { s with mode := .halted })

/-- STOP: PC advances and stop mode begins; not on the µPD77016 (R363). -/
def execStop (s : State) : Res :=
  guardStop ((stopIf (!s.platform.member.hasStop) (.refusal .stopNotOnMember)).or (placeStop s))
    (advance {} 1 { s with mode := .stopped })

/-- FINT: every pending request is discarded (R364). -/
def execFint (s : State) : Res := complete {} 1 { s with pending := [] }

/-- Checks on what stands under a condition, made whether the condition holds or not (R151 phase 2). -/
def bodyPlaceStop (b : CondBody) (s : State) : Option Stop :=
  match b with
  | .mono _ _ _ | .mov _ _ _ => none
  | .jmp _ | .jreg _ => placeStop s
  | .call _ | .creg _ => condCallStop s
  | .ret => returnPlaceStop s
  | .reti => retiPlaceStop s

/-- What stands under a condition that holds: a taken branch costs 3 cycles (R321, R365). DIV with one
register as both operands is checked here, so a failed condition hides it: R152 gives a failed condition no
effect, R151 phase 2 with R435 would check before the condition (DESIGN CHOICE, unsafe, log 40). -/
def bodyRun (b : CondBody) (s : State) : Res :=
  match b with
  | .mono m op1 op2 =>
    guardStop (monoStop m op1 op2)
      (complete {} 1 (s.writeAlu op2 (monoOut m (s.reg op1) (s.reg op2) s.draws)))
  | .mov d a r => movAddr d a r s
  | .jmp rel => .next (s.goTo (s.relTarget rel) {} 3)
  | .jreg dp => .next (s.goTo (s.ptr dp) {} 3)
  | .call rel => callAction (s.relTarget rel) 3 s
  | .creg dp => callAction (s.ptr dp) 3 s
  | .ret => retAction 3 s
  | .reti => retiAction 3 s

/-- The checks on what stands under a condition EVER are those of the plain statement: only an
unconditional CALL or CREG may be followed by a return (R329). -/
def condPlaceStop (c : Cond) (b : CondBody) (s : State) : Option Stop :=
  match c, b with
  | .ever, .call _ | .ever, .creg _ => placeStop s
  | _, _ => bodyPlaceStop b s

/-- A statement with a condition: the test is on the register before the word; if it fails the word
only advances, in one cycle (R152, R365). -/
def execCond (c : Cond) (top : GReg) (b : CondBody) (s : State) : Res :=
  guardStop (condPlaceStop c b s)
    (if c.holds (s.reg top) then bodyRun b s else complete {} 1 s)

end Sys2Proof.Machine
end

