-- ==== Sys2Proof/Machine/HwLoop.lean ====
section
/-! DEFINITION. REP, LOOP and LPOP (48_hardware_loop.md). -/

namespace Sys2Proof.Machine

/-- A count of 0 or of 0x8000 and above (R341, R346). -/
def countStop (c : Word16) : Option Stop := stopIf (!countInRange c) (.fault .badCount)

/-- REP: RC ← count, RF ← 0; the next word is the repeat target (R341). -/
def execRep (c : Count) (s : State) : Res :=
  guardStop ((placeStop s).or (countStop (s.countOf c)))
    (advance {} 2 { s with rc := s.countOf c, rf := false })

/-- The loop end address of a LOOP word (R345). -/
def State.loopEndOf (s : State) (rle : Byte) : Word16 := s.pc + rle.zeroExtend 16

/-- Why LOOP cannot run: its place, a full loop stack (R346), its count (R346), or a last word shared
with the loop it is nested in (R349 b). -/
def loopStop (c : Count) (rle : Byte) (s : State) : Option Stop :=
  (placeStop s).or ((stopIf (decide (4 ≤ s.lsp.toNat)) (.fault .loopStackOverflow)).or
    ((countStop (s.countOf c)).or
      (stopIf (s.loopActive && s.loopEndOf rle == s.lea) (.fault .forbiddenNearLoopEnd))))

/-- LOOP: push LSA, LEA and LC; LSA ← PC + 1, LEA ← PC + RLE, LC ← count (R345). -/
def execLoop (c : Count) (rle : Byte) (s : State) : Res :=
  guardStop (loopStop c rle s)
    (advance { acceptHold := true } 2
      { s.pushLoop with lsa := s.pc + 1, lea := s.loopEndOf rle, lc := s.countOf c })

/-- LPOP: the four transfers of a loop exit, without a branch (R351). At the LEA that it restores it only
advances PC and ends no pass of that outer loop, as R351 writes; R158 tests LEA after the word's effects, and
the check of R349 sees only the inner LEA (DESIGN CHOICE, unsafe, log 41). -/
def execLpop (s : State) : Res :=
  guardStop ((placeStop s).or (stopIf s.loopPlace.isNone (.fault .loopStackUnderflow)))
    (advance {} 1 s.popLoop)

end Sys2Proof.Machine
end

