-- ==== Sys2Proof/Machine/LoadStore.lean ====
section
/-! DEFINITION. The load/store instructions (44_load_store.md). -/

namespace Sys2Proof.Machine

/-- LSPA: a word of the ALU NOP with parallel transfers (R244, R276). -/
def execLspa (p : Par) (s : State) : Res := transferWord p.toPair s

/-- LSSE: partial transfers (R277). -/
def execLsse (q : PartPair) (s : State) : Res := transferWord q s

/-- LSDA: one transfer at an address in the word; no pointer is read or changed (R280). -/
def execLsda (op : PartOp) (reg : GReg) (sp : Space) (addr : Word16) (s : State) : Res :=
  guardStop (accessStop s sp addr op) (complete {} 1 (accessEffect s sp addr op reg s))

/-- LSIM: one transfer at DPn, then DPn + imm (R265, R281). -/
def execLsim (op : PartOp) (reg : GReg) (dp : DReg) (imm : Word16) (s : State) : Res :=
  guardStop ((pointerStop s dp .plain).or (accessStop s (ptrSpace dp) (s.ptr dp) op))
    (complete {} 1
      ((accessEffect s (ptrSpace dp) (s.ptr dp) op reg s).setPtr dp (s.ptr dp + imm)))

end Sys2Proof.Machine
end

