-- ==== Sys2Proof/Machine/Dispatch.lean ====
section
/-! DEFINITION. The meaning of every instruction (R151): one arm per constructor. -/

namespace Sys2Proof.Machine

def exec (i : Instr) (s : State) : Host.Outcome State Fault Refusal :=
  match i with
  | .madd op1 op2 op3 p => Sys2Proof.Machine.execMadd op1 op2 op3 p s
  | .msub op1 op2 op3 p => Sys2Proof.Machine.execMsub op1 op2 op3 p s
  | .suma op1 op2 op3 p => Sys2Proof.Machine.execSuma op1 op2 op3 p s
  | .uuma op1 op2 op3 p => Sys2Proof.Machine.execUuma op1 op2 op3 p s
  | .mas1 op1 op2 op3 p => Sys2Proof.Machine.execMas1 op1 op2 op3 p s
  | .mas16 op1 op2 op3 p => Sys2Proof.Machine.execMas16 op1 op2 op3 p s
  | .mpy op1 op2 op3 p => Sys2Proof.Machine.execMpy op1 op2 op3 p s
  | .add op1 op2 op3 p => Sys2Proof.Machine.execAdd op1 op2 op3 p s
  | .iadd op1 op2 imm => Sys2Proof.Machine.execIadd op1 op2 imm s
  | .sub op1 op2 op3 p => Sys2Proof.Machine.execSub op1 op2 op3 p s
  | .isub op1 op2 imm => Sys2Proof.Machine.execIsub op1 op2 imm s
  | .sra op1 op2 op3 p => Sys2Proof.Machine.execSra op1 op2 op3 p s
  | .isra op1 op2 imm => Sys2Proof.Machine.execIsra op1 op2 imm s
  | .srl op1 op2 op3 p => Sys2Proof.Machine.execSrl op1 op2 op3 p s
  | .isrl op1 op2 imm => Sys2Proof.Machine.execIsrl op1 op2 imm s
  | .sll op1 op2 op3 p => Sys2Proof.Machine.execSll op1 op2 op3 p s
  | .isll op1 op2 imm => Sys2Proof.Machine.execIsll op1 op2 imm s
  | .and op1 op2 op3 p => Sys2Proof.Machine.execAnd op1 op2 op3 p s
  | .iand op1 op2 imm => Sys2Proof.Machine.execIand op1 op2 imm s
  | .or op1 op2 op3 p => Sys2Proof.Machine.execOr op1 op2 op3 p s
  | .ior op1 op2 imm => Sys2Proof.Machine.execIor op1 op2 imm s
  | .xor op1 op2 op3 p => Sys2Proof.Machine.execXor op1 op2 op3 p s
  | .ixor op1 op2 imm => Sys2Proof.Machine.execIxor op1 op2 imm s
  | .lt op1 op2 op3 p => Sys2Proof.Machine.execLt op1 op2 op3 p s
  | .clr op p => Sys2Proof.Machine.execClr op p s
  | .inc op1 op2 p => Sys2Proof.Machine.execInc op1 op2 p s
  | .dec op1 op2 p => Sys2Proof.Machine.execDec op1 op2 p s
  | .abs op1 op2 p => Sys2Proof.Machine.execAbs op1 op2 p s
  | .not op1 op2 p => Sys2Proof.Machine.execNot op1 op2 p s
  | .neg op1 op2 p => Sys2Proof.Machine.execNeg op1 op2 p s
  | .clip op1 op2 p => Sys2Proof.Machine.execClip op1 op2 p s
  | .rnd op1 op2 p => Sys2Proof.Machine.execRnd op1 op2 p s
  | .exp op1 op2 p => Sys2Proof.Machine.execExp op1 op2 p s
  | .put op1 op2 p => Sys2Proof.Machine.execPut op1 op2 p s
  | .aca op1 op2 p => Sys2Proof.Machine.execAca op1 op2 p s
  | .acs op1 op2 p => Sys2Proof.Machine.execAcs op1 op2 p s
  | .div op1 op2 p => Sys2Proof.Machine.execDiv op1 op2 p s
  | .lspa p => Sys2Proof.Machine.execLspa p s
  | .lsse q => Sys2Proof.Machine.execLsse q s
  | .lsda op reg space addr => Sys2Proof.Machine.execLsda op reg space addr s
  | .lsim op reg dp imm => Sys2Proof.Machine.execLsim op reg dp imm s
  | .mov d m r => Sys2Proof.Machine.execMov d m r s
  | .ldi dest imm => Sys2Proof.Machine.execLdi dest imm s
  | .jmp rel => Sys2Proof.Machine.execJmp rel s
  | .jreg dp => Sys2Proof.Machine.execJreg dp s
  | .call rel => Sys2Proof.Machine.execCall rel s
  | .creg dp => Sys2Proof.Machine.execCreg dp s
  | .ret => Sys2Proof.Machine.execRet s
  | .reti => Sys2Proof.Machine.execReti s
  | .rep c => Sys2Proof.Machine.execRep c s
  | .loop c rle => Sys2Proof.Machine.execLoop c rle s
  | .lpop => Sys2Proof.Machine.execLpop s
  | .nop => Sys2Proof.Machine.execNop s
  | .halt => Sys2Proof.Machine.execHalt s
  | .stop => Sys2Proof.Machine.execStop s
  | .fint => Sys2Proof.Machine.execFint s
  | .cond c top b => Sys2Proof.Machine.execCond c top b s

end Sys2Proof.Machine
end

