-- ==== Sys2Proof/Machine/Step.lean ====
section
/-! DEFINITION. One step of the machine (R151, R159): in halt mode or between two words an interrupt
may be taken, else the word at PC is fetched, decoded and executed. -/

namespace Sys2Proof.Machine

/-- Fetch, decode and execute the word at PC (R151). -/
def runWord (s : State) : Res :=
  match fetchAt s s.pc with
  | .error (.fault f) => .fault f
  | .error (.refusal r) => .refused r
  | .ok i => exec i s

/-- One step while running: where R390 allows it and an unmasked request is pending, a free bit
decides whether it is accepted now (U33, log 20). -/
def stepRunning (s : State) : Res :=
  if s.acceptAllowed then
    match s.readySource with
    | none => runWord s
    | some q =>
      if Config.acceptNow s.draws then acceptInterrupt q { s with draws := s.draws + 1 }
      else runWord { s with draws := s.draws + 1 }
  else runWord s

/-- One step in halt mode: an unmasked request ends it, else the state is kept (R362, R398). -/
def stepHalted (s : State) : Res :=
  match s.readySource with
  | none => .next s
  | some q => acceptInterrupt q s

/-- One step of the machine. STOP ends a run: a step in stop mode has no result (R363, log 24). -/
def step (s : State) : Host.Outcome State Fault Refusal :=
  match s.mode with
  | .running => stepRunning s
  | .halted => stepHalted s
  | .stopped => .refused .inStopMode

/-- The state with an instruction word placed where the next step fetches it. The step must run (mode),
the address must hold code, and no pending request may be taken first; all else stays (log 31). -/
def State.withFetchWord (s : State) (nbits w : Nat) : State :=
  { s with
    imem := s.imem.write32 s.pc (BitVec.ofNat 32 (w % 2 ^ nbits))
    mode := .running
    marks := { s.marks with acceptHold := s.marks.acceptHold || !s.pending.isEmpty }
    platform :=
      if s.codeAt s.pc then s.platform
      else { s.platform with codeMap := (s.pc.toNat, 1) :: s.platform.codeMap } }

end Sys2Proof.Machine
end

