-- ==== Sys2Proof/Safety.lean ====
section
/-! DEFINITION. The terms in which claims about the machine are stated: the invariant, when a word can
complete, and what a completed word did. Each is written from the rules of spec/, over reads of the
state before (`s`) and after (`t`) a word. -/

namespace Sys2Proof.Machine

/-! ## The invariant -/

/-- The widths and bit places of a platform fit the bounds the spec gives (R7, R30, R31, R36, R38, R40), and
its field values are injective (R122). -/
def platformSound (p : Platform) : Prop :=
  5 ≤ p.spWidth ∧ p.spWidth ≤ 16 ∧ 3 ≤ p.lspWidth ∧ p.lspWidth ≤ 16 ∧ p.eirWidth ≤ 16 ∧
    p.esrWidth < 16 ∧ p.esrOvBit.val < p.esrWidth ∧ p.codes.sound = true

/-- What every step keeps: the memories are in canonical form and inside their 64 K words, SP and LSP
stay legal (R36, R38), ESR and EIR within their widths (R40), a repeat in progress has a legal count
(R341), a stopped or halted machine repeats nothing (R343), requests are a set (R45). -/
structure State.Inv (s : State) : Prop where
  platform : platformSound s.platform
  imem_wf : s.imem.wf = true
  xmem_wf : s.xmem.wf = true
  ymem_wf : s.ymem.wf = true
  imem_below : s.imem.below (4 * 65536) = true
  xmem_below : s.xmem.below (2 * 65536) = true
  ymem_below : s.ymem.below (2 * 65536) = true
  sp_legal : s.sp.toNat ≤ 15
  lsp_legal : s.lsp.toNat ≤ 4
  esr_width : s.esr.toNat < 2 ^ s.platform.esrWidth
  eir_width : s.eir.toNat < 2 ^ s.platform.eirWidth
  repeat_count : s.rf = false → 1 ≤ s.rc.toNat ∧ s.rc.toNat ≤ 0x7FFF
  repeat_runs : s.mode = .running ∨ s.rf = true
  pending_set : s.pending.Nodup

/-! ## When a word can complete -/

/-- A next PC exists for a word that is no taken branch: executions of a repeat target or passes of a
loop are left, or PC is not 0xFFFF and a loop that ends has its entry (R24, R158, R342, R347). -/
def CanRetire (s : State) : Prop :=
  (s.rf = false ∧ 1 < s.rc.toNat) ∨
    (s.lsp ≠ 0 ∧ s.pc = s.lea ∧ 1 < s.lc.toNat % 0x8000) ∨
    (s.pc ≠ 0xFFFF ∧ (s.lsp ≠ 0 → s.pc = s.lea → s.lsp.toNat ≤ 4))

/-- The word is one of the last three of an active loop: LEA is its address or one or two above, modulo
2^16 (R349, log 33). -/
def InLastThree (s : State) : Prop :=
  s.lsp ≠ 0 ∧ (s.lea - s.pc).toNat ≤ 2

/-- A branch, REP, LOOP, LPOP, HALT or STOP may stand here (R343, R349). -/
def PlaceFree (s : State) : Prop := s.rf = true ∧ ¬ InLastThree s

/-- DPn may serve as a pointer with this modification (R430, R266). -/
def PointerReady (s : State) (n : DReg) (m : Modi) : Prop :=
  s.marks.dpFresh ≠ some n ∧
    (m = .modulo → 1 ≤ (s.moduloReg n).toNat ∧ (s.moduloReg n).toNat ≤ 0x7FFF)

/-- The access is to internal memory, a store not to ROM, a load of a word that was written
(R78, R55). -/
def AccessReady (s : State) (sp : Space) (a : Word16) : PartOp → Prop
  | .store _ => s.region sp a = .iram
  | .load _ => (s.region sp a = .iram ∨ s.region sp a = .irom) ∧ ((s.data sp).read16 a).isSome = true

/-- A side of a word, if there is one, can be performed. -/
def SideReady (s : State) (sp : Space) : Option PartSide → Prop
  | none => True
  | some a => PointerReady s (sidePtr sp a.dp) a.modi ∧ AccessReady s sp (s.sideAddress sp a) a.op

/-- The X and Y accesses of a word fall in a forbidden pair of regions (R279). -/
def RegionsClash (s : State) (q : PartPair) : Prop :=
  ∃ a b, q.x = some a ∧ q.y = some b ∧
    s.platform.member.forbidsPair (s.region .x (s.sideAddress .x a)) (s.region .y (s.sideAddress .y b))
      = true

/-- The transfers of a word can be performed. -/
def PairReady (s : State) (q : PartPair) : Prop :=
  SideReady s .x q.x ∧ SideReady s .y q.y ∧ ¬ RegionsClash s q

/-! ## What a completed word did -/

/-- The side of a word in a space. -/
def pairSide (q : PartPair) : Space → Option PartSide
  | .x => q.x
  | .y => q.y

/-- A register value after the load, if any, that one side makes into register `k` (R268-R273). -/
def loadedInto (s : State) (sp : Space) (o : Option PartSide) (k : GReg) (v : Word40) : Word40 :=
  match o with
  | none => v
  | some a =>
    match a.op with
    | .store _ => v
    | .load part => if a.reg = k then loadedPart part v (s.loadWord sp (s.sideAddress sp a)) else v

/-- Register `k` after the loads of a word. -/
def loadedReg (s : State) (q : PartPair) (k : GReg) : Word40 :=
  loadedInto s .y q.y k (loadedInto s .x q.x k (s.reg k))

/-- A data address that a word stores to. -/
def StoresTo (s : State) (q : PartPair) (sp : Space) (a : Word16) : Prop :=
  ∃ d part, pairSide q sp = some d ∧ d.op = .store part ∧ a = s.sideAddress sp d

/-- The pointers and the data memory after the transfers of a word: each used pointer is modified
(R157, R262), each stored word is the part of the register before the word (R272, R274, R275), and
every other pointer and byte is unchanged. -/
def TransfersDone (q : PartPair) (s t : State) : Prop :=
  (∀ sp d, pairSide q sp = some d →
    t.ptr (sidePtr sp d.dp) = s.nextPointer (sidePtr sp d.dp) d.modi) ∧
  (∀ n, (∀ sp d, pairSide q sp = some d → sidePtr sp d.dp ≠ n) → t.ptr n = s.ptr n) ∧
  (∀ sp d part, pairSide q sp = some d → d.op = .store part →
    (t.data sp).read16 (s.sideAddress sp d) = some (storedPart part (s.reg d.reg))) ∧
  (∀ sp b, (∀ a, StoresTo s q sp a → b ≠ 2 * a.toNat ∧ b ≠ 2 * a.toNat + 1) →
    (t.data sp).read b = (s.data sp).read b)

/-- LC, LSA, LEA and LSP are unchanged. -/
def LoopKept (s t : State) : Prop :=
  t.lc = s.lc ∧ t.lsa = s.lsa ∧ t.lea = s.lea ∧ t.lsp = s.lsp

/-- The end of a one-cycle word that is no taken branch (R158, R342, R347): PC, the repeat state, the
loop registers, the marks and the cycle count. -/
def Retires (m : Marks) (s t : State) : Prop :=
  t.cycles = s.cycles + 1 ∧
  if s.rf = false ∧ 1 < s.rc.toNat then
    t.pc = s.pc ∧ t.rc = s.rc - 1 ∧ t.rf = false ∧ LoopKept s t ∧ t.marks = m
  else
    t.rc = s.rc ∧ t.rf = true ∧
    if s.lsp ≠ 0 ∧ s.pc = s.lea then
      t.marks = { m with acceptHold := true } ∧
      if 1 < s.lc.toNat % 0x8000 then
        t.pc = s.lsa ∧ t.lc = s.lc - 1 ∧ t.lsa = s.lsa ∧ t.lea = s.lea ∧ t.lsp = s.lsp
      else
        t.pc = s.pc + 1 ∧ t.lc = s.loopTop.lc ∧ t.lsa = s.loopTop.lsa ∧ t.lea = s.loopTop.lea ∧
          t.lsp = s.lsp - 1
    else t.pc = s.pc + 1 ∧ LoopKept s t ∧ t.marks = m

/-- OV is 1 if it was or if the word overflowed, every other bit of ESR is unchanged (R30). -/
def EsrAfter (s t : State) (overflow : Bool) : Prop :=
  t.ov = (s.ov || overflow) ∧
    ∀ k, k ≠ s.platform.esrOvBit.val → t.esr.getLsbD k = s.esr.getLsbD k

/-- What no operation and no transfer changes: the index and modulo registers, both stacks with SP, SR,
EIR, the run mode, the interrupt state, instruction memory and the platform. -/
def OthersKept (s t : State) : Prop :=
  t.dn = s.dn ∧ t.dmx = s.dmx ∧ t.dmy = s.dmy ∧ t.sp = s.sp ∧ t.stk = s.stk ∧ t.lstk = s.lstk ∧
    t.sr = s.sr ∧ t.eir = s.eir ∧ t.mode = s.mode ∧ t.pending = s.pending ∧
    t.intDepth = s.intDepth ∧ t.imem = s.imem ∧ t.platform = s.platform

/-- The general registers, the address registers, ESR, the draws and the data memories are unchanged. -/
def DataKept (s t : State) : Prop :=
  t.r = s.r ∧ t.dp = s.dp ∧ t.esr = s.esr ∧ t.draws = s.draws ∧ t.xmem = s.xmem ∧ t.ymem = s.ymem

/-- The word's own effect made `s` into `u`, then the word ended as R158 says: PC, the repeat state, the
loop registers, the marks and the cycles are those of `Retires`, every other field is that of `u`. -/
def EndsWord (m : Marks) (u t : State) : Prop := Retires m u t ∧ DataKept u t ∧ OthersKept u t

/-- The word `i` completes in `s`: its effect is `u`, and it ends with the marks `m`. -/
def Completes (i : Instr) (s : State) (m : Marks) (u : State) : Prop :=
  ∃ t, exec i s = .next t ∧ EndsWord m u t

/-- In every state where its transfers can be performed and a next PC exists, the word `i` with
transfers `p` completes: `rd` takes a value, OV is set where the operation overflows, the loads and
stores and pointer modifications happen, PC goes on, and all else is unchanged (R151, R153); `drawn`
says where the value or OV is a free value. -/
def AluWordDrawing (i : Instr) (rd : GReg) (p : Par) (value : State → Word40)
    (overflow drawn : State → Bool) : Prop :=
  p.fits rd = true → ∀ s, PairReady s p.toPair → CanRetire s →
    ∃ t, exec i s = .next t ∧ t.reg rd = value s ∧
      (∀ k, k ≠ rd → t.reg k = loadedReg s p.toPair k) ∧
      EsrAfter s t (overflow s) ∧ t.draws = s.draws + (if drawn s then 1 else 0) ∧
      TransfersDone p.toPair s t ∧ OthersKept s t ∧ Retires {} s t

/-- `AluWordDrawing` of an operation that uses no free value. -/
def AluWord (i : Instr) (rd : GReg) (p : Par) (value : State → Word40) (overflow : State → Bool) : Prop :=
  AluWordDrawing i rd p value overflow (fun _ => false)

/-- In every state where a next PC exists, the word `i` completes: one register takes a value, OV is
set where the operation overflows, and all else is unchanged but PC and its bookkeeping. -/
def RegisterWord (i : Instr) (rd : GReg) (value : State → Word40) (overflow : State → Bool) : Prop :=
  ∀ s, CanRetire s →
    ∃ t, exec i s = .next t ∧ t.reg rd = value s ∧ (∀ k, k ≠ rd → t.reg k = s.reg k) ∧
      EsrAfter s t (overflow s) ∧ t.draws = s.draws ∧ t.dp = s.dp ∧ t.xmem = s.xmem ∧
      t.ymem = s.ymem ∧ OthersKept s t ∧ Retires {} s t

/-- One access of LSDA or LSIM: a load writes the part of the register (R268-R273), a store writes the
word and no other byte (R272, R274, R275). -/
def AccessDone (s t : State) (sp : Space) (a : Word16) (op : PartOp) (k : GReg) : Prop :=
  match op with
  | .load part =>
    t.reg k = loadedPart part (s.reg k) (s.loadWord sp a) ∧ (∀ j, j ≠ k → t.reg j = s.reg j) ∧
      t.xmem = s.xmem ∧ t.ymem = s.ymem
  | .store part =>
    t.r = s.r ∧ (t.data sp).read16 a = some (storedPart part (s.reg k)) ∧
      ∀ r b, ¬ (r = sp ∧ (b = 2 * a.toNat ∨ b = 2 * a.toNat + 1)) → (t.data r).read b = (s.data r).read b

/-! ## Numbers in statements -/

/-- A general register as a 40-bit two's complement integer, `signed_40(R[k])` (R9). -/
def regInt (s : State) (k : GReg) : Int := (s.reg k).toInt

/-- The H part as a 16-bit two's complement integer, `signed_16(R[k].H)` (R9, R21). -/
def highInt (s : State) (k : GReg) : Int := (partH (s.reg k)).toInt

/-- The L part as an unsigned integer, `zext(R[k].L)` (R9, R21). -/
def lowNat (s : State) (k : GReg) : Nat := (partL (s.reg k)).toNat

/-- An exact integer lies outside the 40-bit two's complement range (R9). -/
def outside40 (n : Int) : Bool := decide (n < -2 ^ 39) || decide (2 ^ 39 - 1 < n)

/-- An exact integer lies outside the 32-bit two's complement range (R237, R239). -/
def outside32 (n : Int) : Bool := decide (n < -2 ^ 31) || decide (2 ^ 31 - 1 < n)

/-- The product term of UUMA for a reading `wide` of the open case: `wide P` is true where 2P is taken
exactly (R174). -/
def uumaTerm (wide : Nat → Bool) (P : Nat) : Int :=
  if P < 2 ^ 31 then 2 * (P : Int)
  else if wide P then 2 * (P : Int)
  else ((2 * P % 2 ^ 32 : Nat) : Int)

/-- A shift amount in a register: bits 5-0 (R209). -/
def amountIn (s : State) (k : GReg) : Nat := (s.reg k).toNat % 64

/-- The partial remainder of a DIV step before its shift (R243): dividend minus divisor where the signs
agree, else plus, in 40 bits. -/
def divRemainder (divisor dividend : Word40) : Word40 :=
  if (decide (dividend.toInt < 0)) = (decide (divisor.toInt < 0)) then
    BitVec.ofInt 40 (dividend.toInt - divisor.toInt)
  else BitVec.ofInt 40 (dividend.toInt + divisor.toInt)

/-- The register value after `rl` took a word: E and H are kept (R303, R316). -/
def withLow (v : Word40) (l : Word16) : Word40 := v.extractLsb' 16 24 ++ l

/-! ## Families of instructions -/

/-- The parallel or partial transfers of a word that may have some (R120). -/
def transfersOf : Instr → Option PartPair
  | .madd _ _ _ p | .msub _ _ _ p | .suma _ _ _ p | .uuma _ _ _ p | .mas1 _ _ _ p | .mas16 _ _ _ p
  | .mpy _ _ _ p | .add _ _ _ p | .sub _ _ _ p | .sra _ _ _ p | .srl _ _ _ p | .sll _ _ _ p
  | .and _ _ _ p | .or _ _ _ p | .xor _ _ _ p | .lt _ _ _ p => some p.toPair
  | .clr _ p => some p.toPair
  | .inc _ _ p | .dec _ _ p | .abs _ _ p | .not _ _ p | .neg _ _ p | .clip _ _ p | .rnd _ _ p
  | .exp _ _ p | .put _ _ p | .aca _ _ p | .acs _ _ p | .div _ _ p => some p.toPair
  | .lspa p => some p.toPair
  | .lsse q => some q
  | _ => none

/-- DIV with one register as divisor and dividend, with or without a condition (R243). -/
def sameDivOperands : Instr → Bool
  | .div a b _ => a == b
  | .cond _ _ (.mono .div a b) => a == b
  | _ => false

/-- The word stores to data memory. -/
def mayStore : Instr → Bool
  | .lsda (.store _) _ _ _ => true
  | .lsim (.store _) _ _ _ => true
  | i =>
    match transfersOf i with
    | none => false
    | some q =>
      q.x.any (fun d => match d.op with | .store _ => true | .load _ => false) ||
        q.y.any (fun d => match d.op with | .store _ => true | .load _ => false)

/-- A branch, with or without a condition. -/
def isBranch : Instr → Bool
  | .jmp _ | .jreg _ | .call _ | .creg _ | .ret | .reti => true
  | .cond _ _ b =>
    match b with
    | .jmp _ | .jreg _ | .call _ | .creg _ | .ret | .reti => true
    | _ => false
  | _ => false

/-- The words that may be neither a repeat target nor one of the last three words of a loop (R343,
R349). -/
def isBarredNearEnd : Instr → Bool
  | .rep _ | .loop _ _ | .lpop | .halt | .stop => true
  | i => isBranch i

/-- The word writes this address-unit register by MOV or LDI, with or without a condition
(R300, R315). -/
def setsAddrReg : Instr → AddrReg → Bool
  | .mov .toSpecial (.addr a) _, b => a == b
  | .ldi (.addr a) _, b => a == b
  | .cond _ _ (.mov .toSpecial a _), b => a == b
  | _, _ => false

/-- The word is `ESR = rl` (R307). -/
def setsEsr : Instr → Bool
  | .mov .toSpecial (.ctl .esr) _ => true
  | _ => false

/-- The instructions that can set OV (R30), with DIV, of which the manual leaves it open (R243). -/
def canSetOv : Instr → Bool
  | .madd .. | .msub .. | .suma .. | .uuma .. | .add .. | .iadd .. | .sub .. | .isub .. | .inc ..
  | .dec .. | .abs .. | .neg .. | .aca .. | .acs .. | .div .. => true
  | .cond _ _ (.mono m _ _) =>
    match m with
    | .inc | .dec | .abs | .neg | .aca | .acs | .div => true
    | _ => false
  | _ => false

/-! ## Words that are no statement -/

/-- A bit that its format leaves unused, or a marker bit of REP and LOOP, is 1 (R104, R105, R107, R108,
R110-R116). -/
def SetsUnusedBit (w : Word32) : Prop :=
  w.extractLsb' 28 4 = 0b0110 ∧ w.extractLsb' 7 11 ≠ 0 ∨
  w.extractLsb' 28 4 = 0b0101 ∧ w.extractLsb' 16 2 ≠ 0 ∨
  w.extractLsb' 26 6 = 0b010011 ∧ w.extractLsb' 18 2 ≠ 0 ∨
  w.extractLsb' 26 6 = 0b010010 ∧ w.extractLsb' 17 2 ≠ 0 ∨
  w.extractLsb' 26 6 = 0b001111 ∧ w.extractLsb' 22 1 = 0 ∧ w.extractLsb' 7 9 ≠ 0 ∨
  w.extractLsb' 26 6 = 0b001111 ∧ w.extractLsb' 22 1 = 1 ∧ w.extractLsb' 0 16 ≠ 0 ∨
  w.extractLsb' 26 6 = 0b001110 ∧ w.extractLsb' 16 1 = 0 ∧ w.extractLsb' 22 4 ≠ 0 ∨
  w.extractLsb' 26 6 = 0b001110 ∧ w.extractLsb' 16 1 = 1 ∧ w.extractLsb' 17 6 ≠ 0 ∨
  w.extractLsb' 26 6 = 0b001011 ∧ w.extractLsb' 23 2 ≠ 0 ∨
  w.extractLsb' 26 6 = 0b001010 ∧ (w.extractLsb' 20 5 ≠ 0 ∨ w.extractLsb' 7 10 ≠ 0) ∨
  w.extractLsb' 26 6 = 0b001001 ∧ w.extractLsb' 7 18 ≠ 0 ∨
  w.extractLsb' 26 6 = 0b000111 ∧ w.extractLsb' 15 11 ≠ 0 ∨
  w.extractLsb' 26 6 = 0b000110 ∧ w.extractLsb' 3 23 ≠ 0 ∨
  w.extractLsb' 26 6 = 0b000101 ∧ (w.extractLsb' 24 2 ≠ 0 ∨ w.extractLsb' 15 1 ≠ 0) ∨
  w.extractLsb' 26 6 = 0b000100 ∧ (w.extractLsb' 24 2 ≠ 0 ∨ w.extractLsb' 3 13 ≠ 0)

/-- The number in bits `lo + len - 1` to `lo` stands in no place of a table of field values. -/
def Unassigned (t : List Nat) (w : Word32) (lo len : Nat) : Prop := (w.extractLsb' lo len).toNat ∉ t

/-- suf above d is none of the eight listed pairs (R107, R123). -/
def UnassignedPair (c : Codes) (w : Word32) (suf d : Nat) : Prop :=
  2 * (w.extractLsb' suf 3).toNat + (w.extractLsb' d 1).toNat ∉ c.suf

/-- Rows 1 to 4: an unassigned opcode, modix or modiy, or cond, or the ALU NOP under a condition (R366). -/
def UnassignedInOperation (c : Codes) (w : Word32) : Prop :=
  w.extractLsb' 31 1 = 1 ∧
    (Unassigned c.op3 w 24 4 ∨ Unassigned c.modi w 11 3 ∨ Unassigned c.modi w 3 3) ∨
  w.extractLsb' 28 4 = 0b0111 ∧
    (Unassigned c.op2 w 24 4 ∨ Unassigned c.modi w 11 3 ∨ Unassigned c.modi w 3 3) ∨
  w.extractLsb' 28 4 = 0b0110 ∧
    (Unassigned c.op2 w 24 4 ∨ c.op2.head? = some (w.extractLsb' 24 4).toNat ∨ Unassigned c.cond w 3 4) ∨
  w.extractLsb' 28 4 = 0b0101 ∧ Unassigned c.opImm w 24 4

/-- Rows 5 to 12: an unassigned modix or modiy, suffix pair, register code, or cond. -/
def UnassignedInTransfer (c : Codes) (w : Word32) : Prop :=
  w.extractLsb' 26 6 = 0b010011 ∧
    (Unassigned c.modi w 11 3 ∨ Unassigned c.modi w 3 3 ∨ UnassignedPair c w 23 17 ∨
      UnassignedPair c w 20 16) ∨
  (w.extractLsb' 26 6 = 0b010010 ∨ w.extractLsb' 26 6 = 0b010001) ∧ UnassignedPair c w 20 16 ∨
  w.extractLsb' 26 6 = 0b001111 ∧ w.extractLsb' 22 1 = 0 ∧
    (Unassigned c.addrReg w 17 5 ∨ Unassigned c.cond w 3 4) ∨
  w.extractLsb' 26 6 = 0b001111 ∧ w.extractLsb' 22 1 = 1 ∧ Unassigned c.ctlReg w 17 5 ∨
  w.extractLsb' 26 6 = 0b001110 ∧ w.extractLsb' 16 1 = 0 ∧ Unassigned c.addrReg w 17 5

/-- Rows 14 to 16 and 21: an unassigned cond or CPU-control selector. -/
def UnassignedInControl (c : Codes) (w : Word32) : Prop :=
  (w.extractLsb' 26 6 = 0b001011 ∨ w.extractLsb' 26 6 = 0b001010 ∨ w.extractLsb' 26 6 = 0b001001) ∧
    Unassigned c.cond w 3 4 ∨
  w.extractLsb' 28 4 = 0b0000 ∧ Unassigned c.ctrl w 0 28

/-- A field that selects a name holds a value that no name has (R123). -/
def HoldsUnassignedValue (c : Codes) (w : Word32) : Prop :=
  UnassignedInOperation c w ∨ UnassignedInTransfer c w ∨ UnassignedInControl c w

/-- A bit of a register that a partial load writes (R268-R273). -/
def WritesBit : LoadPart → Nat → Prop
  | .rl, k => k < 16
  | .rh, k => 16 ≤ k ∧ k < 32
  | .re, k => 32 ≤ k ∧ k < 40
  | .reh, k => 16 ≤ k ∧ k < 40
  | .ro, k => k < 40

/-- A bit of a register that a partial store reads (R272, R274, R275). -/
def ReadsBit : StorePart → Nat → Prop
  | .rl, k => k < 16
  | .rh, k => 16 ≤ k ∧ k < 32
  | .re, k => 32 ≤ k ∧ k < 40

/-- Two LSPA sides of one word name one register, and one of them loads it: two loads (R155 a), or a load
and a store (R156 b). -/
def SidesOverlap (p : Par) : Prop :=
  ∃ a b, p.x = some a ∧ p.y = some b ∧ a.reg = b.reg ∧ (a.dir = .load ∨ b.dir = .load)

/-- A side of the word names the destination of its operation: a load into it (R155 b), or a store from
it (R156 a). -/
def DestinationOverlap (rd : GReg) (p : Par) : Prop := ∃ a, (p.x = some a ∨ p.y = some a) ∧ a.reg = rd

/-- Two LSSE sides of one word name one register: two loads that are none of the pairs of R278 (R155 c),
or a load and a store that share a bit (R156 b). -/
def PartsOverlap (q : PartPair) : Prop :=
  ∃ a b, q.x = some a ∧ q.y = some b ∧ a.reg = b.reg ∧
    ((∃ m n, a.op = .load m ∧ b.op = .load n ∧
        (m, n) ∉ [(LoadPart.reh, LoadPart.rl), (.rl, .reh), (.re, .rh), (.rh, .re), (.re, .rl), (.rl, .re),
          (.rh, .rl), (.rl, .rh)]) ∨
      ∃ m n, (a.op = .load m ∧ b.op = .store n ∨ a.op = .store n ∧ b.op = .load m) ∧
        ∃ k, WritesBit m k ∧ ReadsBit n k)

/-- The destination and the transfers of a word of one operation (R120). -/
def operationOf : Instr → Option (GReg × Par)
  | .madd _ _ d p | .msub _ _ d p | .suma _ _ d p | .uuma _ _ d p | .mas1 _ _ d p | .mas16 _ _ d p
  | .mpy _ _ d p | .add _ _ d p | .sub _ _ d p | .sra _ _ d p | .srl _ _ d p | .sll _ _ d p
  | .and _ _ d p | .or _ _ d p | .xor _ _ d p | .lt _ _ d p => some (d, p)
  | .clr d p => some (d, p)
  | .inc _ d p | .dec _ d p | .abs _ d p | .not _ d p | .neg _ d p | .clip _ d p | .rnd _ d p
  | .exp _ d p | .put _ d p | .aca _ d p | .acs _ d p | .div _ d p => some (d, p)
  | _ => none

/-- A register overlap that the manual forbids or the spec refuses (R155, R156, R278). -/
def OverlapRefused (i : Instr) : Prop :=
  (∃ d p, operationOf i = some (d, p) ∧ (SidesOverlap p ∨ DestinationOverlap d p)) ∨
    (∃ p, i = .lspa p ∧ SidesOverlap p) ∨ ∃ q, i = .lsse q ∧ PartsOverlap q

/-- A term of `Instr` that is the form of no statement: a transfer word without a transfer (R150), LC as a
destination (R301), an immediate count of 0 or a body below two words (R119), CLR with two registers
(R121, log 11), a MOV or a branch that carries EVER as a condition (R150). -/
def FormOfNoStatement : Instr → Prop
  | .lspa p => p.x = none ∧ p.y = none
  | .lsse q => q.x = none ∧ q.y = none
  | .mov .toSpecial (.ctl .lc) _ => True
  | .rep (.imm n) => n = 0
  | .loop (.imm n) rle => n = 0 ∨ rle.toNat < 2
  | .loop (.reg _) rle => rle.toNat < 2
  | .cond _ _ (.mono m a b) => m = .clr ∧ a ≠ b
  | .cond k _ _ => k = .ever
  | _ => False

end Sys2Proof.Machine
end

