-- ==== Sys2Proof/Certificates/Slice0/Obligations.lean ====
section
/-! DEFINITION. The statements for the provers, each from the numbered rules of spec/. A clause that
rests on a choice of the model names its log entry. -/

open Sys2Proof Sys2Proof.Machine

/-! ## Encoding -/

/-- Decoding the word of any well-formed statement gives the statement back: no operand of any format
of R101-R118 is dropped, whatever injective values the lost tables hold (R122). The positions of rows 4, 6,
7, 9, 11-13 and 17-20, which the spec counts or calls probable, are the model's reading (log 7). -/
def Obligations.DecodeInvertsEncode : Prop :=
  ∀ (c : Codes) (i : Instr), c.sound = true → i.wellFormed = true →
    decode c (bytesOfWord (encode c i)) = .ok i

/-- Words that are no statement are refused (R101, R123, R366, the spec's decision D24), whatever the lost
tables hold: the three unassigned leading patterns, a word of any format with an unused bit set, a field
with an unassigned value, and CLR with two registers (log 11). The marker bit of REP and LOOP counts as
unused, and a CPU-control word is one value of 28 bits (log 5). For rows 4, 6, 7, 9, 11-13 and 17-20 the
clauses rest on positions that the spec counts or calls probable (log 7, DEDUCED). -/
def Obligations.WordsOutsideTheFormatsRefused : Prop :=
  ∀ (c : Codes) (w : Word32),
    (w.extractLsb' 26 6 = 0b010000 ∨ w.extractLsb' 27 5 = 0b00110 ∨ w.extractLsb' 26 6 = 0b001000 →
      decodeWord c w = .error .leadingBits) ∧
    (SetsUnusedBit w → decodeWord c w = .error .unusedBit) ∧
    (HoldsUnassignedValue c w → ∃ e, decodeWord c w = .error e) ∧
    (c.sound = true → w.extractLsb' 29 3 = 0b011 → (w.extractLsb' 24 4).toNat = codeAt c.op2 1 →
      w.extractLsb' 21 3 ≠ w.extractLsb' 18 3 → ∃ e, decodeWord c w = .error e)

/-- Words written out from the formats of R101-R118 decode to their statements: one at least per category
of R101. The opcode, register-code, suffix, modification, condition and selector values in them are the
model's (log 5, log 6), and the words of rows 4, 6, 7, 9, 11-13 and 17-20 rest on positions that the spec
counts or calls probable (log 7, DEDUCED). -/
def Obligations.WordsDecodeToTheirStatements : Prop :=
  decodeWord Codes.listing 0b1_001_0000_010_000_1_1_00_010_001_00_010_010#32
      = .ok (.madd 1 2 0 ⟨some ⟨.load, 0, .inc, 1⟩, some ⟨.load, 0, .inc, 2⟩⟩) ∧
    decodeWord Codes.listing 0b1_101_0111_110_111_0_0_11_110_101_00_000_000#32
      = .ok (.add 5 6 7 ⟨some ⟨.store, 3, .bitRev, 5⟩, none⟩) ∧
    decodeWord Codes.listing 0b0111_0010_001_001_0_0_00_000_000_00_000_000#32
      = .ok (.inc 1 1 ⟨none, none⟩) ∧
    decodeWord Codes.listing 0b0111_0000_000_000_0_1_00_000_000_10_100_110#32
      = .ok (.lspa ⟨none, some ⟨.load, 2, .addDn, 6⟩⟩) ∧
    decodeWord Codes.listing 0b0110_0010_000_000_00000000000_0101_001#32
      = .ok (.cond .ge0 1 (.mono .inc 0 0)) ∧
    decodeWord Codes.listing 0b0101_0000_000_001_00_0000000000010000#32
      = .ok (.iadd 0 1 0x10) ∧
    decodeWord Codes.listing 0b010011_011_001_00_1_0_01_010_011_10_011_101#32
      = .ok (.lsse ⟨some ⟨.load .reh, 1, .inc, 3⟩, some ⟨.store .rh, 2, .dec, 5⟩⟩) ∧
    decodeWord Codes.listing 0b010010_000_001_0_00_1_0001001000110100#32
      = .ok (.lsda (.load .rh) 0 .x 0x1234) ∧
    decodeWord Codes.listing 0b010001_101_010_110_0_1111111111111111#32
      = .ok (.lsim (.store .re) 5 6 0xFFFF) ∧
    decodeWord Codes.listing 0b001111_011_0_00010_0_000000000_0010_100#32
      = .ok (.cond .ne0 4 (.mov .toSpecial (.dp 2) 3)) ∧
    decodeWord Codes.listing 0b001111_010_1_10010_0_0000000000000000#32
      = .ok (.mov .toSpecial (.ctl .stk) 2) ∧
    decodeWord Codes.listing 0b001111_110_0_10000_1_000000000_0000_000#32
      = .ok (.mov .fromSpecial (.addr .dmx) 6) ∧
    decodeWord Codes.listing 0b001111_001_1_10100_1_0000000000000000#32
      = .ok (.mov .fromSpecial (.ctl .lc) 1) ∧
    decodeWord Codes.listing 0b001110_0000_00000_0_0001001000110100#32
      = .ok (.ldi (.addr (.dp 0)) 0x1234) ∧
    decodeWord Codes.listing 0b001110_101_000000_1_1000000000000001#32
      = .ok (.ldi (.rl 5) 0x8001) ∧
    decodeWord Codes.listing 0b001011_0_00_1111111101000000_0000_000#32
      = .ok (.jmp 0xFF40) ∧
    decodeWord Codes.listing 0b001011_1_00_0000000000010000_0000_000#32
      = .ok (.call 0x10) ∧
    decodeWord Codes.listing 0b001010_0_00000_011_0000000000_0000_000#32
      = .ok (.jreg 3) ∧
    decodeWord Codes.listing 0b001010_1_00000_101_0000000000_0001_010#32
      = .ok (.cond .eq0 2 (.creg 5)) ∧
    decodeWord Codes.listing 0b001001_0_000000000000000000_0000_000#32 = .ok .ret ∧
    decodeWord Codes.listing 0b001001_1_000000000000000000_0000_000#32 = .ok .reti ∧
    decodeWord Codes.listing 0b000111_0000000000_0_001001000110100#32
      = .ok (.rep (.imm 0x1234)) ∧
    decodeWord Codes.listing 0b000110_00000000000000000000000_101#32
      = .ok (.rep (.reg 5)) ∧
    decodeWord Codes.listing 0b000101_00_00000010_0_001001000110100#32
      = .ok (.loop (.imm 0x1234) 2) ∧
    decodeWord Codes.listing 0b000100_00_11111111_0000000000000_011#32
      = .ok (.loop (.reg 3) 255) ∧
    decodeWord Codes.listing 0b0000_0000000000000000000000000001#32 = .ok .halt ∧
    decodeWord Codes.listing 0b0000_0000000000000000000000000100#32 = .ok .lpop

/-! ## Fetching and stepping -/

/-- A running machine that takes no interrupt now executes the well-formed statement whose word stands
at PC: the step is `exec` of it (R151). Nothing is added around `exec`. -/
def Obligations.StepRunsTheDecodedWord : Prop :=
  ∀ (s : State) (w : Word32) (i : Instr), s.mode = .running →
    (s.acceptAllowed = false ∨ s.readySource = none) → s.codeAt s.pc = true →
    s.imem.read32 s.pc = some w → decode s.platform.codes (bytesOfWord w) = .ok i →
    i.wellFormed = true → step s = exec i s

/-- Where PC has no well-formed statement nothing is executed: an address without code (R78 d), an
unwritten word, an undefined word (R123) and a refused statement (R155, R156) each stop by name, as the
spec decides (D24, D7 for memory words, log 9). Refused are exactly the register overlaps of R155, R156 and
R278 and the terms that are the form of no statement. -/
def Obligations.StepRefusesWhatIsNoStatement : Prop :=
  (∀ s : State, s.mode = .running → (s.acceptAllowed = false ∨ s.readySource = none) →
    (s.codeAt s.pc = false → step s = .refused (.codeNotImplemented s.pc)) ∧
    (s.codeAt s.pc = true → s.imem.read32 s.pc = none →
      step s = .fault (.uninitialisedRead none s.pc)) ∧
    (∀ w e, s.codeAt s.pc = true → s.imem.read32 s.pc = some w →
      decode s.platform.codes (bytesOfWord w) = .error e → step s = .refused .undefinedWord) ∧
    (∀ w i, s.codeAt s.pc = true → s.imem.read32 s.pc = some w →
      decode s.platform.codes (bytesOfWord w) = .ok i → OverlapRefused i ∨ FormOfNoStatement i →
      step s = .refused .illFormed)) ∧
  ∀ i : Instr, i.wellFormed = false ↔ OverlapRefused i ∨ FormOfNoStatement i

/-- A statement placed by `withFetchWord` is the one the next step runs, in every state with injective
field values (R122), for every well-formed statement: encoder, byte layout, fetch and decoder agree. -/
def Obligations.PlacedWordIsTheNextOneRun : Prop :=
  ∀ (i : Instr) (s : State), s.platform.codes.sound = true → i.wellFormed = true →
    step (s.withFetchWord 32 (encode s.platform.codes i).toNat)
      = exec i (s.withFetchWord 32 (encode s.platform.codes i).toNat)

/-! ## Invariants and whole-machine rules -/

/-- Every step keeps the invariant `State.Inv`. -/
def Obligations.EveryStepKeepsTheInvariant : Prop :=
  ∀ s t : State, s.Inv → step s = .next t → t.Inv

/-- The state after reset meets the invariant. -/
def Obligations.ResetMeetsTheInvariant : Prop := State.reset.Inv

/-- No step changes instruction memory (R85) or the platform. -/
def Obligations.StepsNeverChangeInstructionMemory : Prop :=
  ∀ s t : State, step s = .next t → t.imem = s.imem ∧ t.platform = s.platform

/-- OV is sticky (R30): no instruction but `ESR = rl` clears it, and only the instructions of R30's
list, and DIV, which R243 leaves open, can set it. -/
def Obligations.OverflowFlagIsSticky : Prop :=
  ∀ (i : Instr) (s t : State), exec i s = .next t → setsEsr i = false →
    (s.ov = true → t.ov = true) ∧ (canSetOv i = false → t.esr = s.esr)

/-- The index and modulo registers are written only by MOV and LDI (R34, R35), the data pointers only
by these and by the transfers of a word (R33). -/
def Obligations.AddressRegistersHaveTheirWriters : Prop :=
  ∀ (i : Instr) (s t : State), exec i s = .next t →
    (∀ n, setsAddrReg i (.dn n) = false → t.idx n = s.idx n) ∧
    (setsAddrReg i .dmx = false → t.dmx = s.dmx) ∧ (setsAddrReg i .dmy = false → t.dmy = s.dmy) ∧
    (∀ n, setsAddrReg i (.dp n) = false → transfersOf i = none →
      (∀ o k m, i ≠ .lsim o k n m) → t.ptr n = s.ptr n)

/-- Data memory is changed only by the words that store (R74, R76): every other instruction leaves
every byte of both spaces as it was. -/
def Obligations.OnlyStoresChangeDataMemory : Prop :=
  ∀ (i : Instr) (s t : State), exec i s = .next t → mayStore i = false →
    ∀ sp b, (t.data sp).read b = (s.data sp).read b

/-- No interrupt is accepted right after a REP, between repetitions, right after a LOOP, or right after
a loop-end word (R390). A MOV to LSP at a loop end may make LSP 0 and is left out of the last clause
(log 38); an LPOP at the LEA it restores is no loop-end word (log 41). -/
def Obligations.InterruptsAreHeldOff : Prop :=
  ∀ (s t : State),
    (∀ c, exec (.rep c) s = .next t → t.acceptAllowed = false) ∧
    (∀ c rle, exec (.loop c rle) s = .next t → t.acceptAllowed = false) ∧
    (∀ i, exec i s = .next t → s.rf = false → 1 < s.rc.toNat → t.acceptAllowed = false) ∧
    (∀ i, exec i s = .next t → s.lsp ≠ 0 → s.pc = s.lea →
      (∀ r, i ≠ .mov .toSpecial (.ctl .lsp) r) → t.acceptAllowed = false)

/-! ## Interrupts and power states -/

/-- The first source of a list, highest priority first (R391), whose request is pending and not masked. -/
def firstUnmasked (s : State) : List IntSource → Option IntSource
  | [] => none
  | q :: rest =>
    if q.id ∈ s.pending ∧ Config.intMasked q.id s.sr s.eir = false then some q else firstUnmasked s rest

/-- The state after interrupt entry (R388): STK and SP take the address of the next word, SR bits 15-13
and EIR what `SaveIE` gives, the request leaves the pending set, the depth grows, PC is the entry. -/
def interruptEntered (s : State) (q : IntSource) : State :=
  { s with
    sp := s.sp + 1
    stk := s.stk.setIfInBounds s.sp.toNat s.pc
    sr := (Config.saveIE s.sr s.eir).1 ++ s.sr.extractLsb' 0 13
    eir := BitVec.ofNat 16 ((Config.saveIE s.sr s.eir).2.toNat % 2 ^ s.platform.eirWidth)
    pending := s.pending.filter (fun k => k != q.id)
    intDepth := s.intDepth + 1
    mode := .running
    pc := q.vector }

/-- What taking an interrupt gives: entry, or with SP at 0xF or above the fault StackOverflow (R388). -/
def entryOutcome (s : State) (q : IntSource) : Res :=
  if 15 ≤ s.sp.toNat then .fault .stackOverflow else .next (interruptEntered s q)

/-- Interrupt entry (R388, R390, R391): of the pending requests that are not masked the one of highest
priority is taken. The halted machine enters its handler, and keeps its state while there is none; the
running machine, where R390 allows acceptance, either enters it or runs the next word. Masking and the
acceptance point are free (log 20), the order of the list stands for INT_PRIORITY (log 21), the entry is
R388's. With a full call stack entry is the fault StackOverflow. -/
def Obligations.InterruptEntrySavesAndVectors : Prop :=
  ∀ s : State, s.platform.eirWidth ≤ 16 →
    (s.mode = .halted →
      step s = match firstUnmasked s s.platform.intSources with
        | none => .next s
        | some q => entryOutcome s q) ∧
    (s.mode = .running → s.rf = true → s.marks.acceptHold = false →
      step s = match firstUnmasked s s.platform.intSources with
        | none => runWord s
        | some q =>
          if Config.acceptNow s.draws then entryOutcome { s with draws := s.draws + 1 } q
          else runWord { s with draws := s.draws + 1 }) ∧
    (s.mode = .running → s.rf = false ∨ s.marks.acceptHold = true → step s = runWord s)

/-- RETI undoes interrupt entry (R333, R389): executed with the stack and depth that entry left, it
goes back to the word entry interrupted, restores SP and the depth, gives SR bits 15-13 and EIR what
`RestoreIE` gives, and changes nothing else. -/
def Obligations.ReturnUndoesInterruptEntry : Prop :=
  ∀ (s u : State) (q : IntSource), s.sp.toNat ≤ 14 → u.platform.eirWidth ≤ 16 →
    u.sp = (s.entered q).sp → u.stk = (s.entered q).stk → u.intDepth = (s.entered q).intDepth →
    PlaceFree u → u.marks.stackMoved = false →
    (∀ p ∈ u.platform.intSources, u.pc.toNat + 1 ≠ p.vector.toNat) →
    exec .reti u = .next { u with
      pc := s.pc
      sp := s.sp
      intDepth := s.intDepth
      sr := (Config.restoreIE u.sr u.eir).1 ++ u.sr.extractLsb' 0 13
      eir := BitVec.ofNat 16 ((Config.restoreIE u.sr u.eir).2.toNat % 2 ^ u.platform.eirWidth)
      marks := {}
      cycles := u.cycles + 2 }

/-- HALT and STOP advance PC by one and enter their modes (R362, R363); STOP is refused on the
µPD77016. In halt mode without a request the state is kept; a step in stop mode is refused, the model's
choice (log 24). -/
def Obligations.HaltAndStopEnterTheirModes : Prop :=
  ∀ s : State,
    (PlaceFree s → s.pc ≠ 0xFFFF →
      exec .halt s
        = .next { s with mode := .halted, pc := s.pc + 1, marks := {}, cycles := s.cycles + 1 }) ∧
    (PlaceFree s → s.pc ≠ 0xFFFF → s.platform.member ≠ .upd77016 →
      exec .stop s
        = .next { s with mode := .stopped, pc := s.pc + 1, marks := {}, cycles := s.cycles + 1 }) ∧
    (s.platform.member = .upd77016 → exec .stop s = .refused .stopNotOnMember) ∧
    (s.mode = .halted → s.pending = [] → step s = .next s) ∧
    (s.mode = .stopped → step s = .refused .inStopMode)

/-- NOP only ends a word (R361); FINT also empties the set of pending requests (R364). Where R158 has no
next PC they stop: sequential advance from 0xFFFF (R24), and a loop exit without an entry, which R38 does
not describe (log 34). -/
def Obligations.NopAndFintEndAWord : Prop :=
  ∀ s : State,
    (CanRetire s → Completes .nop s {} s ∧ Completes .fint s {} { s with pending := [] }) ∧
    (¬ CanRetire s → s.lsp.toNat ≤ 4 ∨ s.pc ≠ s.lea →
      exec .nop s = .refused .pcOverrun ∧ exec .fint s = .refused .pcOverrun) ∧
    (¬ CanRetire s → 4 < s.lsp.toNat → s.pc = s.lea →
      exec .nop s = .refused .noLoopEntry ∧ exec .fint s = .refused .noLoopEntry)

/-! ## Trinomials -/

/-- MADD and MSUB (R170-R172): the accumulator plus or minus twice the signed product of the H parts,
its low 40 bits stored, OV where the exact sum does not fit; the doubling of every product and the wrap
are the spec's decisions D26 and D27. -/
def Obligations.MaddMsubWords : Prop :=
  ∀ a b c p,
    AluWord (.madd a b c p) c p
      (fun s => BitVec.ofInt 40 (regInt s c + 2 * (highInt s a * highInt s b)))
      (fun s => outside40 (regInt s c + 2 * (highInt s a * highInt s b))) ∧
    AluWord (.msub a b c p) c p
      (fun s => BitVec.ofInt 40 (regInt s c - 2 * (highInt s a * highInt s b)))
      (fun s => outside40 (regInt s c - 2 * (highInt s a * highInt s b)))

/-- SUMA and UUMA (R173, R174): signed by unsigned and unsigned by unsigned products; the products of
2^31 and more in UUMA follow one open reading, exact or modulo 2^32 (D28, log 17), wrap as D27. -/
def Obligations.SumaUumaWords : Prop :=
  (∀ a b c p,
    AluWord (.suma a b c p) c p
      (fun s => BitVec.ofInt 40 (regInt s c + 2 * (highInt s a * (lowNat s b : Int))))
      (fun s => outside40 (regInt s c + 2 * (highInt s a * (lowNat s b : Int))))) ∧
  ∃ wide : Nat → Bool, ∀ a b c p,
    AluWord (.uuma a b c p) c p
      (fun s => BitVec.ofInt 40 (regInt s c + uumaTerm wide (lowNat s a * lowNat s b)))
      (fun s => outside40 (regInt s c + uumaTerm wide (lowNat s a * lowNat s b)))

/-- MAS1 and MAS16 (R175, R176): the accumulator divided by 2 or 65536, rounded down, plus twice the
product (D26); the sum always fits, so its value is exact and OV never changes. -/
def Obligations.ShiftedMultiplyAddWords : Prop :=
  ∀ a b c p,
    AluWord (.mas1 a b c p) c p
      (fun s => BitVec.ofInt 40 (regInt s c / 2 + 2 * (highInt s a * highInt s b))) (fun _ => false) ∧
    AluWord (.mas16 a b c p) c p
      (fun s => BitVec.ofInt 40 (regInt s c / 65536 + 2 * (highInt s a * highInt s b)))
      (fun _ => false) ∧
    ∀ s : State, outside40 (regInt s c / 2 + 2 * (highInt s a * highInt s b)) = false ∧
      outside40 (regInt s c / 65536 + 2 * (highInt s a * highInt s b)) = false

/-! ## Binomials -/

/-- MPY, ADD and SUB (R191, R192, R194): MPY always fits; ADD and SUB set OV where the exact result does
not fit and store its low 40 bits, for SUB by the spec's decision D27. -/
def Obligations.MultiplyAddSubtractWords : Prop :=
  ∀ a b c p,
    AluWord (.mpy a b c p) c p (fun s => BitVec.ofInt 40 (2 * (highInt s a * highInt s b)))
      (fun _ => false) ∧
    AluWord (.add a b c p) c p (fun s => BitVec.ofInt 40 (regInt s a + regInt s b))
      (fun s => outside40 (regInt s a + regInt s b)) ∧
    AluWord (.sub a b c p) c p (fun s => BitVec.ofInt 40 (regInt s a - regInt s b))
      (fun s => outside40 (regInt s a - regInt s b))

/-- SRA, SRL and SLL (R196, R198, R200, R209): the amount is bits 5-0 of the register, 40-63 included;
SRA divides rounding down, SRL and SLL give 0 from 40 on; OV never changes. -/
def Obligations.RegisterShiftWords : Prop :=
  ∀ a b c p,
    AluWord (.sra a b c p) c p (fun s => BitVec.ofInt 40 (regInt s a / 2 ^ amountIn s b))
      (fun _ => false) ∧
    AluWord (.srl a b c p) c p
      (fun s => if 40 ≤ amountIn s b then 0
        else BitVec.ofNat 40 ((s.reg a).toNat / 2 ^ amountIn s b)) (fun _ => false) ∧
    AluWord (.sll a b c p) c p
      (fun s => if 40 ≤ amountIn s b then 0
        else BitVec.ofNat 40 ((s.reg a).toNat * 2 ^ amountIn s b)) (fun _ => false)

/-- AND, OR, XOR over all 40 bits and the exact signed comparison LT (R202, R204, R206, R208). -/
def Obligations.LogicAndCompareWords : Prop :=
  ∀ a b c p,
    AluWord (.and a b c p) c p (fun s => s.reg a &&& s.reg b) (fun _ => false) ∧
    AluWord (.or a b c p) c p (fun s => s.reg a ||| s.reg b) (fun _ => false) ∧
    AluWord (.xor a b c p) c p (fun s => s.reg a ^^^ s.reg b) (fun _ => false) ∧
    AluWord (.lt a b c p) c p (fun s => if regInt s a < regInt s b then 1 else 0) (fun _ => false)

/-- IADD and ISUB (R193, R195): the immediate is zero-extended, so IADD can overflow upward only and
ISUB downward only; the wrap is the spec's decision D27. -/
def Obligations.ImmediateAddSubtractWords : Prop :=
  ∀ a b (imm : Word16),
    RegisterWord (.iadd a b imm) b (fun s => BitVec.ofInt 40 (regInt s a + (imm.toNat : Int)))
      (fun s => decide (2 ^ 39 - 1 < regInt s a + (imm.toNat : Int))) ∧
    RegisterWord (.isub a b imm) b (fun s => BitVec.ofInt 40 (regInt s a - (imm.toNat : Int)))
      (fun s => decide (regInt s a - (imm.toNat : Int) < -2 ^ 39))

/-- ISRA, ISRL and ISLL (R197, R199, R201, R209): bits 5-0 of the immediate are the amount, bits 15-6
are ignored; an amount of 40-63 is outside the statement's range and refused, the spec's decision D19. -/
def Obligations.ImmediateShiftWords : Prop :=
  ∀ a b (imm : Word16),
    (imm.toNat % 64 < 40 →
      RegisterWord (.isra a b imm) b (fun s => BitVec.ofInt 40 (regInt s a / 2 ^ (imm.toNat % 64)))
        (fun _ => false) ∧
      RegisterWord (.isrl a b imm) b
        (fun s => BitVec.ofNat 40 ((s.reg a).toNat / 2 ^ (imm.toNat % 64))) (fun _ => false) ∧
      RegisterWord (.isll a b imm) b
        (fun s => BitVec.ofNat 40 ((s.reg a).toNat * 2 ^ (imm.toNat % 64))) (fun _ => false)) ∧
    (40 ≤ imm.toNat % 64 → ∀ s,
      exec (.isra a b imm) s = .refused .immediateShiftRange ∧
      exec (.isrl a b imm) s = .refused .immediateShiftRange ∧
      exec (.isll a b imm) s = .refused .immediateShiftRange)

/-- IAND, IOR and IXOR (R203, R205, R207): the zero-extended immediate clears bits 39-16 in IAND and
leaves those of the source in IOR and IXOR. -/
def Obligations.ImmediateLogicWords : Prop :=
  ∀ a b (imm : Word16),
    RegisterWord (.iand a b imm) b (fun s => (0 : BitVec 24) ++ (partL (s.reg a) &&& imm))
      (fun _ => false) ∧
    RegisterWord (.ior a b imm) b (fun s => (s.reg a).extractLsb' 16 24 ++ (partL (s.reg a) ||| imm))
      (fun _ => false) ∧
    RegisterWord (.ixor a b imm) b (fun s => (s.reg a).extractLsb' 16 24 ++ (partL (s.reg a) ^^^ imm))
      (fun _ => false)

/-! ## Monomials -/

/-- CLR, NOT and PUT (R233, R235, R240). -/
def Obligations.ClrNotPutWords : Prop :=
  ∀ a b p,
    AluWord (.clr b p) b p (fun _ => 0) (fun _ => false) ∧
    AluWord (.not a b p) b p (fun s => s.reg a ^^^ 0xFFFFFFFFFF) (fun _ => false) ∧
    AluWord (.put a b p) b p (fun s => s.reg a) (fun _ => false)

/-- INC, DEC, ABS and NEG (R231, R232, R234, R236): the wrapped result is stored, for ABS and NEG by the
spec's decision D21; OV is set at the one value where it wraps. -/
def Obligations.IncDecAbsNegWords : Prop :=
  ∀ a b p,
    AluWord (.inc a b p) b p (fun s => BitVec.ofInt 40 (regInt s a + 1))
      (fun s => decide (regInt s a = 2 ^ 39 - 1)) ∧
    AluWord (.dec a b p) b p (fun s => BitVec.ofInt 40 (regInt s a - 1))
      (fun s => decide (regInt s a = -2 ^ 39)) ∧
    AluWord (.abs a b p) b p (fun s => BitVec.ofInt 40 (regInt s a).natAbs)
      (fun s => decide (regInt s a = -2 ^ 39)) ∧
    AluWord (.neg a b p) b p (fun s => BitVec.ofInt 40 (-regInt s a))
      (fun s => decide (regInt s a = -2 ^ 39))

/-- CLIP and RND (R237, R238): CLIP clamps to 32 bits; RND clamps above 0x00'7FFF'0000 and below
-2^31, and otherwise rounds to the nearest multiple of 65536, halves upward; OV never changes. -/
def Obligations.ClipRndWords : Prop :=
  ∀ a b p,
    AluWord (.clip a b p) b p
      (fun s => BitVec.ofInt 40 (max (-2 ^ 31) (min (regInt s a) (2 ^ 31 - 1)))) (fun _ => false) ∧
    AluWord (.rnd a b p) b p
      (fun s =>
        if 0x7FFF0000 < regInt s a then 0x007FFF0000
        else if regInt s a < -2 ^ 31 then 0xFF80000000
        else BitVec.ofInt 40 ((regInt s a + 0x8000) / 0x10000 * 0x10000)) (fun _ => false)

/-- EXP (R239): 0 gives 0, -1 gives 0x1F, any other value that fits in 32 bits the number of consecutive
bits from bit 30 downward equal to bit 31; a value that does not fit gives a free value (log 14). -/
def Obligations.ExponentWords : Prop :=
  ∃ (count : Word40 → Word40) (free : Nat → Word40),
    count 0 = 0 ∧ count 0xFFFFFFFFFF = 0x1F ∧
    (∀ v : Word40, v ≠ 0 → v ≠ 0xFFFFFFFFFF → outside32 v.toInt = false →
      ∃ n : Nat, n ≤ 30 ∧ count v = BitVec.ofNat 40 n ∧
        (∀ j, j < n → v.getLsbD (30 - j) = v.getLsbD 31) ∧ v.getLsbD (30 - n) ≠ v.getLsbD 31) ∧
    ∀ a b p,
      AluWordDrawing (.exp a b p) b p
        (fun s => if outside32 (regInt s a) then free s.draws else count (s.reg a))
        (fun _ => false) (fun s => outside32 (regInt s a))

/-- ACA and ACS (R241, R242): the destination is also a source; the wrap is the spec's decision D27. -/
def Obligations.AccumulateWords : Prop :=
  ∀ a b p,
    AluWord (.aca a b p) b p (fun s => BitVec.ofInt 40 (regInt s b + regInt s a))
      (fun s => outside40 (regInt s b + regInt s a)) ∧
    AluWord (.acs a b p) b p (fun s => BitVec.ofInt 40 (regInt s b - regInt s a))
      (fun s => outside40 (regInt s b - regInt s a))

/-- DIV (R243): one step of the division; where the shift changes bit 39, OV is set or kept as a free
choice says (D29, log 16); one register as both operands is the fault DivSameRegister, reported before the
stops of its transfers (log 30). -/
def Obligations.DivideStepWords : Prop :=
  (∃ choice : Nat → Bool, ∀ a b p, a ≠ b →
    AluWordDrawing (.div a b p) b p
      (fun s =>
        let t := divRemainder (s.reg a) (s.reg b)
        if t.getLsbD 39 then BitVec.ofNat 40 (2 * t.toNat) else BitVec.ofNat 40 (2 * t.toNat + 1))
      (fun s =>
        let t := divRemainder (s.reg a) (s.reg b)
        t.getLsbD 39 != t.getLsbD 38 && choice s.draws)
      (fun s =>
        let t := divRemainder (s.reg a) (s.reg b)
        t.getLsbD 39 != t.getLsbD 38)) ∧
  ∀ a p s, exec (.div a a p) s = .fault .divSameRegister

/-! ## Load and store -/

/-- LSPA and LSSE (R276, R277): in every state where the transfers can be performed, loads write their
register parts, stores their words, pointers are modified, and nothing else changes; LSPA loads the
whole register and stores the H part. -/
def Obligations.ParallelAndPartialTransfers : Prop :=
  (∀ q s, PairReady s q → CanRetire s →
    ∃ t, exec (.lsse q) s = .next t ∧ (∀ k, t.reg k = loadedReg s q k) ∧ t.esr = s.esr ∧
      t.draws = s.draws ∧ TransfersDone q s t ∧ OthersKept s t ∧ Retires {} s t) ∧
  (∀ p s, PairReady s p.toPair → CanRetire s →
    ∃ t, exec (.lspa p) s = .next t ∧ (∀ k, t.reg k = loadedReg s p.toPair k) ∧ t.esr = s.esr ∧
      t.draws = s.draws ∧ TransfersDone p.toPair s t ∧ OthersKept s t ∧ Retires {} s t) ∧
  (∀ (p : Par) sp d, pairSide p.toPair sp = some d → d.op = .load .ro ∨ d.op = .store .rh)

/-- LSDA (R280): one access at the address in the word; no pointer is read or changed. -/
def Obligations.DirectAddressTransfer : Prop :=
  ∀ op k sp a s, AccessReady s sp a op → CanRetire s →
    ∃ t, exec (.lsda op k sp a) s = .next t ∧ AccessDone s t sp a op k ∧ t.dp = s.dp ∧
      t.esr = s.esr ∧ t.draws = s.draws ∧ OthersKept s t ∧ Retires {} s t

/-- LSIM (R281, R265): one access at DPn in X for n = 0-3 and in Y for n = 4-7, then DPn + imm. -/
def Obligations.ImmediateIndexTransfer : Prop :=
  ∀ op k (n : DReg) (imm : Word16) sp s, (sp = .x ↔ n.val ≤ 3) → s.marks.dpFresh ≠ some n →
    AccessReady s sp (s.ptr n) op → CanRetire s →
    ∃ t, exec (.lsim op k n imm) s = .next t ∧ AccessDone s t sp (s.ptr n) op k ∧
      (t.ptr n).toNat = ((s.ptr n).toNat + imm.toNat) % 65536 ∧
      (∀ j, j ≠ n → t.ptr j = s.ptr j) ∧
      t.esr = s.esr ∧ t.draws = s.draws ∧ OthersKept s t ∧ Retires {} s t

/-- The pointer forms (R261, R263, R264, R266, R267): the address is the pointer before the word, for
`!DPn##` all its 16 bits reversed (D31); the pointer then takes the sum modulo 2^16 (D13), or for `%%`
the ring sum with an open cut (log 18). -/
def Obligations.PointerFormsAndModification : Prop :=
  (∀ m d, m ≠ Modi.bitRev → pointerAddress m d = d) ∧
  (∀ (d : Word16) k, k < 16 → (pointerAddress .bitRev d).getLsbD k = d.getLsbD (15 - k)) ∧
  (∀ (s : State) n,
    s.nextPointer n .plain = s.ptr n ∧
    (s.nextPointer n .inc).toNat = ((s.ptr n).toNat + 1) % 65536 ∧
    (s.nextPointer n .dec).toNat = ((s.ptr n).toNat + 65535) % 65536 ∧
    (s.nextPointer n .addDn).toNat = ((s.ptr n).toNat + (s.idx n).toNat) % 65536 ∧
    (s.nextPointer n .bitRev).toNat = ((s.ptr n).toNat + (s.idx n).toNat) % 65536) ∧
  ∃ split : Word16 → Nat, (∀ d, split d ≤ 16) ∧ ∀ (s : State) (n : DReg) dm,
    dm = (if n.val ≤ 3 then s.dmx else s.dmy) →
    (s.nextPointer n .modulo).toNat =
      ((s.ptr n).toNat - (s.ptr n).toNat % 2 ^ split dm +
        ((s.ptr n).toNat % 2 ^ split dm + (s.idx n).toNat) % (dm.toNat + 1)) % 65536

/-- The register parts moved (R21, R268-R275): what each load writes to E, H and L, and what each store
writes to memory. -/
def Obligations.RegisterPartsMoved : Prop :=
  (∀ v : Word40, (partE v).toNat = v.toNat / 2 ^ 32 ∧ (partH v).toNat = v.toNat / 2 ^ 16 % 2 ^ 16 ∧
    (partL v).toNat = v.toNat % 2 ^ 16) ∧
  (∀ (v : Word40) (m : Word16),
    (partE (loadedPart .ro v m) = (if m.msb then 0xFF else 0) ∧ partH (loadedPart .ro v m) = m ∧
      partL (loadedPart .ro v m) = 0) ∧
    (partE (loadedPart .reh v m) = (if m.msb then 0xFF else 0) ∧ partH (loadedPart .reh v m) = m ∧
      partL (loadedPart .reh v m) = partL v) ∧
    (partE (loadedPart .rh v m) = partE v ∧ partH (loadedPart .rh v m) = m ∧
      partL (loadedPart .rh v m) = partL v) ∧
    ((partE (loadedPart .re v m)).toNat = m.toNat % 256 ∧ partH (loadedPart .re v m) = partH v ∧
      partL (loadedPart .re v m) = partL v) ∧
    (partE (loadedPart .rl v m) = partE v ∧ partH (loadedPart .rl v m) = partH v ∧
      partL (loadedPart .rl v m) = m)) ∧
  ∀ v : Word40, (storedPart .re v).toNat = v.toNat / 2 ^ 32 ∧ storedPart .rh v = partH v ∧
    storedPart .rl v = partL v

/-- Words that break a rule on pointers stop (R430, R266): a pointer set by MOV or LDI in the word
before, and `%%` with a modulo register outside 1-0x7FFF. The X side is checked before the Y side
(log 30). -/
def Obligations.PointerRulesStopTransfers : Prop :=
  (∀ i q s, transfersOf i = some q → sameDivOperands i = false →
    (∀ d, q.x = some d →
      (s.marks.dpFresh = some (sidePtr .x d.dp) →
        exec i s = .fault (.dpUsedTooEarly (sidePtr .x d.dp))) ∧
      (s.marks.dpFresh ≠ some (sidePtr .x d.dp) → d.modi = .modulo →
        s.dmx.toNat = 0 ∨ 0x8000 ≤ s.dmx.toNat → exec i s = .fault .moduloRange)) ∧
    (∀ d, q.y = some d → (∀ e, q.x = some e → PointerReady s (sidePtr .x e.dp) e.modi) →
      (s.marks.dpFresh = some (sidePtr .y d.dp) →
        exec i s = .fault (.dpUsedTooEarly (sidePtr .y d.dp))) ∧
      (s.marks.dpFresh ≠ some (sidePtr .y d.dp) → d.modi = .modulo →
        s.dmy.toNat = 0 ∨ 0x8000 ≤ s.dmy.toNat → exec i s = .fault .moduloRange))) ∧
  ∀ op k n imm s, s.marks.dpFresh = some n → exec (.lsim op k n imm) s = .fault (.dpUsedTooEarly n)

/-- A double access in a forbidden pair of regions faults, with the bus-access-error flag recorded on
a member that has it (R279, R31); that the fault carries ESR is the model's form (log 29). -/
def Obligations.ForbiddenRegionPairsFault : Prop :=
  ∀ i q s, transfersOf i = some q → sameDivOperands i = false → RegionsClash s q →
    (∀ d, q.x = some d → PointerReady s (sidePtr .x d.dp) d.modi) →
    (∀ d, q.y = some d → PointerReady s (sidePtr .y d.dp) d.modi) →
    ∃ e : Word16, exec i s = .fault (.forbiddenRegionPair e) ∧
      ∀ k, e.getLsbD k =
        (s.esr.getLsbD k ||
          (s.platform.member.hasBusErrFlag && decide (k = s.platform.esrBusErrBit.val)))

/-- The stop of an access that has no result (R78, R55): `r` is what the word gives. -/
def AccessStops (s : State) (sp : Space) (a : Word16) (op : PartOp) (r : Res) : Prop :=
  (s.region sp a = .irom → (∃ part, op = .store part) → r = .refused (.storeToRom sp a)) ∧
  (∀ g, s.region sp a = g → g ≠ .iram → g ≠ .irom → r = .refused (.regionNotDescribed g)) ∧
  (s.region sp a = .iram ∨ s.region sp a = .irom → (∃ part, op = .load part) →
    (s.data sp).read16 a = none → r = .fault (.uninitialisedRead (some sp) a))

/-- Accesses that R78 gives no result stop by name (log 36): a store to internal ROM, an access to the
external or peripheral area or to nothing, and a load of a word that nothing has written (R55, log 9). So do
LSDA, LSIM, and LSPA, LSSE and operation words at their first side that cannot be performed, X before Y
and pointers and region pairs before accesses (log 30). -/
def Obligations.AccessesWithoutAResultStop : Prop :=
  (∀ op k sp a s, AccessStops s sp a op (exec (.lsda op k sp a) s)) ∧
  (∀ op k (n : DReg) imm sp s, (sp = .x ↔ n.val ≤ 3) → s.marks.dpFresh ≠ some n →
    AccessStops s sp (s.ptr n) op (exec (.lsim op k n imm) s)) ∧
  ∀ i q s, transfersOf i = some q → sameDivOperands i = false →
    (∀ d, q.x = some d → PointerReady s (sidePtr .x d.dp) d.modi) →
    (∀ d, q.y = some d → PointerReady s (sidePtr .y d.dp) d.modi) → ¬ RegionsClash s q →
    (∀ d, q.x = some d → AccessStops s .x (s.sideAddress .x d) d.op (exec i s)) ∧
    (∀ d, q.y = some d → (∀ e, q.x = some e → AccessReady s .x (s.sideAddress .x e) e.op) →
      AccessStops s .y (s.sideAddress .y d) d.op (exec i s))

/-! ## MOV and LDI -/

/-- MOV of the address-unit registers (R302, R303, R308): the L part moves, the general register's E and
H are kept, and a data pointer written is marked for the next word (R430). -/
def Obligations.MovesOfAddressRegisters : Prop :=
  ∀ (r : GReg) (n : DReg) (s : State), CanRetire s →
    Completes (.mov .toSpecial (.addr (.dp n)) r) s { dpFresh := some n }
      { s with dp := s.dp.set n (partL (s.reg r)) } ∧
    Completes (.mov .toSpecial (.addr (.dn n)) r) s {} { s with dn := s.dn.set n (partL (s.reg r)) } ∧
    Completes (.mov .toSpecial (.addr .dmx) r) s {} { s with dmx := partL (s.reg r) } ∧
    Completes (.mov .toSpecial (.addr .dmy) r) s {} { s with dmy := partL (s.reg r) } ∧
    Completes (.mov .fromSpecial (.addr (.dp n)) r) s {}
      { s with r := s.r.set r (withLow (s.reg r) (s.ptr n)) } ∧
    Completes (.mov .fromSpecial (.addr (.dn n)) r) s {}
      { s with r := s.r.set r (withLow (s.reg r) (s.idx n)) } ∧
    Completes (.mov .fromSpecial (.addr .dmx) r) s {}
      { s with r := s.r.set r (withLow (s.reg r) s.dmx) } ∧
    Completes (.mov .fromSpecial (.addr .dmy) r) s {}
      { s with r := s.r.set r (withLow (s.reg r) s.dmy) }

/-- LDI (R316, R317): the immediate goes to the L part, E and H kept, or to the address-unit register;
a data pointer set is marked for the next word (R430). -/
def Obligations.ImmediateSets : Prop :=
  ∀ (imm : Word16) (r : GReg) (n : DReg) (s : State), CanRetire s →
    Completes (.ldi (.rl r) imm) s {} { s with r := s.r.set r (withLow (s.reg r) imm) } ∧
    Completes (.ldi (.addr (.dp n)) imm) s { dpFresh := some n } { s with dp := s.dp.set n imm } ∧
    Completes (.ldi (.addr (.dn n)) imm) s {} { s with dn := s.dn.set n imm } ∧
    Completes (.ldi (.addr .dmx) imm) s {} { s with dmx := imm } ∧
    Completes (.ldi (.addr .dmy) imm) s {} { s with dmy := imm }

/-- `dest = rl` of SR, EIR, ESR, SP, LSP, STK, LSR1 and LSR2 (R302, R304-R307): the low bits that the
register has are taken; SP above 0xF and LSP above 4 are the fault BadPointerValue; STK and LSR need an
entry. Where the word is the loop end, whether a loop is active is told by LSP, for `LSP = rl` by the LSP it
wrote: this rests on the spec's decision D14 (R354, log 28, log 38). -/
def Obligations.MovesToControlRegisters : Prop :=
  ∀ (r : GReg) (s : State) (v : Word16), v = partL (s.reg r) →
    (CanRetire s →
      Completes (.mov .toSpecial (.ctl .sr) r) s {} { s with sr := v } ∧
      (s.platform.eirWidth ≤ 16 → Completes (.mov .toSpecial (.ctl .eir) r) s {}
        { s with eir := BitVec.ofNat 16 (v.toNat % 2 ^ s.platform.eirWidth) }) ∧
      (s.platform.esrWidth ≤ 16 → Completes (.mov .toSpecial (.ctl .esr) r) s {}
        { s with esr := BitVec.ofNat 16 (v.toNat % 2 ^ s.platform.esrWidth) }) ∧
      (s.platform.spWidth ≤ 16 → v.toNat % 2 ^ s.platform.spWidth ≤ 15 →
        Completes (.mov .toSpecial (.ctl .sp) r) s { stackMoved := true }
          { s with sp := BitVec.ofNat 16 (v.toNat % 2 ^ s.platform.spWidth) }) ∧
      (1 ≤ s.sp.toNat → s.sp.toNat ≤ 15 →
        Completes (.mov .toSpecial (.ctl .stk) r) s { stackMoved := true }
          { s with stk := s.stk.setIfInBounds (s.sp.toNat - 1) v })) ∧
    (s.platform.lspWidth ≤ 16 → v.toNat % 2 ^ s.platform.lspWidth ≤ 4 →
      CanRetire { s with lsp := BitVec.ofNat 16 (v.toNat % 2 ^ s.platform.lspWidth) } →
      Completes (.mov .toSpecial (.ctl .lsp) r) s {}
        { s with lsp := BitVec.ofNat 16 (v.toNat % 2 ^ s.platform.lspWidth) }) ∧
    (CanRetire s → ∀ (k : Fin 4) e, s.lsp.toNat = k.val + 1 → s.lstk[k] = e →
      Completes (.mov .toSpecial (.ctl .lsr1) r) s {}
        { s with lstk := s.lstk.set k ⟨v, e.lea, e.lc⟩ } ∧
      Completes (.mov .toSpecial (.ctl .lsr2) r) s {}
        { s with lstk := s.lstk.set k ⟨e.lsa, v, e.lc⟩ }) ∧
    (s.platform.spWidth ≤ 16 → 15 < v.toNat % 2 ^ s.platform.spWidth →
      exec (.mov .toSpecial (.ctl .sp) r) s = .fault .badPointerValue) ∧
    (s.platform.lspWidth ≤ 16 → 4 < v.toNat % 2 ^ s.platform.lspWidth →
      exec (.mov .toSpecial (.ctl .lsp) r) s = .fault .badPointerValue)

/-- `rl = source` of SR, STK, LSR1, LSR2 and of the narrow SP, LSP, EIR, ESR (R303, R304, R306, R307):
the register's bits arrive right-aligned, E and H are kept, the bits above a narrow register are any
bits (log 15), and the source is not changed. -/
def Obligations.MovesFromControlRegisters : Prop :=
  ∀ (r : GReg) (s : State), CanRetire s →
    Completes (.mov .fromSpecial (.ctl .sr) r) s {}
      { s with r := s.r.set r (withLow (s.reg r) s.sr) } ∧
    (∀ k : Fin 15, s.sp.toNat = k.val + 1 →
      Completes (.mov .fromSpecial (.ctl .stk) r) s { stackMoved := true }
        { s with r := s.r.set r (withLow (s.reg r) s.stk[k]) }) ∧
    (∀ k : Fin 4, s.lsp.toNat = k.val + 1 →
      Completes (.mov .fromSpecial (.ctl .lsr1) r) s {}
        { s with r := s.r.set r (withLow (s.reg r) s.lstk[k].lsa) } ∧
      Completes (.mov .fromSpecial (.ctl .lsr2) r) s {}
        { s with r := s.r.set r (withLow (s.reg r) s.lstk[k].lea) }) ∧
    ∀ c w v m,
      (c = CtlReg.sp ∧ w = s.platform.spWidth ∧ v = s.sp ∧ m = { stackMoved := true } ∨
        c = .lsp ∧ w = s.platform.lspWidth ∧ v = s.lsp ∧ m = {} ∨
        c = .eir ∧ w = s.platform.eirWidth ∧ v = s.eir ∧ m = {} ∨
        c = .esr ∧ w = s.platform.esrWidth ∧ v = s.esr ∧ m = ({} : Marks)) → w ≤ 16 →
      ∃ l : Word16, (∀ k, k < w → l.getLsbD k = v.getLsbD k) ∧
        Completes (.mov .fromSpecial (.ctl c) r) s m
          { s with r := s.r.set r (withLow (s.reg r) l),
                   draws := s.draws + (if w < 16 then 1 else 0) }

/-- The loop flag (R305, R306, R353, R349 c): `rl = LC` and `rl = LSR3` read the 15 count bits below
a flag that depends only on whether a loop is active (open, log 19); `LSR3 = rl` must keep the flag read
there, else it is the fault BadPointerValue; LC is read neither at a loop head nor in its last three
words. -/
def Obligations.LoopCounterMoves : Prop :=
  ∃ flag : Bool → Bool, ∀ (r : GReg) (s : State),
    (CanRetire s → ¬ InLastThree s → ¬ (s.lsp ≠ 0 ∧ s.pc = s.lsa) →
      Completes (.mov .fromSpecial (.ctl .lc) r) s {}
        { s with r := s.r.set r (withLow (s.reg r)
            (BitVec.ofBool (flag (s.lsp != 0)) ++ s.lc.extractLsb' 0 15)) }) ∧
    (InLastThree s ∨ s.lsp ≠ 0 ∧ s.pc = s.lsa →
      exec (.mov .fromSpecial (.ctl .lc) r) s = .fault .forbiddenNearLoopEnd) ∧
    ∀ k : Fin 4, s.lsp.toNat = k.val + 1 →
      (CanRetire s → Completes (.mov .fromSpecial (.ctl .lsr3) r) s {}
        { s with r := s.r.set r (withLow (s.reg r)
            (BitVec.ofBool (flag true) ++ s.lstk[k].lc.extractLsb' 0 15)) }) ∧
      (if (partL (s.reg r)).msb = flag true then
        CanRetire s → Completes (.mov .toSpecial (.ctl .lsr3) r) s {}
          { s with lstk := s.lstk.set k ⟨s.lstk[k].lsa, s.lstk[k].lea, partL (s.reg r)⟩ }
      else exec (.mov .toSpecial (.ctl .lsr3) r) s = .fault .badPointerValue)

/-- MOV of STK with SP outside 1-0xF and of LSR1-3 with LSP outside 1-4 addresses no entry and is
refused, the spec's choice U10 (R304, R306); LC is no destination (R301, log 35). -/
def Obligations.MovesWithoutAnEntryRefused : Prop :=
  ∀ (r : GReg) (s : State) (d : MovDir),
    (s.sp.toNat = 0 ∨ 16 ≤ s.sp.toNat →
      exec (.mov d (.ctl .stk) r) s = .refused .noStackEntry) ∧
    (s.lsp.toNat = 0 ∨ 5 ≤ s.lsp.toNat → ∀ c, c = CtlReg.lsr1 ∨ c = .lsr2 ∨ c = .lsr3 →
      exec (.mov d (.ctl c) r) s = .refused .noLoopEntry) ∧
    exec (.mov .toSpecial (.ctl .lc) r) s = .refused .lcNotADestination

/-! ## Branches -/

/-- JMP and JREG (R324, R325, R331): PC takes the sum of its value and the displacement modulo 2^16, in
2 cycles, or the data pointer, in 3; nothing else changes. -/
def Obligations.JumpsSetOnlyThePc : Prop :=
  ∀ (rel : Word16) (n : DReg) (s : State), PlaceFree s →
    exec (.jmp rel) s
      = .next { s with pc := BitVec.ofNat 16 (s.pc.toNat + rel.toNat), marks := {},
                       cycles := s.cycles + 2 } ∧
    exec (.jreg n) s = .next { s with pc := s.ptr n, marks := {}, cycles := s.cycles + 3 }

/-- CALL and CREG (R326, R328): SP goes up, its entry takes the address of the next word (modulo 2^16 at
0xFFFF, log 26), PC the target; with SP at 0xF or above they are the fault StackOverflow (R327). -/
def Obligations.CallsPushTheReturnAddress : Prop :=
  ∀ (rel : Word16) (n : DReg) (s : State), PlaceFree s →
    (∀ k : Fin 15, s.sp.toNat = k.val →
      exec (.call rel) s
        = .next { s with sp := BitVec.ofNat 16 (k.val + 1), stk := s.stk.set k (s.pc + 1),
                         pc := BitVec.ofNat 16 (s.pc.toNat + rel.toNat), marks := {},
                         cycles := s.cycles + 2 } ∧
      exec (.creg n) s
        = .next { s with sp := BitVec.ofNat 16 (k.val + 1), stk := s.stk.set k (s.pc + 1),
                         pc := s.ptr n, marks := {}, cycles := s.cycles + 3 }) ∧
    (15 ≤ s.sp.toNat →
      exec (.call rel) s = .fault .stackOverflow ∧ exec (.creg n) s = .fault .stackOverflow)

/-- RET (R330): PC takes the entry SP points at and SP goes down, the entry stays; with SP 0 or above
0xF it is the fault StackUnderflow (R332). -/
def Obligations.ReturnPopsTheAddress : Prop :=
  ∀ s : State, PlaceFree s → s.marks.stackMoved = false →
    (∀ k : Fin 15, s.sp.toNat = k.val + 1 →
      exec .ret s
        = .next { s with pc := s.stk[k], sp := BitVec.ofNat 16 k.val, marks := {},
                         cycles := s.cycles + 2 }) ∧
    (s.sp.toNat = 0 ∨ 16 ≤ s.sp.toNat → exec .ret s = .fault .stackUnderflow)

/-- RETI outside interrupt processing, told by the depth (D32), only advances PC (R334); inside it, with
SP 0 or above 0xF, it is the fault StackUnderflow (R333). -/
def Obligations.RetiOutsideAHandlerOnlyAdvances : Prop :=
  ∀ s : State, PlaceFree s → s.marks.stackMoved = false →
    (∀ q ∈ s.platform.intSources, s.pc.toNat + 1 ≠ q.vector.toNat) →
    (s.intDepth = 0 → s.pc ≠ 0xFFFF →
      exec .reti s = .next { s with pc := s.pc + 1, marks := {}, cycles := s.cycles + 2 }) ∧
    (s.intDepth ≠ 0 → (s.sp.toNat = 0 ∨ 16 ≤ s.sp.toNat) → exec .reti s = .fault .stackUnderflow)

/-- Branches, conditional or not, REP, LOOP, LPOP, HALT and STOP are neither repeat targets nor among the
last three words of a loop (R323, R343, R349 a), addresses modulo 2^16 (log 33): the two faults. A word
that is both reports ForbiddenRepeatTarget, the model's order (log 30). -/
def Obligations.BarredWordsFaultNearRepeatAndLoopEnd : Prop :=
  ∀ (i : Instr) (s : State), isBarredNearEnd i = true →
    (i = .stop → s.platform.member ≠ .upd77016) →
    (s.rf = false → exec i s = .fault .forbiddenRepeatTarget) ∧
    (s.rf = true → InLastThree s → exec i s = .fault .forbiddenNearLoopEnd)

/-- Returns that a neighbouring word forbids (R431, R432, R385): RET or RETI, conditional or not, right
after a MOV of STK or SP; a conditional CALL or CREG before a plain RET or RETI, whether its condition
holds or not; RETI, conditional or not, before a vector entry. The word looked at after 0xFFFF is that at 0
(log 26). Where another stop applies too, these come first in the order of the model: the move before the
vector entry, and each before the state of the call stack (log 30). -/
def Obligations.ReturnNeighboursFault : Prop :=
  ∀ s : State, PlaceFree s →
    (s.marks.stackMoved = true →
      exec .ret s = .fault .returnAfterStackMove ∧ exec .reti s = .fault .returnAfterStackMove ∧
      ∀ c top, exec (.cond c top .ret) s = .fault .returnAfterStackMove ∧
        exec (.cond c top .reti) s = .fault .returnAfterStackMove) ∧
    (fetchAt s (s.pc + 1) = .ok .ret ∨ fetchAt s (s.pc + 1) = .ok .reti → ∀ c top rel dp,
      c ≠ .ever →
      exec (.cond c top (.call rel)) s = .fault .returnAfterCondCall ∧
        exec (.cond c top (.creg dp)) s = .fault .returnAfterCondCall) ∧
    (s.marks.stackMoved = false →
      (∃ q ∈ s.platform.intSources, s.pc.toNat + 1 = q.vector.toNat) →
      exec .reti s = .refused .retiBeforeVectorEntry ∧
        ∀ c top, exec (.cond c top .reti) s = .refused .retiBeforeVectorEntry)

/-! ## Hardware loops -/

/-- The number a count stands for: the immediate, or the L part of the register (R341, R345). -/
def countValue (s : State) : Count → Nat
  | .imm c => c.toNat
  | .reg r => lowNat s r

/-- REP (R341): RC takes the count, RF becomes 0, PC goes on; a count of 0 or above 0x7FFF is the fault
BadCount. -/
def Obligations.RepStartsARepeat : Prop :=
  ∀ (c : Count) (s : State), PlaceFree s →
    (1 ≤ countValue s c → countValue s c ≤ 0x7FFF → s.pc ≠ 0xFFFF →
      exec (.rep c) s
        = .next { s with rc := BitVec.ofNat 16 (countValue s c), rf := false, pc := s.pc + 1,
                         marks := {}, cycles := s.cycles + 2 }) ∧
    (countValue s c = 0 ∨ 0x8000 ≤ countValue s c → exec (.rep c) s = .fault .badCount)

/-- A repeat target is executed exactly RC times (R342; the last clause takes D14, R354): from a repeat
in progress with n + 1 executions left, the first n + 1 executions of a word keep PC and count RC down,
the last ends the repeat and, where no loop is active, advances PC. -/
def Obligations.RepeatRunsItsTargetCountTimes : Prop :=
  ∀ (i : Instr) (n : Nat) (f : Nat → State), (f 0).rf = false → (f 0).rc.toNat = n + 1 →
    (∀ k, k ≤ n → exec i (f k) = .next (f (k + 1))) →
    (∀ k, k ≤ n → (f k).pc = (f 0).pc ∧ (f k).rf = false ∧ (f k).rc.toNat = n + 1 - k) ∧
    (f (n + 1)).rf = true ∧
    ((∀ k, k ≤ n + 1 → (f k).lsp = 0) → (f (n + 1)).pc = (f 0).pc + 1)

/-- LOOP (R345, R346, R349 b): LSA, LEA and LC are pushed and take the first and last address of the body
and the count (no word is marked unwritten, log 10); a full loop stack, a bad count and an end shared with
the enclosing loop are faults, in this order (log 30). -/
def Obligations.LoopPushesAndStarts : Prop :=
  ∀ (c : Count) (rle : Byte) (s : State) (e : Word16), PlaceFree s →
    e = BitVec.ofNat 16 (s.pc.toNat + rle.toNat) →
    (∀ k : Fin 4, s.lsp.toNat = k.val → 1 ≤ countValue s c → countValue s c ≤ 0x7FFF →
      ¬ (s.lsp ≠ 0 ∧ e = s.lea) → s.pc ≠ 0xFFFF →
      exec (.loop c rle) s
        = .next { s with lsp := BitVec.ofNat 16 (k.val + 1), lstk := s.lstk.set k ⟨s.lsa, s.lea, s.lc⟩,
                         lsa := s.pc + 1, lea := e, lc := BitVec.ofNat 16 (countValue s c),
                         pc := s.pc + 1, marks := { acceptHold := true },
                         cycles := s.cycles + 2 }) ∧
    (4 ≤ s.lsp.toNat → exec (.loop c rle) s = .fault .loopStackOverflow) ∧
    (s.lsp.toNat ≤ 3 → countValue s c = 0 ∨ 0x8000 ≤ countValue s c →
      exec (.loop c rle) s = .fault .badCount) ∧
    (s.lsp.toNat ≤ 3 → 1 ≤ countValue s c → countValue s c ≤ 0x7FFF → s.lsp ≠ 0 → e = s.lea →
      exec (.loop c rle) s = .fault .forbiddenNearLoopEnd)

/-- LPOP (R351): LC, LEA and LSA come back from the loop stack, LSP goes down, PC advances, also at the LEA
it restores, the model's choice (log 41); with LSP 0 or above 4 it is the fault LoopStackUnderflow. -/
def Obligations.LpopRestoresTheOuterLoop : Prop :=
  ∀ s : State, PlaceFree s →
    (∀ k : Fin 4, s.lsp.toNat = k.val + 1 → s.pc ≠ 0xFFFF →
      exec .lpop s
        = .next { s with lc := s.lstk[k].lc, lea := s.lstk[k].lea, lsa := s.lstk[k].lsa,
                         lsp := BitVec.ofNat 16 k.val, pc := s.pc + 1, marks := {},
                         cycles := s.cycles + 1 }) ∧
    (s.lsp.toNat = 0 ∨ 5 ≤ s.lsp.toNat → exec .lpop s = .fault .loopStackUnderflow)

/-! ## Conditions -/

/-- The predicates of the conditions (R365): comparisons of the 40-bit value with 0, and whether it fits
in 32 bits. -/
def Obligations.ConditionPredicates : Prop :=
  ∀ v : Word40,
    Cond.ever.holds v = true ∧ (Cond.eq0.holds v = true ↔ v.toInt = 0) ∧
    (Cond.ne0.holds v = true ↔ v.toInt ≠ 0) ∧ (Cond.gt0.holds v = true ↔ 0 < v.toInt) ∧
    (Cond.le0.holds v = true ↔ v.toInt ≤ 0) ∧ (Cond.ge0.holds v = true ↔ 0 ≤ v.toInt) ∧
    (Cond.lt0.holds v = true ↔ v.toInt < 0) ∧
    (Cond.eqEx.holds v = true ↔ outside32 v.toInt = true) ∧
    (Cond.neEx.holds v = true ↔ outside32 v.toInt = false)

/-- A statement whose condition fails is a no-operation of one cycle (R152, R321, R365), wherever its
function may stand; for DIV with one register as both operands this is the model's choice (log 40). -/
def Obligations.FailedConditionOnlyEndsTheWord : Prop :=
  ∀ (c : Cond) (top : GReg) (b : CondBody) (s : State), c.holds (s.reg top) = false → CanRetire s →
    (isBranch (.cond c top b) = true → PlaceFree s) →
    (b = .ret ∨ b = .reti → s.marks.stackMoved = false) →
    (b = .reti → ∀ q ∈ s.platform.intSources, s.pc.toNat + 1 ≠ q.vector.toNat) →
    ((∃ rel, b = .call rel) ∨ (∃ dp, b = .creg dp) →
      fetchAt s (s.pc + 1) ≠ .ok .ret ∧ fetchAt s (s.pc + 1) ≠ .ok .reti) →
    Completes (.cond c top b) s {} s

/-- A monomial or MOV whose condition holds acts as the statement without the condition and without
transfers (R152, R310, R366). -/
def Obligations.HoldingConditionRunsTheFunction : Prop :=
  ∀ (c : Cond) (top : GReg) (s : State), c.holds (s.reg top) = true →
    (∀ m a b, exec (.cond c top (.mono m a b)) s = exec (m.instr a b ⟨none, none⟩) s) ∧
    (∀ d a r, exec (.cond c top (.mov d a r)) s = exec (.mov d (.addr a) r) s)

/-- A branch whose condition, other than EVER, holds is taken in 3 cycles (R321, R322): the jumps, calls
and returns go where the plain ones go (the return address modulo 2^16, log 26); calls with a full stack and
returns with an empty one are the faults of the plain ones (R327, R332), and RETI outside interrupt
processing only advances PC (R334, D32). -/
def Obligations.TakenConditionalBranches : Prop :=
  ∀ (c : Cond) (top : GReg) (rel : Word16) (n : DReg) (s : State), c ≠ .ever →
    c.holds (s.reg top) = true → PlaceFree s →
    exec (.cond c top (.jmp rel)) s
      = .next { s with pc := BitVec.ofNat 16 (s.pc.toNat + rel.toNat), marks := {},
                       cycles := s.cycles + 3 } ∧
    exec (.cond c top (.jreg n)) s = .next { s with pc := s.ptr n, marks := {}, cycles := s.cycles + 3 } ∧
    (∀ k : Fin 15, s.sp.toNat = k.val → fetchAt s (s.pc + 1) ≠ .ok .ret →
      fetchAt s (s.pc + 1) ≠ .ok .reti →
      exec (.cond c top (.call rel)) s
        = .next { s with sp := BitVec.ofNat 16 (k.val + 1), stk := s.stk.set k (s.pc + 1),
                         pc := BitVec.ofNat 16 (s.pc.toNat + rel.toNat), marks := {},
                         cycles := s.cycles + 3 } ∧
      exec (.cond c top (.creg n)) s
        = .next { s with sp := BitVec.ofNat 16 (k.val + 1), stk := s.stk.set k (s.pc + 1),
                         pc := s.ptr n, marks := {}, cycles := s.cycles + 3 }) ∧
    (15 ≤ s.sp.toNat → fetchAt s (s.pc + 1) ≠ .ok .ret → fetchAt s (s.pc + 1) ≠ .ok .reti →
      exec (.cond c top (.call rel)) s = .fault .stackOverflow ∧
      exec (.cond c top (.creg n)) s = .fault .stackOverflow) ∧
    (∀ k : Fin 15, s.sp.toNat = k.val + 1 → s.marks.stackMoved = false →
      exec (.cond c top .ret) s
        = .next { s with pc := s.stk[k], sp := BitVec.ofNat 16 k.val, marks := {},
                         cycles := s.cycles + 3 } ∧
      ((∀ q ∈ s.platform.intSources, s.pc.toNat + 1 ≠ q.vector.toNat) → s.intDepth ≠ 0 →
        s.platform.eirWidth ≤ 16 →
        exec (.cond c top .reti) s
          = .next { s with
              pc := s.stk[k], sp := BitVec.ofNat 16 k.val, intDepth := s.intDepth - 1
              sr := (Config.restoreIE s.sr s.eir).1 ++ s.sr.extractLsb' 0 13
              eir := BitVec.ofNat 16
                ((Config.restoreIE s.sr s.eir).2.toNat % 2 ^ s.platform.eirWidth)
              marks := {}, cycles := s.cycles + 3 })) ∧
    (s.marks.stackMoved = false → s.sp.toNat = 0 ∨ 16 ≤ s.sp.toNat →
      exec (.cond c top .ret) s = .fault .stackUnderflow ∧
      ((∀ q ∈ s.platform.intSources, s.pc.toNat + 1 ≠ q.vector.toNat) → s.intDepth ≠ 0 →
        exec (.cond c top .reti) s = .fault .stackUnderflow)) ∧
    (s.marks.stackMoved = false → (∀ q ∈ s.platform.intSources, s.pc.toNat + 1 ≠ q.vector.toNat) →
      s.intDepth = 0 → s.pc ≠ 0xFFFF →
      exec (.cond c top .reti) s = .next { s with pc := s.pc + 1, marks := {}, cycles := s.cycles + 3 })
end

