-- ==== Sys2Proof/Laws/State.lean ====
section
/-! SUPPORT. One lemma per field per update of the state: what an update leaves alone, and the new value
of a field it writes where that needs no case split. -/

namespace Sys2Proof.Machine

/-! ## Registers -/

@[simp] theorem State.setReg_r (s : State) (i : GReg) (v : Word40) :
    (s.setReg i v).r = s.r.set i v := rfl
@[simp] theorem State.setReg_pc (s : State) (i : GReg) (v : Word40) : (s.setReg i v).pc = s.pc := rfl
@[simp] theorem State.setReg_dp (s : State) (i : GReg) (v : Word40) : (s.setReg i v).dp = s.dp := rfl
@[simp] theorem State.setReg_dn (s : State) (i : GReg) (v : Word40) : (s.setReg i v).dn = s.dn := rfl
@[simp] theorem State.setReg_dmx (s : State) (i : GReg) (v : Word40) : (s.setReg i v).dmx = s.dmx := rfl
@[simp] theorem State.setReg_dmy (s : State) (i : GReg) (v : Word40) : (s.setReg i v).dmy = s.dmy := rfl
@[simp] theorem State.setReg_sp (s : State) (i : GReg) (v : Word40) : (s.setReg i v).sp = s.sp := rfl
@[simp] theorem State.setReg_stk (s : State) (i : GReg) (v : Word40) : (s.setReg i v).stk = s.stk := rfl
@[simp] theorem State.setReg_lc (s : State) (i : GReg) (v : Word40) : (s.setReg i v).lc = s.lc := rfl
@[simp] theorem State.setReg_lsa (s : State) (i : GReg) (v : Word40) : (s.setReg i v).lsa = s.lsa := rfl
@[simp] theorem State.setReg_lea (s : State) (i : GReg) (v : Word40) : (s.setReg i v).lea = s.lea := rfl
@[simp] theorem State.setReg_lsp (s : State) (i : GReg) (v : Word40) : (s.setReg i v).lsp = s.lsp := rfl
@[simp] theorem State.setReg_lstk (s : State) (i : GReg) (v : Word40) : (s.setReg i v).lstk = s.lstk := rfl
@[simp] theorem State.setReg_rc (s : State) (i : GReg) (v : Word40) : (s.setReg i v).rc = s.rc := rfl
@[simp] theorem State.setReg_rf (s : State) (i : GReg) (v : Word40) : (s.setReg i v).rf = s.rf := rfl
@[simp] theorem State.setReg_sr (s : State) (i : GReg) (v : Word40) : (s.setReg i v).sr = s.sr := rfl
@[simp] theorem State.setReg_eir (s : State) (i : GReg) (v : Word40) : (s.setReg i v).eir = s.eir := rfl
@[simp] theorem State.setReg_esr (s : State) (i : GReg) (v : Word40) : (s.setReg i v).esr = s.esr := rfl
@[simp] theorem State.setReg_mode (s : State) (i : GReg) (v : Word40) : (s.setReg i v).mode = s.mode := rfl
@[simp] theorem State.setReg_pending (s : State) (i : GReg) (v : Word40) : (s.setReg i v).pending = s.pending := rfl
@[simp] theorem State.setReg_intDepth (s : State) (i : GReg) (v : Word40) : (s.setReg i v).intDepth = s.intDepth := rfl
@[simp] theorem State.setReg_marks (s : State) (i : GReg) (v : Word40) : (s.setReg i v).marks = s.marks := rfl
@[simp] theorem State.setReg_draws (s : State) (i : GReg) (v : Word40) : (s.setReg i v).draws = s.draws := rfl
@[simp] theorem State.setReg_cycles (s : State) (i : GReg) (v : Word40) : (s.setReg i v).cycles = s.cycles := rfl
@[simp] theorem State.setReg_imem (s : State) (i : GReg) (v : Word40) : (s.setReg i v).imem = s.imem := rfl
@[simp] theorem State.setReg_xmem (s : State) (i : GReg) (v : Word40) : (s.setReg i v).xmem = s.xmem := rfl
@[simp] theorem State.setReg_ymem (s : State) (i : GReg) (v : Word40) : (s.setReg i v).ymem = s.ymem := rfl
@[simp] theorem State.setReg_platform (s : State) (i : GReg) (v : Word40) : (s.setReg i v).platform = s.platform := rfl

@[simp] theorem State.setPtr_r (s : State) (n : DReg) (v : Word16) : (s.setPtr n v).r = s.r := rfl
@[simp] theorem State.setPtr_pc (s : State) (n : DReg) (v : Word16) : (s.setPtr n v).pc = s.pc := rfl
@[simp] theorem State.setPtr_dp (s : State) (n : DReg) (v : Word16) :
    (s.setPtr n v).dp = s.dp.set n v := rfl
@[simp] theorem State.setPtr_dn (s : State) (n : DReg) (v : Word16) : (s.setPtr n v).dn = s.dn := rfl
@[simp] theorem State.setPtr_dmx (s : State) (n : DReg) (v : Word16) : (s.setPtr n v).dmx = s.dmx := rfl
@[simp] theorem State.setPtr_dmy (s : State) (n : DReg) (v : Word16) : (s.setPtr n v).dmy = s.dmy := rfl
@[simp] theorem State.setPtr_sp (s : State) (n : DReg) (v : Word16) : (s.setPtr n v).sp = s.sp := rfl
@[simp] theorem State.setPtr_stk (s : State) (n : DReg) (v : Word16) : (s.setPtr n v).stk = s.stk := rfl
@[simp] theorem State.setPtr_lc (s : State) (n : DReg) (v : Word16) : (s.setPtr n v).lc = s.lc := rfl
@[simp] theorem State.setPtr_lsa (s : State) (n : DReg) (v : Word16) : (s.setPtr n v).lsa = s.lsa := rfl
@[simp] theorem State.setPtr_lea (s : State) (n : DReg) (v : Word16) : (s.setPtr n v).lea = s.lea := rfl
@[simp] theorem State.setPtr_lsp (s : State) (n : DReg) (v : Word16) : (s.setPtr n v).lsp = s.lsp := rfl
@[simp] theorem State.setPtr_lstk (s : State) (n : DReg) (v : Word16) : (s.setPtr n v).lstk = s.lstk := rfl
@[simp] theorem State.setPtr_rc (s : State) (n : DReg) (v : Word16) : (s.setPtr n v).rc = s.rc := rfl
@[simp] theorem State.setPtr_rf (s : State) (n : DReg) (v : Word16) : (s.setPtr n v).rf = s.rf := rfl
@[simp] theorem State.setPtr_sr (s : State) (n : DReg) (v : Word16) : (s.setPtr n v).sr = s.sr := rfl
@[simp] theorem State.setPtr_eir (s : State) (n : DReg) (v : Word16) : (s.setPtr n v).eir = s.eir := rfl
@[simp] theorem State.setPtr_esr (s : State) (n : DReg) (v : Word16) : (s.setPtr n v).esr = s.esr := rfl
@[simp] theorem State.setPtr_mode (s : State) (n : DReg) (v : Word16) : (s.setPtr n v).mode = s.mode := rfl
@[simp] theorem State.setPtr_pending (s : State) (n : DReg) (v : Word16) : (s.setPtr n v).pending = s.pending := rfl
@[simp] theorem State.setPtr_intDepth (s : State) (n : DReg) (v : Word16) : (s.setPtr n v).intDepth = s.intDepth := rfl
@[simp] theorem State.setPtr_marks (s : State) (n : DReg) (v : Word16) : (s.setPtr n v).marks = s.marks := rfl
@[simp] theorem State.setPtr_draws (s : State) (n : DReg) (v : Word16) : (s.setPtr n v).draws = s.draws := rfl
@[simp] theorem State.setPtr_cycles (s : State) (n : DReg) (v : Word16) : (s.setPtr n v).cycles = s.cycles := rfl
@[simp] theorem State.setPtr_imem (s : State) (n : DReg) (v : Word16) : (s.setPtr n v).imem = s.imem := rfl
@[simp] theorem State.setPtr_xmem (s : State) (n : DReg) (v : Word16) : (s.setPtr n v).xmem = s.xmem := rfl
@[simp] theorem State.setPtr_ymem (s : State) (n : DReg) (v : Word16) : (s.setPtr n v).ymem = s.ymem := rfl
@[simp] theorem State.setPtr_platform (s : State) (n : DReg) (v : Word16) : (s.setPtr n v).platform = s.platform := rfl

@[simp] theorem State.setIdx_r (s : State) (n : DReg) (v : Word16) : (s.setIdx n v).r = s.r := rfl
@[simp] theorem State.setIdx_pc (s : State) (n : DReg) (v : Word16) : (s.setIdx n v).pc = s.pc := rfl
@[simp] theorem State.setIdx_dp (s : State) (n : DReg) (v : Word16) : (s.setIdx n v).dp = s.dp := rfl
@[simp] theorem State.setIdx_dn (s : State) (n : DReg) (v : Word16) :
    (s.setIdx n v).dn = s.dn.set n v := rfl
@[simp] theorem State.setIdx_dmx (s : State) (n : DReg) (v : Word16) : (s.setIdx n v).dmx = s.dmx := rfl
@[simp] theorem State.setIdx_dmy (s : State) (n : DReg) (v : Word16) : (s.setIdx n v).dmy = s.dmy := rfl
@[simp] theorem State.setIdx_sp (s : State) (n : DReg) (v : Word16) : (s.setIdx n v).sp = s.sp := rfl
@[simp] theorem State.setIdx_stk (s : State) (n : DReg) (v : Word16) : (s.setIdx n v).stk = s.stk := rfl
@[simp] theorem State.setIdx_lc (s : State) (n : DReg) (v : Word16) : (s.setIdx n v).lc = s.lc := rfl
@[simp] theorem State.setIdx_lsa (s : State) (n : DReg) (v : Word16) : (s.setIdx n v).lsa = s.lsa := rfl
@[simp] theorem State.setIdx_lea (s : State) (n : DReg) (v : Word16) : (s.setIdx n v).lea = s.lea := rfl
@[simp] theorem State.setIdx_lsp (s : State) (n : DReg) (v : Word16) : (s.setIdx n v).lsp = s.lsp := rfl
@[simp] theorem State.setIdx_lstk (s : State) (n : DReg) (v : Word16) : (s.setIdx n v).lstk = s.lstk := rfl
@[simp] theorem State.setIdx_rc (s : State) (n : DReg) (v : Word16) : (s.setIdx n v).rc = s.rc := rfl
@[simp] theorem State.setIdx_rf (s : State) (n : DReg) (v : Word16) : (s.setIdx n v).rf = s.rf := rfl
@[simp] theorem State.setIdx_sr (s : State) (n : DReg) (v : Word16) : (s.setIdx n v).sr = s.sr := rfl
@[simp] theorem State.setIdx_eir (s : State) (n : DReg) (v : Word16) : (s.setIdx n v).eir = s.eir := rfl
@[simp] theorem State.setIdx_esr (s : State) (n : DReg) (v : Word16) : (s.setIdx n v).esr = s.esr := rfl
@[simp] theorem State.setIdx_mode (s : State) (n : DReg) (v : Word16) : (s.setIdx n v).mode = s.mode := rfl
@[simp] theorem State.setIdx_pending (s : State) (n : DReg) (v : Word16) : (s.setIdx n v).pending = s.pending := rfl
@[simp] theorem State.setIdx_intDepth (s : State) (n : DReg) (v : Word16) : (s.setIdx n v).intDepth = s.intDepth := rfl
@[simp] theorem State.setIdx_marks (s : State) (n : DReg) (v : Word16) : (s.setIdx n v).marks = s.marks := rfl
@[simp] theorem State.setIdx_draws (s : State) (n : DReg) (v : Word16) : (s.setIdx n v).draws = s.draws := rfl
@[simp] theorem State.setIdx_cycles (s : State) (n : DReg) (v : Word16) : (s.setIdx n v).cycles = s.cycles := rfl
@[simp] theorem State.setIdx_imem (s : State) (n : DReg) (v : Word16) : (s.setIdx n v).imem = s.imem := rfl
@[simp] theorem State.setIdx_xmem (s : State) (n : DReg) (v : Word16) : (s.setIdx n v).xmem = s.xmem := rfl
@[simp] theorem State.setIdx_ymem (s : State) (n : DReg) (v : Word16) : (s.setIdx n v).ymem = s.ymem := rfl
@[simp] theorem State.setIdx_platform (s : State) (n : DReg) (v : Word16) : (s.setIdx n v).platform = s.platform := rfl

@[simp] theorem State.setLow_pc (s : State) (i : GReg) (v : Word16) : (s.setLow i v).pc = s.pc := rfl
@[simp] theorem State.setLow_dp (s : State) (i : GReg) (v : Word16) : (s.setLow i v).dp = s.dp := rfl
@[simp] theorem State.setLow_dn (s : State) (i : GReg) (v : Word16) : (s.setLow i v).dn = s.dn := rfl
@[simp] theorem State.setLow_dmx (s : State) (i : GReg) (v : Word16) : (s.setLow i v).dmx = s.dmx := rfl
@[simp] theorem State.setLow_dmy (s : State) (i : GReg) (v : Word16) : (s.setLow i v).dmy = s.dmy := rfl
@[simp] theorem State.setLow_sp (s : State) (i : GReg) (v : Word16) : (s.setLow i v).sp = s.sp := rfl
@[simp] theorem State.setLow_stk (s : State) (i : GReg) (v : Word16) : (s.setLow i v).stk = s.stk := rfl
@[simp] theorem State.setLow_lc (s : State) (i : GReg) (v : Word16) : (s.setLow i v).lc = s.lc := rfl
@[simp] theorem State.setLow_lsa (s : State) (i : GReg) (v : Word16) : (s.setLow i v).lsa = s.lsa := rfl
@[simp] theorem State.setLow_lea (s : State) (i : GReg) (v : Word16) : (s.setLow i v).lea = s.lea := rfl
@[simp] theorem State.setLow_lsp (s : State) (i : GReg) (v : Word16) : (s.setLow i v).lsp = s.lsp := rfl
@[simp] theorem State.setLow_lstk (s : State) (i : GReg) (v : Word16) : (s.setLow i v).lstk = s.lstk := rfl
@[simp] theorem State.setLow_rc (s : State) (i : GReg) (v : Word16) : (s.setLow i v).rc = s.rc := rfl
@[simp] theorem State.setLow_rf (s : State) (i : GReg) (v : Word16) : (s.setLow i v).rf = s.rf := rfl
@[simp] theorem State.setLow_sr (s : State) (i : GReg) (v : Word16) : (s.setLow i v).sr = s.sr := rfl
@[simp] theorem State.setLow_eir (s : State) (i : GReg) (v : Word16) : (s.setLow i v).eir = s.eir := rfl
@[simp] theorem State.setLow_esr (s : State) (i : GReg) (v : Word16) : (s.setLow i v).esr = s.esr := rfl
@[simp] theorem State.setLow_mode (s : State) (i : GReg) (v : Word16) : (s.setLow i v).mode = s.mode := rfl
@[simp] theorem State.setLow_pending (s : State) (i : GReg) (v : Word16) : (s.setLow i v).pending = s.pending := rfl
@[simp] theorem State.setLow_intDepth (s : State) (i : GReg) (v : Word16) : (s.setLow i v).intDepth = s.intDepth := rfl
@[simp] theorem State.setLow_marks (s : State) (i : GReg) (v : Word16) : (s.setLow i v).marks = s.marks := rfl
@[simp] theorem State.setLow_draws (s : State) (i : GReg) (v : Word16) : (s.setLow i v).draws = s.draws := rfl
@[simp] theorem State.setLow_cycles (s : State) (i : GReg) (v : Word16) : (s.setLow i v).cycles = s.cycles := rfl
@[simp] theorem State.setLow_imem (s : State) (i : GReg) (v : Word16) : (s.setLow i v).imem = s.imem := rfl
@[simp] theorem State.setLow_xmem (s : State) (i : GReg) (v : Word16) : (s.setLow i v).xmem = s.xmem := rfl
@[simp] theorem State.setLow_ymem (s : State) (i : GReg) (v : Word16) : (s.setLow i v).ymem = s.ymem := rfl
@[simp] theorem State.setLow_platform (s : State) (i : GReg) (v : Word16) : (s.setLow i v).platform = s.platform := rfl

@[simp] theorem State.writeAlu_r (s : State) (rd : GReg) (o : AluOut) :
    (s.writeAlu rd o).r = s.r.set rd o.value := rfl
@[simp] theorem State.writeAlu_pc (s : State) (rd : GReg) (o : AluOut) : (s.writeAlu rd o).pc = s.pc := rfl
@[simp] theorem State.writeAlu_dp (s : State) (rd : GReg) (o : AluOut) : (s.writeAlu rd o).dp = s.dp := rfl
@[simp] theorem State.writeAlu_dn (s : State) (rd : GReg) (o : AluOut) : (s.writeAlu rd o).dn = s.dn := rfl
@[simp] theorem State.writeAlu_dmx (s : State) (rd : GReg) (o : AluOut) : (s.writeAlu rd o).dmx = s.dmx := rfl
@[simp] theorem State.writeAlu_dmy (s : State) (rd : GReg) (o : AluOut) : (s.writeAlu rd o).dmy = s.dmy := rfl
@[simp] theorem State.writeAlu_sp (s : State) (rd : GReg) (o : AluOut) : (s.writeAlu rd o).sp = s.sp := rfl
@[simp] theorem State.writeAlu_stk (s : State) (rd : GReg) (o : AluOut) : (s.writeAlu rd o).stk = s.stk := rfl
@[simp] theorem State.writeAlu_lc (s : State) (rd : GReg) (o : AluOut) : (s.writeAlu rd o).lc = s.lc := rfl
@[simp] theorem State.writeAlu_lsa (s : State) (rd : GReg) (o : AluOut) : (s.writeAlu rd o).lsa = s.lsa := rfl
@[simp] theorem State.writeAlu_lea (s : State) (rd : GReg) (o : AluOut) : (s.writeAlu rd o).lea = s.lea := rfl
@[simp] theorem State.writeAlu_lsp (s : State) (rd : GReg) (o : AluOut) : (s.writeAlu rd o).lsp = s.lsp := rfl
@[simp] theorem State.writeAlu_lstk (s : State) (rd : GReg) (o : AluOut) : (s.writeAlu rd o).lstk = s.lstk := rfl
@[simp] theorem State.writeAlu_rc (s : State) (rd : GReg) (o : AluOut) : (s.writeAlu rd o).rc = s.rc := rfl
@[simp] theorem State.writeAlu_rf (s : State) (rd : GReg) (o : AluOut) : (s.writeAlu rd o).rf = s.rf := rfl
@[simp] theorem State.writeAlu_sr (s : State) (rd : GReg) (o : AluOut) : (s.writeAlu rd o).sr = s.sr := rfl
@[simp] theorem State.writeAlu_eir (s : State) (rd : GReg) (o : AluOut) : (s.writeAlu rd o).eir = s.eir := rfl
@[simp] theorem State.writeAlu_esr (s : State) (rd : GReg) (o : AluOut) :
    (s.writeAlu rd o).esr = s.esrAfter o.overflow := rfl
@[simp] theorem State.writeAlu_mode (s : State) (rd : GReg) (o : AluOut) : (s.writeAlu rd o).mode = s.mode := rfl
@[simp] theorem State.writeAlu_pending (s : State) (rd : GReg) (o : AluOut) : (s.writeAlu rd o).pending = s.pending := rfl
@[simp] theorem State.writeAlu_intDepth (s : State) (rd : GReg) (o : AluOut) : (s.writeAlu rd o).intDepth = s.intDepth := rfl
@[simp] theorem State.writeAlu_marks (s : State) (rd : GReg) (o : AluOut) : (s.writeAlu rd o).marks = s.marks := rfl
@[simp] theorem State.writeAlu_draws (s : State) (rd : GReg) (o : AluOut) :
    (s.writeAlu rd o).draws = s.draws + (if o.drawn then 1 else 0) := rfl
@[simp] theorem State.writeAlu_cycles (s : State) (rd : GReg) (o : AluOut) : (s.writeAlu rd o).cycles = s.cycles := rfl
@[simp] theorem State.writeAlu_imem (s : State) (rd : GReg) (o : AluOut) : (s.writeAlu rd o).imem = s.imem := rfl
@[simp] theorem State.writeAlu_xmem (s : State) (rd : GReg) (o : AluOut) : (s.writeAlu rd o).xmem = s.xmem := rfl
@[simp] theorem State.writeAlu_ymem (s : State) (rd : GReg) (o : AluOut) : (s.writeAlu rd o).ymem = s.ymem := rfl
@[simp] theorem State.writeAlu_platform (s : State) (rd : GReg) (o : AluOut) : (s.writeAlu rd o).platform = s.platform := rfl

@[simp] theorem State.setLowFrom_pc (s : State) (i : GReg) (w : Nat) (v : Word16) : (s.setLowFrom i w v).pc = s.pc := rfl
@[simp] theorem State.setLowFrom_dp (s : State) (i : GReg) (w : Nat) (v : Word16) : (s.setLowFrom i w v).dp = s.dp := rfl
@[simp] theorem State.setLowFrom_dn (s : State) (i : GReg) (w : Nat) (v : Word16) : (s.setLowFrom i w v).dn = s.dn := rfl
@[simp] theorem State.setLowFrom_dmx (s : State) (i : GReg) (w : Nat) (v : Word16) : (s.setLowFrom i w v).dmx = s.dmx := rfl
@[simp] theorem State.setLowFrom_dmy (s : State) (i : GReg) (w : Nat) (v : Word16) : (s.setLowFrom i w v).dmy = s.dmy := rfl
@[simp] theorem State.setLowFrom_sp (s : State) (i : GReg) (w : Nat) (v : Word16) : (s.setLowFrom i w v).sp = s.sp := rfl
@[simp] theorem State.setLowFrom_stk (s : State) (i : GReg) (w : Nat) (v : Word16) : (s.setLowFrom i w v).stk = s.stk := rfl
@[simp] theorem State.setLowFrom_lc (s : State) (i : GReg) (w : Nat) (v : Word16) : (s.setLowFrom i w v).lc = s.lc := rfl
@[simp] theorem State.setLowFrom_lsa (s : State) (i : GReg) (w : Nat) (v : Word16) : (s.setLowFrom i w v).lsa = s.lsa := rfl
@[simp] theorem State.setLowFrom_lea (s : State) (i : GReg) (w : Nat) (v : Word16) : (s.setLowFrom i w v).lea = s.lea := rfl
@[simp] theorem State.setLowFrom_lsp (s : State) (i : GReg) (w : Nat) (v : Word16) : (s.setLowFrom i w v).lsp = s.lsp := rfl
@[simp] theorem State.setLowFrom_lstk (s : State) (i : GReg) (w : Nat) (v : Word16) : (s.setLowFrom i w v).lstk = s.lstk := rfl
@[simp] theorem State.setLowFrom_rc (s : State) (i : GReg) (w : Nat) (v : Word16) : (s.setLowFrom i w v).rc = s.rc := rfl
@[simp] theorem State.setLowFrom_rf (s : State) (i : GReg) (w : Nat) (v : Word16) : (s.setLowFrom i w v).rf = s.rf := rfl
@[simp] theorem State.setLowFrom_sr (s : State) (i : GReg) (w : Nat) (v : Word16) : (s.setLowFrom i w v).sr = s.sr := rfl
@[simp] theorem State.setLowFrom_eir (s : State) (i : GReg) (w : Nat) (v : Word16) : (s.setLowFrom i w v).eir = s.eir := rfl
@[simp] theorem State.setLowFrom_esr (s : State) (i : GReg) (w : Nat) (v : Word16) : (s.setLowFrom i w v).esr = s.esr := rfl
@[simp] theorem State.setLowFrom_mode (s : State) (i : GReg) (w : Nat) (v : Word16) : (s.setLowFrom i w v).mode = s.mode := rfl
@[simp] theorem State.setLowFrom_pending (s : State) (i : GReg) (w : Nat) (v : Word16) : (s.setLowFrom i w v).pending = s.pending := rfl
@[simp] theorem State.setLowFrom_intDepth (s : State) (i : GReg) (w : Nat) (v : Word16) : (s.setLowFrom i w v).intDepth = s.intDepth := rfl
@[simp] theorem State.setLowFrom_marks (s : State) (i : GReg) (w : Nat) (v : Word16) : (s.setLowFrom i w v).marks = s.marks := rfl
@[simp] theorem State.setLowFrom_cycles (s : State) (i : GReg) (w : Nat) (v : Word16) : (s.setLowFrom i w v).cycles = s.cycles := rfl
@[simp] theorem State.setLowFrom_imem (s : State) (i : GReg) (w : Nat) (v : Word16) : (s.setLowFrom i w v).imem = s.imem := rfl
@[simp] theorem State.setLowFrom_xmem (s : State) (i : GReg) (w : Nat) (v : Word16) : (s.setLowFrom i w v).xmem = s.xmem := rfl
@[simp] theorem State.setLowFrom_ymem (s : State) (i : GReg) (w : Nat) (v : Word16) : (s.setLowFrom i w v).ymem = s.ymem := rfl
@[simp] theorem State.setLowFrom_platform (s : State) (i : GReg) (w : Nat) (v : Word16) : (s.setLowFrom i w v).platform = s.platform := rfl

@[simp] theorem State.setEnables_r (s : State) (v : BitVec 3 × Word16) : (s.setEnables v).r = s.r := rfl
@[simp] theorem State.setEnables_pc (s : State) (v : BitVec 3 × Word16) : (s.setEnables v).pc = s.pc := rfl
@[simp] theorem State.setEnables_dp (s : State) (v : BitVec 3 × Word16) : (s.setEnables v).dp = s.dp := rfl
@[simp] theorem State.setEnables_dn (s : State) (v : BitVec 3 × Word16) : (s.setEnables v).dn = s.dn := rfl
@[simp] theorem State.setEnables_dmx (s : State) (v : BitVec 3 × Word16) : (s.setEnables v).dmx = s.dmx := rfl
@[simp] theorem State.setEnables_dmy (s : State) (v : BitVec 3 × Word16) : (s.setEnables v).dmy = s.dmy := rfl
@[simp] theorem State.setEnables_sp (s : State) (v : BitVec 3 × Word16) : (s.setEnables v).sp = s.sp := rfl
@[simp] theorem State.setEnables_stk (s : State) (v : BitVec 3 × Word16) : (s.setEnables v).stk = s.stk := rfl
@[simp] theorem State.setEnables_lc (s : State) (v : BitVec 3 × Word16) : (s.setEnables v).lc = s.lc := rfl
@[simp] theorem State.setEnables_lsa (s : State) (v : BitVec 3 × Word16) : (s.setEnables v).lsa = s.lsa := rfl
@[simp] theorem State.setEnables_lea (s : State) (v : BitVec 3 × Word16) : (s.setEnables v).lea = s.lea := rfl
@[simp] theorem State.setEnables_lsp (s : State) (v : BitVec 3 × Word16) : (s.setEnables v).lsp = s.lsp := rfl
@[simp] theorem State.setEnables_lstk (s : State) (v : BitVec 3 × Word16) : (s.setEnables v).lstk = s.lstk := rfl
@[simp] theorem State.setEnables_rc (s : State) (v : BitVec 3 × Word16) : (s.setEnables v).rc = s.rc := rfl
@[simp] theorem State.setEnables_rf (s : State) (v : BitVec 3 × Word16) : (s.setEnables v).rf = s.rf := rfl
@[simp] theorem State.setEnables_sr (s : State) (v : BitVec 3 × Word16) :
    (s.setEnables v).sr = withEnableBits v.1 s.sr := rfl
@[simp] theorem State.setEnables_eir (s : State) (v : BitVec 3 × Word16) :
    (s.setEnables v).eir = narrowed s.platform.eirWidth v.2 := rfl
@[simp] theorem State.setEnables_esr (s : State) (v : BitVec 3 × Word16) : (s.setEnables v).esr = s.esr := rfl
@[simp] theorem State.setEnables_mode (s : State) (v : BitVec 3 × Word16) : (s.setEnables v).mode = s.mode := rfl
@[simp] theorem State.setEnables_pending (s : State) (v : BitVec 3 × Word16) : (s.setEnables v).pending = s.pending := rfl
@[simp] theorem State.setEnables_intDepth (s : State) (v : BitVec 3 × Word16) : (s.setEnables v).intDepth = s.intDepth := rfl
@[simp] theorem State.setEnables_marks (s : State) (v : BitVec 3 × Word16) : (s.setEnables v).marks = s.marks := rfl
@[simp] theorem State.setEnables_draws (s : State) (v : BitVec 3 × Word16) : (s.setEnables v).draws = s.draws := rfl
@[simp] theorem State.setEnables_cycles (s : State) (v : BitVec 3 × Word16) : (s.setEnables v).cycles = s.cycles := rfl
@[simp] theorem State.setEnables_imem (s : State) (v : BitVec 3 × Word16) : (s.setEnables v).imem = s.imem := rfl
@[simp] theorem State.setEnables_xmem (s : State) (v : BitVec 3 × Word16) : (s.setEnables v).xmem = s.xmem := rfl
@[simp] theorem State.setEnables_ymem (s : State) (v : BitVec 3 × Word16) : (s.setEnables v).ymem = s.ymem := rfl
@[simp] theorem State.setEnables_platform (s : State) (v : BitVec 3 × Word16) : (s.setEnables v).platform = s.platform := rfl


/-! ## Memory -/

@[simp] theorem State.setData_r (s : State) (p : Space) (m : Memory) : (s.setData p m).r = s.r := by cases p <;> rfl
@[simp] theorem State.setData_pc (s : State) (p : Space) (m : Memory) : (s.setData p m).pc = s.pc := by cases p <;> rfl
@[simp] theorem State.setData_dp (s : State) (p : Space) (m : Memory) : (s.setData p m).dp = s.dp := by cases p <;> rfl
@[simp] theorem State.setData_dn (s : State) (p : Space) (m : Memory) : (s.setData p m).dn = s.dn := by cases p <;> rfl
@[simp] theorem State.setData_dmx (s : State) (p : Space) (m : Memory) : (s.setData p m).dmx = s.dmx := by cases p <;> rfl
@[simp] theorem State.setData_dmy (s : State) (p : Space) (m : Memory) : (s.setData p m).dmy = s.dmy := by cases p <;> rfl
@[simp] theorem State.setData_sp (s : State) (p : Space) (m : Memory) : (s.setData p m).sp = s.sp := by cases p <;> rfl
@[simp] theorem State.setData_stk (s : State) (p : Space) (m : Memory) : (s.setData p m).stk = s.stk := by cases p <;> rfl
@[simp] theorem State.setData_lc (s : State) (p : Space) (m : Memory) : (s.setData p m).lc = s.lc := by cases p <;> rfl
@[simp] theorem State.setData_lsa (s : State) (p : Space) (m : Memory) : (s.setData p m).lsa = s.lsa := by cases p <;> rfl
@[simp] theorem State.setData_lea (s : State) (p : Space) (m : Memory) : (s.setData p m).lea = s.lea := by cases p <;> rfl
@[simp] theorem State.setData_lsp (s : State) (p : Space) (m : Memory) : (s.setData p m).lsp = s.lsp := by cases p <;> rfl
@[simp] theorem State.setData_lstk (s : State) (p : Space) (m : Memory) : (s.setData p m).lstk = s.lstk := by cases p <;> rfl
@[simp] theorem State.setData_rc (s : State) (p : Space) (m : Memory) : (s.setData p m).rc = s.rc := by cases p <;> rfl
@[simp] theorem State.setData_rf (s : State) (p : Space) (m : Memory) : (s.setData p m).rf = s.rf := by cases p <;> rfl
@[simp] theorem State.setData_sr (s : State) (p : Space) (m : Memory) : (s.setData p m).sr = s.sr := by cases p <;> rfl
@[simp] theorem State.setData_eir (s : State) (p : Space) (m : Memory) : (s.setData p m).eir = s.eir := by cases p <;> rfl
@[simp] theorem State.setData_esr (s : State) (p : Space) (m : Memory) : (s.setData p m).esr = s.esr := by cases p <;> rfl
@[simp] theorem State.setData_mode (s : State) (p : Space) (m : Memory) : (s.setData p m).mode = s.mode := by cases p <;> rfl
@[simp] theorem State.setData_pending (s : State) (p : Space) (m : Memory) : (s.setData p m).pending = s.pending := by cases p <;> rfl
@[simp] theorem State.setData_intDepth (s : State) (p : Space) (m : Memory) : (s.setData p m).intDepth = s.intDepth := by cases p <;> rfl
@[simp] theorem State.setData_marks (s : State) (p : Space) (m : Memory) : (s.setData p m).marks = s.marks := by cases p <;> rfl
@[simp] theorem State.setData_draws (s : State) (p : Space) (m : Memory) : (s.setData p m).draws = s.draws := by cases p <;> rfl
@[simp] theorem State.setData_cycles (s : State) (p : Space) (m : Memory) : (s.setData p m).cycles = s.cycles := by cases p <;> rfl
@[simp] theorem State.setData_imem (s : State) (p : Space) (m : Memory) : (s.setData p m).imem = s.imem := by cases p <;> rfl
@[simp] theorem State.setData_platform (s : State) (p : Space) (m : Memory) : (s.setData p m).platform = s.platform := by cases p <;> rfl


/-! ## Stacks -/

@[simp] theorem State.setStackTop_r (s : State) (v : Word16) : (s.setStackTop v).r = s.r := by
  unfold State.setStackTop; split <;> rfl
@[simp] theorem State.setStackTop_pc (s : State) (v : Word16) : (s.setStackTop v).pc = s.pc := by
  unfold State.setStackTop; split <;> rfl
@[simp] theorem State.setStackTop_dp (s : State) (v : Word16) : (s.setStackTop v).dp = s.dp := by
  unfold State.setStackTop; split <;> rfl
@[simp] theorem State.setStackTop_dn (s : State) (v : Word16) : (s.setStackTop v).dn = s.dn := by
  unfold State.setStackTop; split <;> rfl
@[simp] theorem State.setStackTop_dmx (s : State) (v : Word16) : (s.setStackTop v).dmx = s.dmx := by
  unfold State.setStackTop; split <;> rfl
@[simp] theorem State.setStackTop_dmy (s : State) (v : Word16) : (s.setStackTop v).dmy = s.dmy := by
  unfold State.setStackTop; split <;> rfl
@[simp] theorem State.setStackTop_sp (s : State) (v : Word16) : (s.setStackTop v).sp = s.sp := by
  unfold State.setStackTop; split <;> rfl
@[simp] theorem State.setStackTop_lc (s : State) (v : Word16) : (s.setStackTop v).lc = s.lc := by
  unfold State.setStackTop; split <;> rfl
@[simp] theorem State.setStackTop_lsa (s : State) (v : Word16) : (s.setStackTop v).lsa = s.lsa := by
  unfold State.setStackTop; split <;> rfl
@[simp] theorem State.setStackTop_lea (s : State) (v : Word16) : (s.setStackTop v).lea = s.lea := by
  unfold State.setStackTop; split <;> rfl
@[simp] theorem State.setStackTop_lsp (s : State) (v : Word16) : (s.setStackTop v).lsp = s.lsp := by
  unfold State.setStackTop; split <;> rfl
@[simp] theorem State.setStackTop_lstk (s : State) (v : Word16) : (s.setStackTop v).lstk = s.lstk := by
  unfold State.setStackTop; split <;> rfl
@[simp] theorem State.setStackTop_rc (s : State) (v : Word16) : (s.setStackTop v).rc = s.rc := by
  unfold State.setStackTop; split <;> rfl
@[simp] theorem State.setStackTop_rf (s : State) (v : Word16) : (s.setStackTop v).rf = s.rf := by
  unfold State.setStackTop; split <;> rfl
@[simp] theorem State.setStackTop_sr (s : State) (v : Word16) : (s.setStackTop v).sr = s.sr := by
  unfold State.setStackTop; split <;> rfl
@[simp] theorem State.setStackTop_eir (s : State) (v : Word16) : (s.setStackTop v).eir = s.eir := by
  unfold State.setStackTop; split <;> rfl
@[simp] theorem State.setStackTop_esr (s : State) (v : Word16) : (s.setStackTop v).esr = s.esr := by
  unfold State.setStackTop; split <;> rfl
@[simp] theorem State.setStackTop_mode (s : State) (v : Word16) : (s.setStackTop v).mode = s.mode := by
  unfold State.setStackTop; split <;> rfl
@[simp] theorem State.setStackTop_pending (s : State) (v : Word16) : (s.setStackTop v).pending = s.pending := by
  unfold State.setStackTop; split <;> rfl
@[simp] theorem State.setStackTop_intDepth (s : State) (v : Word16) : (s.setStackTop v).intDepth = s.intDepth := by
  unfold State.setStackTop; split <;> rfl
@[simp] theorem State.setStackTop_marks (s : State) (v : Word16) : (s.setStackTop v).marks = s.marks := by
  unfold State.setStackTop; split <;> rfl
@[simp] theorem State.setStackTop_draws (s : State) (v : Word16) : (s.setStackTop v).draws = s.draws := by
  unfold State.setStackTop; split <;> rfl
@[simp] theorem State.setStackTop_cycles (s : State) (v : Word16) : (s.setStackTop v).cycles = s.cycles := by
  unfold State.setStackTop; split <;> rfl
@[simp] theorem State.setStackTop_imem (s : State) (v : Word16) : (s.setStackTop v).imem = s.imem := by
  unfold State.setStackTop; split <;> rfl
@[simp] theorem State.setStackTop_xmem (s : State) (v : Word16) : (s.setStackTop v).xmem = s.xmem := by
  unfold State.setStackTop; split <;> rfl
@[simp] theorem State.setStackTop_ymem (s : State) (v : Word16) : (s.setStackTop v).ymem = s.ymem := by
  unfold State.setStackTop; split <;> rfl
@[simp] theorem State.setStackTop_platform (s : State) (v : Word16) : (s.setStackTop v).platform = s.platform := by
  unfold State.setStackTop; split <;> rfl

@[simp] theorem State.setLoopTop_r (s : State) (e : LoopEntry) : (s.setLoopTop e).r = s.r := by
  unfold State.setLoopTop; split <;> rfl
@[simp] theorem State.setLoopTop_pc (s : State) (e : LoopEntry) : (s.setLoopTop e).pc = s.pc := by
  unfold State.setLoopTop; split <;> rfl
@[simp] theorem State.setLoopTop_dp (s : State) (e : LoopEntry) : (s.setLoopTop e).dp = s.dp := by
  unfold State.setLoopTop; split <;> rfl
@[simp] theorem State.setLoopTop_dn (s : State) (e : LoopEntry) : (s.setLoopTop e).dn = s.dn := by
  unfold State.setLoopTop; split <;> rfl
@[simp] theorem State.setLoopTop_dmx (s : State) (e : LoopEntry) : (s.setLoopTop e).dmx = s.dmx := by
  unfold State.setLoopTop; split <;> rfl
@[simp] theorem State.setLoopTop_dmy (s : State) (e : LoopEntry) : (s.setLoopTop e).dmy = s.dmy := by
  unfold State.setLoopTop; split <;> rfl
@[simp] theorem State.setLoopTop_sp (s : State) (e : LoopEntry) : (s.setLoopTop e).sp = s.sp := by
  unfold State.setLoopTop; split <;> rfl
@[simp] theorem State.setLoopTop_stk (s : State) (e : LoopEntry) : (s.setLoopTop e).stk = s.stk := by
  unfold State.setLoopTop; split <;> rfl
@[simp] theorem State.setLoopTop_lc (s : State) (e : LoopEntry) : (s.setLoopTop e).lc = s.lc := by
  unfold State.setLoopTop; split <;> rfl
@[simp] theorem State.setLoopTop_lsa (s : State) (e : LoopEntry) : (s.setLoopTop e).lsa = s.lsa := by
  unfold State.setLoopTop; split <;> rfl
@[simp] theorem State.setLoopTop_lea (s : State) (e : LoopEntry) : (s.setLoopTop e).lea = s.lea := by
  unfold State.setLoopTop; split <;> rfl
@[simp] theorem State.setLoopTop_lsp (s : State) (e : LoopEntry) : (s.setLoopTop e).lsp = s.lsp := by
  unfold State.setLoopTop; split <;> rfl
@[simp] theorem State.setLoopTop_rc (s : State) (e : LoopEntry) : (s.setLoopTop e).rc = s.rc := by
  unfold State.setLoopTop; split <;> rfl
@[simp] theorem State.setLoopTop_rf (s : State) (e : LoopEntry) : (s.setLoopTop e).rf = s.rf := by
  unfold State.setLoopTop; split <;> rfl
@[simp] theorem State.setLoopTop_sr (s : State) (e : LoopEntry) : (s.setLoopTop e).sr = s.sr := by
  unfold State.setLoopTop; split <;> rfl
@[simp] theorem State.setLoopTop_eir (s : State) (e : LoopEntry) : (s.setLoopTop e).eir = s.eir := by
  unfold State.setLoopTop; split <;> rfl
@[simp] theorem State.setLoopTop_esr (s : State) (e : LoopEntry) : (s.setLoopTop e).esr = s.esr := by
  unfold State.setLoopTop; split <;> rfl
@[simp] theorem State.setLoopTop_mode (s : State) (e : LoopEntry) : (s.setLoopTop e).mode = s.mode := by
  unfold State.setLoopTop; split <;> rfl
@[simp] theorem State.setLoopTop_pending (s : State) (e : LoopEntry) : (s.setLoopTop e).pending = s.pending := by
  unfold State.setLoopTop; split <;> rfl
@[simp] theorem State.setLoopTop_intDepth (s : State) (e : LoopEntry) : (s.setLoopTop e).intDepth = s.intDepth := by
  unfold State.setLoopTop; split <;> rfl
@[simp] theorem State.setLoopTop_marks (s : State) (e : LoopEntry) : (s.setLoopTop e).marks = s.marks := by
  unfold State.setLoopTop; split <;> rfl
@[simp] theorem State.setLoopTop_draws (s : State) (e : LoopEntry) : (s.setLoopTop e).draws = s.draws := by
  unfold State.setLoopTop; split <;> rfl
@[simp] theorem State.setLoopTop_cycles (s : State) (e : LoopEntry) : (s.setLoopTop e).cycles = s.cycles := by
  unfold State.setLoopTop; split <;> rfl
@[simp] theorem State.setLoopTop_imem (s : State) (e : LoopEntry) : (s.setLoopTop e).imem = s.imem := by
  unfold State.setLoopTop; split <;> rfl
@[simp] theorem State.setLoopTop_xmem (s : State) (e : LoopEntry) : (s.setLoopTop e).xmem = s.xmem := by
  unfold State.setLoopTop; split <;> rfl
@[simp] theorem State.setLoopTop_ymem (s : State) (e : LoopEntry) : (s.setLoopTop e).ymem = s.ymem := by
  unfold State.setLoopTop; split <;> rfl
@[simp] theorem State.setLoopTop_platform (s : State) (e : LoopEntry) : (s.setLoopTop e).platform = s.platform := by
  unfold State.setLoopTop; split <;> rfl

@[simp] theorem State.pushReturn_r (s : State) (a : Word16) : (s.pushReturn a).r = s.r := by
  simp [State.pushReturn]
@[simp] theorem State.pushReturn_pc (s : State) (a : Word16) : (s.pushReturn a).pc = s.pc := by
  simp [State.pushReturn]
@[simp] theorem State.pushReturn_dp (s : State) (a : Word16) : (s.pushReturn a).dp = s.dp := by
  simp [State.pushReturn]
@[simp] theorem State.pushReturn_dn (s : State) (a : Word16) : (s.pushReturn a).dn = s.dn := by
  simp [State.pushReturn]
@[simp] theorem State.pushReturn_dmx (s : State) (a : Word16) : (s.pushReturn a).dmx = s.dmx := by
  simp [State.pushReturn]
@[simp] theorem State.pushReturn_dmy (s : State) (a : Word16) : (s.pushReturn a).dmy = s.dmy := by
  simp [State.pushReturn]
@[simp] theorem State.pushReturn_lc (s : State) (a : Word16) : (s.pushReturn a).lc = s.lc := by
  simp [State.pushReturn]
@[simp] theorem State.pushReturn_lsa (s : State) (a : Word16) : (s.pushReturn a).lsa = s.lsa := by
  simp [State.pushReturn]
@[simp] theorem State.pushReturn_lea (s : State) (a : Word16) : (s.pushReturn a).lea = s.lea := by
  simp [State.pushReturn]
@[simp] theorem State.pushReturn_lsp (s : State) (a : Word16) : (s.pushReturn a).lsp = s.lsp := by
  simp [State.pushReturn]
@[simp] theorem State.pushReturn_lstk (s : State) (a : Word16) : (s.pushReturn a).lstk = s.lstk := by
  simp [State.pushReturn]
@[simp] theorem State.pushReturn_rc (s : State) (a : Word16) : (s.pushReturn a).rc = s.rc := by
  simp [State.pushReturn]
@[simp] theorem State.pushReturn_rf (s : State) (a : Word16) : (s.pushReturn a).rf = s.rf := by
  simp [State.pushReturn]
@[simp] theorem State.pushReturn_sr (s : State) (a : Word16) : (s.pushReturn a).sr = s.sr := by
  simp [State.pushReturn]
@[simp] theorem State.pushReturn_eir (s : State) (a : Word16) : (s.pushReturn a).eir = s.eir := by
  simp [State.pushReturn]
@[simp] theorem State.pushReturn_esr (s : State) (a : Word16) : (s.pushReturn a).esr = s.esr := by
  simp [State.pushReturn]
@[simp] theorem State.pushReturn_mode (s : State) (a : Word16) : (s.pushReturn a).mode = s.mode := by
  simp [State.pushReturn]
@[simp] theorem State.pushReturn_pending (s : State) (a : Word16) : (s.pushReturn a).pending = s.pending := by
  simp [State.pushReturn]
@[simp] theorem State.pushReturn_intDepth (s : State) (a : Word16) : (s.pushReturn a).intDepth = s.intDepth := by
  simp [State.pushReturn]
@[simp] theorem State.pushReturn_marks (s : State) (a : Word16) : (s.pushReturn a).marks = s.marks := by
  simp [State.pushReturn]
@[simp] theorem State.pushReturn_draws (s : State) (a : Word16) : (s.pushReturn a).draws = s.draws := by
  simp [State.pushReturn]
@[simp] theorem State.pushReturn_cycles (s : State) (a : Word16) : (s.pushReturn a).cycles = s.cycles := by
  simp [State.pushReturn]
@[simp] theorem State.pushReturn_imem (s : State) (a : Word16) : (s.pushReturn a).imem = s.imem := by
  simp [State.pushReturn]
@[simp] theorem State.pushReturn_xmem (s : State) (a : Word16) : (s.pushReturn a).xmem = s.xmem := by
  simp [State.pushReturn]
@[simp] theorem State.pushReturn_ymem (s : State) (a : Word16) : (s.pushReturn a).ymem = s.ymem := by
  simp [State.pushReturn]
@[simp] theorem State.pushReturn_platform (s : State) (a : Word16) : (s.pushReturn a).platform = s.platform := by
  simp [State.pushReturn]

@[simp] theorem State.pushReturn_sp (s : State) (a : Word16) : (s.pushReturn a).sp = s.sp + 1 := by
  simp [State.pushReturn]

@[simp] theorem State.pushLoop_r (s : State) : (s.pushLoop).r = s.r := by simp [State.pushLoop]
@[simp] theorem State.pushLoop_pc (s : State) : (s.pushLoop).pc = s.pc := by simp [State.pushLoop]
@[simp] theorem State.pushLoop_dp (s : State) : (s.pushLoop).dp = s.dp := by simp [State.pushLoop]
@[simp] theorem State.pushLoop_dn (s : State) : (s.pushLoop).dn = s.dn := by simp [State.pushLoop]
@[simp] theorem State.pushLoop_dmx (s : State) : (s.pushLoop).dmx = s.dmx := by simp [State.pushLoop]
@[simp] theorem State.pushLoop_dmy (s : State) : (s.pushLoop).dmy = s.dmy := by simp [State.pushLoop]
@[simp] theorem State.pushLoop_sp (s : State) : (s.pushLoop).sp = s.sp := by simp [State.pushLoop]
@[simp] theorem State.pushLoop_stk (s : State) : (s.pushLoop).stk = s.stk := by simp [State.pushLoop]
@[simp] theorem State.pushLoop_lc (s : State) : (s.pushLoop).lc = s.lc := by simp [State.pushLoop]
@[simp] theorem State.pushLoop_lsa (s : State) : (s.pushLoop).lsa = s.lsa := by simp [State.pushLoop]
@[simp] theorem State.pushLoop_lea (s : State) : (s.pushLoop).lea = s.lea := by simp [State.pushLoop]
@[simp] theorem State.pushLoop_rc (s : State) : (s.pushLoop).rc = s.rc := by simp [State.pushLoop]
@[simp] theorem State.pushLoop_rf (s : State) : (s.pushLoop).rf = s.rf := by simp [State.pushLoop]
@[simp] theorem State.pushLoop_sr (s : State) : (s.pushLoop).sr = s.sr := by simp [State.pushLoop]
@[simp] theorem State.pushLoop_eir (s : State) : (s.pushLoop).eir = s.eir := by simp [State.pushLoop]
@[simp] theorem State.pushLoop_esr (s : State) : (s.pushLoop).esr = s.esr := by simp [State.pushLoop]
@[simp] theorem State.pushLoop_mode (s : State) : (s.pushLoop).mode = s.mode := by simp [State.pushLoop]
@[simp] theorem State.pushLoop_pending (s : State) : (s.pushLoop).pending = s.pending := by simp [State.pushLoop]
@[simp] theorem State.pushLoop_intDepth (s : State) : (s.pushLoop).intDepth = s.intDepth := by simp [State.pushLoop]
@[simp] theorem State.pushLoop_marks (s : State) : (s.pushLoop).marks = s.marks := by simp [State.pushLoop]
@[simp] theorem State.pushLoop_draws (s : State) : (s.pushLoop).draws = s.draws := by simp [State.pushLoop]
@[simp] theorem State.pushLoop_cycles (s : State) : (s.pushLoop).cycles = s.cycles := by simp [State.pushLoop]
@[simp] theorem State.pushLoop_imem (s : State) : (s.pushLoop).imem = s.imem := by simp [State.pushLoop]
@[simp] theorem State.pushLoop_xmem (s : State) : (s.pushLoop).xmem = s.xmem := by simp [State.pushLoop]
@[simp] theorem State.pushLoop_ymem (s : State) : (s.pushLoop).ymem = s.ymem := by simp [State.pushLoop]
@[simp] theorem State.pushLoop_platform (s : State) : (s.pushLoop).platform = s.platform := by simp [State.pushLoop]

@[simp] theorem State.pushLoop_lsp (s : State) : s.pushLoop.lsp = s.lsp + 1 := by simp [State.pushLoop]

@[simp] theorem State.popLoop_r (s : State) : (s.popLoop).r = s.r := rfl
@[simp] theorem State.popLoop_pc (s : State) : (s.popLoop).pc = s.pc := rfl
@[simp] theorem State.popLoop_dp (s : State) : (s.popLoop).dp = s.dp := rfl
@[simp] theorem State.popLoop_dn (s : State) : (s.popLoop).dn = s.dn := rfl
@[simp] theorem State.popLoop_dmx (s : State) : (s.popLoop).dmx = s.dmx := rfl
@[simp] theorem State.popLoop_dmy (s : State) : (s.popLoop).dmy = s.dmy := rfl
@[simp] theorem State.popLoop_sp (s : State) : (s.popLoop).sp = s.sp := rfl
@[simp] theorem State.popLoop_stk (s : State) : (s.popLoop).stk = s.stk := rfl
@[simp] theorem State.popLoop_lc (s : State) :
    (s.popLoop).lc = s.loopTop.lc := rfl
@[simp] theorem State.popLoop_lsa (s : State) :
    (s.popLoop).lsa = s.loopTop.lsa := rfl
@[simp] theorem State.popLoop_lea (s : State) :
    (s.popLoop).lea = s.loopTop.lea := rfl
@[simp] theorem State.popLoop_lsp (s : State) :
    (s.popLoop).lsp = s.lsp - 1 := rfl
@[simp] theorem State.popLoop_lstk (s : State) : (s.popLoop).lstk = s.lstk := rfl
@[simp] theorem State.popLoop_rc (s : State) : (s.popLoop).rc = s.rc := rfl
@[simp] theorem State.popLoop_rf (s : State) : (s.popLoop).rf = s.rf := rfl
@[simp] theorem State.popLoop_sr (s : State) : (s.popLoop).sr = s.sr := rfl
@[simp] theorem State.popLoop_eir (s : State) : (s.popLoop).eir = s.eir := rfl
@[simp] theorem State.popLoop_esr (s : State) : (s.popLoop).esr = s.esr := rfl
@[simp] theorem State.popLoop_mode (s : State) : (s.popLoop).mode = s.mode := rfl
@[simp] theorem State.popLoop_pending (s : State) : (s.popLoop).pending = s.pending := rfl
@[simp] theorem State.popLoop_intDepth (s : State) : (s.popLoop).intDepth = s.intDepth := rfl
@[simp] theorem State.popLoop_marks (s : State) : (s.popLoop).marks = s.marks := rfl
@[simp] theorem State.popLoop_draws (s : State) : (s.popLoop).draws = s.draws := rfl
@[simp] theorem State.popLoop_cycles (s : State) : (s.popLoop).cycles = s.cycles := rfl
@[simp] theorem State.popLoop_imem (s : State) : (s.popLoop).imem = s.imem := rfl
@[simp] theorem State.popLoop_xmem (s : State) : (s.popLoop).xmem = s.xmem := rfl
@[simp] theorem State.popLoop_ymem (s : State) : (s.popLoop).ymem = s.ymem := rfl
@[simp] theorem State.popLoop_platform (s : State) : (s.popLoop).platform = s.platform := rfl


/-! ## The end of a word -/

@[simp] theorem State.endWord_r (s : State) (m : Marks) (c : Nat) : (s.endWord m c).r = s.r := rfl
@[simp] theorem State.endWord_pc (s : State) (m : Marks) (c : Nat) : (s.endWord m c).pc = s.pc := rfl
@[simp] theorem State.endWord_dp (s : State) (m : Marks) (c : Nat) : (s.endWord m c).dp = s.dp := rfl
@[simp] theorem State.endWord_dn (s : State) (m : Marks) (c : Nat) : (s.endWord m c).dn = s.dn := rfl
@[simp] theorem State.endWord_dmx (s : State) (m : Marks) (c : Nat) : (s.endWord m c).dmx = s.dmx := rfl
@[simp] theorem State.endWord_dmy (s : State) (m : Marks) (c : Nat) : (s.endWord m c).dmy = s.dmy := rfl
@[simp] theorem State.endWord_sp (s : State) (m : Marks) (c : Nat) : (s.endWord m c).sp = s.sp := rfl
@[simp] theorem State.endWord_stk (s : State) (m : Marks) (c : Nat) : (s.endWord m c).stk = s.stk := rfl
@[simp] theorem State.endWord_lc (s : State) (m : Marks) (c : Nat) : (s.endWord m c).lc = s.lc := rfl
@[simp] theorem State.endWord_lsa (s : State) (m : Marks) (c : Nat) : (s.endWord m c).lsa = s.lsa := rfl
@[simp] theorem State.endWord_lea (s : State) (m : Marks) (c : Nat) : (s.endWord m c).lea = s.lea := rfl
@[simp] theorem State.endWord_lsp (s : State) (m : Marks) (c : Nat) : (s.endWord m c).lsp = s.lsp := rfl
@[simp] theorem State.endWord_lstk (s : State) (m : Marks) (c : Nat) : (s.endWord m c).lstk = s.lstk := rfl
@[simp] theorem State.endWord_rc (s : State) (m : Marks) (c : Nat) : (s.endWord m c).rc = s.rc := rfl
@[simp] theorem State.endWord_rf (s : State) (m : Marks) (c : Nat) : (s.endWord m c).rf = s.rf := rfl
@[simp] theorem State.endWord_sr (s : State) (m : Marks) (c : Nat) : (s.endWord m c).sr = s.sr := rfl
@[simp] theorem State.endWord_eir (s : State) (m : Marks) (c : Nat) : (s.endWord m c).eir = s.eir := rfl
@[simp] theorem State.endWord_esr (s : State) (m : Marks) (c : Nat) : (s.endWord m c).esr = s.esr := rfl
@[simp] theorem State.endWord_mode (s : State) (m : Marks) (c : Nat) : (s.endWord m c).mode = s.mode := rfl
@[simp] theorem State.endWord_pending (s : State) (m : Marks) (c : Nat) : (s.endWord m c).pending = s.pending := rfl
@[simp] theorem State.endWord_intDepth (s : State) (m : Marks) (c : Nat) : (s.endWord m c).intDepth = s.intDepth := rfl
@[simp] theorem State.endWord_marks (s : State) (m : Marks) (c : Nat) :
    (s.endWord m c).marks = m := rfl
@[simp] theorem State.endWord_draws (s : State) (m : Marks) (c : Nat) : (s.endWord m c).draws = s.draws := rfl
@[simp] theorem State.endWord_cycles (s : State) (m : Marks) (c : Nat) :
    (s.endWord m c).cycles = s.cycles + c := rfl
@[simp] theorem State.endWord_imem (s : State) (m : Marks) (c : Nat) : (s.endWord m c).imem = s.imem := rfl
@[simp] theorem State.endWord_xmem (s : State) (m : Marks) (c : Nat) : (s.endWord m c).xmem = s.xmem := rfl
@[simp] theorem State.endWord_ymem (s : State) (m : Marks) (c : Nat) : (s.endWord m c).ymem = s.ymem := rfl
@[simp] theorem State.endWord_platform (s : State) (m : Marks) (c : Nat) : (s.endWord m c).platform = s.platform := rfl

@[simp] theorem State.goTo_r (s : State) (a : Word16) (m : Marks) (c : Nat) : (s.goTo a m c).r = s.r := rfl
@[simp] theorem State.goTo_pc (s : State) (a : Word16) (m : Marks) (c : Nat) :
    (s.goTo a m c).pc = a := rfl
@[simp] theorem State.goTo_dp (s : State) (a : Word16) (m : Marks) (c : Nat) : (s.goTo a m c).dp = s.dp := rfl
@[simp] theorem State.goTo_dn (s : State) (a : Word16) (m : Marks) (c : Nat) : (s.goTo a m c).dn = s.dn := rfl
@[simp] theorem State.goTo_dmx (s : State) (a : Word16) (m : Marks) (c : Nat) : (s.goTo a m c).dmx = s.dmx := rfl
@[simp] theorem State.goTo_dmy (s : State) (a : Word16) (m : Marks) (c : Nat) : (s.goTo a m c).dmy = s.dmy := rfl
@[simp] theorem State.goTo_sp (s : State) (a : Word16) (m : Marks) (c : Nat) : (s.goTo a m c).sp = s.sp := rfl
@[simp] theorem State.goTo_stk (s : State) (a : Word16) (m : Marks) (c : Nat) : (s.goTo a m c).stk = s.stk := rfl
@[simp] theorem State.goTo_lc (s : State) (a : Word16) (m : Marks) (c : Nat) : (s.goTo a m c).lc = s.lc := rfl
@[simp] theorem State.goTo_lsa (s : State) (a : Word16) (m : Marks) (c : Nat) : (s.goTo a m c).lsa = s.lsa := rfl
@[simp] theorem State.goTo_lea (s : State) (a : Word16) (m : Marks) (c : Nat) : (s.goTo a m c).lea = s.lea := rfl
@[simp] theorem State.goTo_lsp (s : State) (a : Word16) (m : Marks) (c : Nat) : (s.goTo a m c).lsp = s.lsp := rfl
@[simp] theorem State.goTo_lstk (s : State) (a : Word16) (m : Marks) (c : Nat) : (s.goTo a m c).lstk = s.lstk := rfl
@[simp] theorem State.goTo_rc (s : State) (a : Word16) (m : Marks) (c : Nat) : (s.goTo a m c).rc = s.rc := rfl
@[simp] theorem State.goTo_rf (s : State) (a : Word16) (m : Marks) (c : Nat) : (s.goTo a m c).rf = s.rf := rfl
@[simp] theorem State.goTo_sr (s : State) (a : Word16) (m : Marks) (c : Nat) : (s.goTo a m c).sr = s.sr := rfl
@[simp] theorem State.goTo_eir (s : State) (a : Word16) (m : Marks) (c : Nat) : (s.goTo a m c).eir = s.eir := rfl
@[simp] theorem State.goTo_esr (s : State) (a : Word16) (m : Marks) (c : Nat) : (s.goTo a m c).esr = s.esr := rfl
@[simp] theorem State.goTo_mode (s : State) (a : Word16) (m : Marks) (c : Nat) : (s.goTo a m c).mode = s.mode := rfl
@[simp] theorem State.goTo_pending (s : State) (a : Word16) (m : Marks) (c : Nat) : (s.goTo a m c).pending = s.pending := rfl
@[simp] theorem State.goTo_intDepth (s : State) (a : Word16) (m : Marks) (c : Nat) : (s.goTo a m c).intDepth = s.intDepth := rfl
@[simp] theorem State.goTo_marks (s : State) (a : Word16) (m : Marks) (c : Nat) :
    (s.goTo a m c).marks = m := rfl
@[simp] theorem State.goTo_draws (s : State) (a : Word16) (m : Marks) (c : Nat) : (s.goTo a m c).draws = s.draws := rfl
@[simp] theorem State.goTo_cycles (s : State) (a : Word16) (m : Marks) (c : Nat) :
    (s.goTo a m c).cycles = s.cycles + c := rfl
@[simp] theorem State.goTo_imem (s : State) (a : Word16) (m : Marks) (c : Nat) : (s.goTo a m c).imem = s.imem := rfl
@[simp] theorem State.goTo_xmem (s : State) (a : Word16) (m : Marks) (c : Nat) : (s.goTo a m c).xmem = s.xmem := rfl
@[simp] theorem State.goTo_ymem (s : State) (a : Word16) (m : Marks) (c : Nat) : (s.goTo a m c).ymem = s.ymem := rfl
@[simp] theorem State.goTo_platform (s : State) (a : Word16) (m : Marks) (c : Nat) : (s.goTo a m c).platform = s.platform := rfl

@[simp] theorem State.callTo_r (s : State) (a : Word16) (c : Nat) : (s.callTo a c).r = s.r := by
  simp [State.callTo]
@[simp] theorem State.callTo_dp (s : State) (a : Word16) (c : Nat) : (s.callTo a c).dp = s.dp := by
  simp [State.callTo]
@[simp] theorem State.callTo_dn (s : State) (a : Word16) (c : Nat) : (s.callTo a c).dn = s.dn := by
  simp [State.callTo]
@[simp] theorem State.callTo_dmx (s : State) (a : Word16) (c : Nat) : (s.callTo a c).dmx = s.dmx := by
  simp [State.callTo]
@[simp] theorem State.callTo_dmy (s : State) (a : Word16) (c : Nat) : (s.callTo a c).dmy = s.dmy := by
  simp [State.callTo]
@[simp] theorem State.callTo_lc (s : State) (a : Word16) (c : Nat) : (s.callTo a c).lc = s.lc := by
  simp [State.callTo]
@[simp] theorem State.callTo_lsa (s : State) (a : Word16) (c : Nat) : (s.callTo a c).lsa = s.lsa := by
  simp [State.callTo]
@[simp] theorem State.callTo_lea (s : State) (a : Word16) (c : Nat) : (s.callTo a c).lea = s.lea := by
  simp [State.callTo]
@[simp] theorem State.callTo_lsp (s : State) (a : Word16) (c : Nat) : (s.callTo a c).lsp = s.lsp := by
  simp [State.callTo]
@[simp] theorem State.callTo_lstk (s : State) (a : Word16) (c : Nat) : (s.callTo a c).lstk = s.lstk := by
  simp [State.callTo]
@[simp] theorem State.callTo_rc (s : State) (a : Word16) (c : Nat) : (s.callTo a c).rc = s.rc := by
  simp [State.callTo]
@[simp] theorem State.callTo_rf (s : State) (a : Word16) (c : Nat) : (s.callTo a c).rf = s.rf := by
  simp [State.callTo]
@[simp] theorem State.callTo_sr (s : State) (a : Word16) (c : Nat) : (s.callTo a c).sr = s.sr := by
  simp [State.callTo]
@[simp] theorem State.callTo_eir (s : State) (a : Word16) (c : Nat) : (s.callTo a c).eir = s.eir := by
  simp [State.callTo]
@[simp] theorem State.callTo_esr (s : State) (a : Word16) (c : Nat) : (s.callTo a c).esr = s.esr := by
  simp [State.callTo]
@[simp] theorem State.callTo_mode (s : State) (a : Word16) (c : Nat) : (s.callTo a c).mode = s.mode := by
  simp [State.callTo]
@[simp] theorem State.callTo_pending (s : State) (a : Word16) (c : Nat) : (s.callTo a c).pending = s.pending := by
  simp [State.callTo]
@[simp] theorem State.callTo_intDepth (s : State) (a : Word16) (c : Nat) : (s.callTo a c).intDepth = s.intDepth := by
  simp [State.callTo]
@[simp] theorem State.callTo_draws (s : State) (a : Word16) (c : Nat) : (s.callTo a c).draws = s.draws := by
  simp [State.callTo]
@[simp] theorem State.callTo_imem (s : State) (a : Word16) (c : Nat) : (s.callTo a c).imem = s.imem := by
  simp [State.callTo]
@[simp] theorem State.callTo_xmem (s : State) (a : Word16) (c : Nat) : (s.callTo a c).xmem = s.xmem := by
  simp [State.callTo]
@[simp] theorem State.callTo_ymem (s : State) (a : Word16) (c : Nat) : (s.callTo a c).ymem = s.ymem := by
  simp [State.callTo]
@[simp] theorem State.callTo_platform (s : State) (a : Word16) (c : Nat) : (s.callTo a c).platform = s.platform := by
  simp [State.callTo]

@[simp] theorem State.returnTo_r (s : State) (c : Nat) : (s.returnTo c).r = s.r := rfl
@[simp] theorem State.returnTo_pc (s : State) (c : Nat) :
    (s.returnTo c).pc = s.stackTop := rfl
@[simp] theorem State.returnTo_dp (s : State) (c : Nat) : (s.returnTo c).dp = s.dp := rfl
@[simp] theorem State.returnTo_dn (s : State) (c : Nat) : (s.returnTo c).dn = s.dn := rfl
@[simp] theorem State.returnTo_dmx (s : State) (c : Nat) : (s.returnTo c).dmx = s.dmx := rfl
@[simp] theorem State.returnTo_dmy (s : State) (c : Nat) : (s.returnTo c).dmy = s.dmy := rfl
@[simp] theorem State.returnTo_sp (s : State) (c : Nat) :
    (s.returnTo c).sp = s.sp - 1 := rfl
@[simp] theorem State.returnTo_stk (s : State) (c : Nat) : (s.returnTo c).stk = s.stk := rfl
@[simp] theorem State.returnTo_lc (s : State) (c : Nat) : (s.returnTo c).lc = s.lc := rfl
@[simp] theorem State.returnTo_lsa (s : State) (c : Nat) : (s.returnTo c).lsa = s.lsa := rfl
@[simp] theorem State.returnTo_lea (s : State) (c : Nat) : (s.returnTo c).lea = s.lea := rfl
@[simp] theorem State.returnTo_lsp (s : State) (c : Nat) : (s.returnTo c).lsp = s.lsp := rfl
@[simp] theorem State.returnTo_lstk (s : State) (c : Nat) : (s.returnTo c).lstk = s.lstk := rfl
@[simp] theorem State.returnTo_rc (s : State) (c : Nat) : (s.returnTo c).rc = s.rc := rfl
@[simp] theorem State.returnTo_rf (s : State) (c : Nat) : (s.returnTo c).rf = s.rf := rfl
@[simp] theorem State.returnTo_sr (s : State) (c : Nat) : (s.returnTo c).sr = s.sr := rfl
@[simp] theorem State.returnTo_eir (s : State) (c : Nat) : (s.returnTo c).eir = s.eir := rfl
@[simp] theorem State.returnTo_esr (s : State) (c : Nat) : (s.returnTo c).esr = s.esr := rfl
@[simp] theorem State.returnTo_mode (s : State) (c : Nat) : (s.returnTo c).mode = s.mode := rfl
@[simp] theorem State.returnTo_pending (s : State) (c : Nat) : (s.returnTo c).pending = s.pending := rfl
@[simp] theorem State.returnTo_intDepth (s : State) (c : Nat) : (s.returnTo c).intDepth = s.intDepth := rfl
@[simp] theorem State.returnTo_marks (s : State) (c : Nat) :
    (s.returnTo c).marks = {} := rfl
@[simp] theorem State.returnTo_draws (s : State) (c : Nat) : (s.returnTo c).draws = s.draws := rfl
@[simp] theorem State.returnTo_cycles (s : State) (c : Nat) :
    (s.returnTo c).cycles = s.cycles + c := rfl
@[simp] theorem State.returnTo_imem (s : State) (c : Nat) : (s.returnTo c).imem = s.imem := rfl
@[simp] theorem State.returnTo_xmem (s : State) (c : Nat) : (s.returnTo c).xmem = s.xmem := rfl
@[simp] theorem State.returnTo_ymem (s : State) (c : Nat) : (s.returnTo c).ymem = s.ymem := rfl
@[simp] theorem State.returnTo_platform (s : State) (c : Nat) : (s.returnTo c).platform = s.platform := rfl

@[simp] theorem State.retired_r (s : State) (m : Marks) (c : Nat) : (s.retired m c).r = s.r := by
  unfold State.retired; (repeat' split) <;> rfl
@[simp] theorem State.retired_dp (s : State) (m : Marks) (c : Nat) : (s.retired m c).dp = s.dp := by
  unfold State.retired; (repeat' split) <;> rfl
@[simp] theorem State.retired_dn (s : State) (m : Marks) (c : Nat) : (s.retired m c).dn = s.dn := by
  unfold State.retired; (repeat' split) <;> rfl
@[simp] theorem State.retired_dmx (s : State) (m : Marks) (c : Nat) : (s.retired m c).dmx = s.dmx := by
  unfold State.retired; (repeat' split) <;> rfl
@[simp] theorem State.retired_dmy (s : State) (m : Marks) (c : Nat) : (s.retired m c).dmy = s.dmy := by
  unfold State.retired; (repeat' split) <;> rfl
@[simp] theorem State.retired_sp (s : State) (m : Marks) (c : Nat) : (s.retired m c).sp = s.sp := by
  unfold State.retired; (repeat' split) <;> rfl
@[simp] theorem State.retired_stk (s : State) (m : Marks) (c : Nat) : (s.retired m c).stk = s.stk := by
  unfold State.retired; (repeat' split) <;> rfl
@[simp] theorem State.retired_lstk (s : State) (m : Marks) (c : Nat) : (s.retired m c).lstk = s.lstk := by
  unfold State.retired; (repeat' split) <;> rfl
@[simp] theorem State.retired_sr (s : State) (m : Marks) (c : Nat) : (s.retired m c).sr = s.sr := by
  unfold State.retired; (repeat' split) <;> rfl
@[simp] theorem State.retired_eir (s : State) (m : Marks) (c : Nat) : (s.retired m c).eir = s.eir := by
  unfold State.retired; (repeat' split) <;> rfl
@[simp] theorem State.retired_esr (s : State) (m : Marks) (c : Nat) : (s.retired m c).esr = s.esr := by
  unfold State.retired; (repeat' split) <;> rfl
@[simp] theorem State.retired_mode (s : State) (m : Marks) (c : Nat) : (s.retired m c).mode = s.mode := by
  unfold State.retired; (repeat' split) <;> rfl
@[simp] theorem State.retired_pending (s : State) (m : Marks) (c : Nat) : (s.retired m c).pending = s.pending := by
  unfold State.retired; (repeat' split) <;> rfl
@[simp] theorem State.retired_intDepth (s : State) (m : Marks) (c : Nat) : (s.retired m c).intDepth = s.intDepth := by
  unfold State.retired; (repeat' split) <;> rfl
@[simp] theorem State.retired_draws (s : State) (m : Marks) (c : Nat) : (s.retired m c).draws = s.draws := by
  unfold State.retired; (repeat' split) <;> rfl
@[simp] theorem State.retired_imem (s : State) (m : Marks) (c : Nat) : (s.retired m c).imem = s.imem := by
  unfold State.retired; (repeat' split) <;> rfl
@[simp] theorem State.retired_xmem (s : State) (m : Marks) (c : Nat) : (s.retired m c).xmem = s.xmem := by
  unfold State.retired; (repeat' split) <;> rfl
@[simp] theorem State.retired_ymem (s : State) (m : Marks) (c : Nat) : (s.retired m c).ymem = s.ymem := by
  unfold State.retired; (repeat' split) <;> rfl
@[simp] theorem State.retired_platform (s : State) (m : Marks) (c : Nat) : (s.retired m c).platform = s.platform := by
  unfold State.retired; (repeat' split) <;> rfl

@[simp] theorem State.retired_cycles (s : State) (m : Marks) (c : Nat) :
    (s.retired m c).cycles = s.cycles + c := by
  unfold State.retired; (repeat' split) <;> rfl


/-! ## Transfers -/

@[simp] theorem State.setAddrReg_r (s : State) (a : AddrReg) (v : Word16) : (s.setAddrReg a v).r = s.r := by cases a <;> rfl
@[simp] theorem State.setAddrReg_pc (s : State) (a : AddrReg) (v : Word16) : (s.setAddrReg a v).pc = s.pc := by cases a <;> rfl
@[simp] theorem State.setAddrReg_sp (s : State) (a : AddrReg) (v : Word16) : (s.setAddrReg a v).sp = s.sp := by cases a <;> rfl
@[simp] theorem State.setAddrReg_stk (s : State) (a : AddrReg) (v : Word16) : (s.setAddrReg a v).stk = s.stk := by cases a <;> rfl
@[simp] theorem State.setAddrReg_lc (s : State) (a : AddrReg) (v : Word16) : (s.setAddrReg a v).lc = s.lc := by cases a <;> rfl
@[simp] theorem State.setAddrReg_lsa (s : State) (a : AddrReg) (v : Word16) : (s.setAddrReg a v).lsa = s.lsa := by cases a <;> rfl
@[simp] theorem State.setAddrReg_lea (s : State) (a : AddrReg) (v : Word16) : (s.setAddrReg a v).lea = s.lea := by cases a <;> rfl
@[simp] theorem State.setAddrReg_lsp (s : State) (a : AddrReg) (v : Word16) : (s.setAddrReg a v).lsp = s.lsp := by cases a <;> rfl
@[simp] theorem State.setAddrReg_lstk (s : State) (a : AddrReg) (v : Word16) : (s.setAddrReg a v).lstk = s.lstk := by cases a <;> rfl
@[simp] theorem State.setAddrReg_rc (s : State) (a : AddrReg) (v : Word16) : (s.setAddrReg a v).rc = s.rc := by cases a <;> rfl
@[simp] theorem State.setAddrReg_rf (s : State) (a : AddrReg) (v : Word16) : (s.setAddrReg a v).rf = s.rf := by cases a <;> rfl
@[simp] theorem State.setAddrReg_sr (s : State) (a : AddrReg) (v : Word16) : (s.setAddrReg a v).sr = s.sr := by cases a <;> rfl
@[simp] theorem State.setAddrReg_eir (s : State) (a : AddrReg) (v : Word16) : (s.setAddrReg a v).eir = s.eir := by cases a <;> rfl
@[simp] theorem State.setAddrReg_esr (s : State) (a : AddrReg) (v : Word16) : (s.setAddrReg a v).esr = s.esr := by cases a <;> rfl
@[simp] theorem State.setAddrReg_mode (s : State) (a : AddrReg) (v : Word16) : (s.setAddrReg a v).mode = s.mode := by cases a <;> rfl
@[simp] theorem State.setAddrReg_pending (s : State) (a : AddrReg) (v : Word16) : (s.setAddrReg a v).pending = s.pending := by cases a <;> rfl
@[simp] theorem State.setAddrReg_intDepth (s : State) (a : AddrReg) (v : Word16) : (s.setAddrReg a v).intDepth = s.intDepth := by cases a <;> rfl
@[simp] theorem State.setAddrReg_marks (s : State) (a : AddrReg) (v : Word16) : (s.setAddrReg a v).marks = s.marks := by cases a <;> rfl
@[simp] theorem State.setAddrReg_draws (s : State) (a : AddrReg) (v : Word16) : (s.setAddrReg a v).draws = s.draws := by cases a <;> rfl
@[simp] theorem State.setAddrReg_cycles (s : State) (a : AddrReg) (v : Word16) : (s.setAddrReg a v).cycles = s.cycles := by cases a <;> rfl
@[simp] theorem State.setAddrReg_imem (s : State) (a : AddrReg) (v : Word16) : (s.setAddrReg a v).imem = s.imem := by cases a <;> rfl
@[simp] theorem State.setAddrReg_xmem (s : State) (a : AddrReg) (v : Word16) : (s.setAddrReg a v).xmem = s.xmem := by cases a <;> rfl
@[simp] theorem State.setAddrReg_ymem (s : State) (a : AddrReg) (v : Word16) : (s.setAddrReg a v).ymem = s.ymem := by cases a <;> rfl
@[simp] theorem State.setAddrReg_platform (s : State) (a : AddrReg) (v : Word16) : (s.setAddrReg a v).platform = s.platform := by cases a <;> rfl

@[simp] theorem State.accessEffect_pc (b s : State) (p : Space) (a : Word16) (op : PartOp) (k : GReg) : (accessEffect b p a op k s).pc = s.pc := by
  cases op <;> simp [accessEffect]
@[simp] theorem State.accessEffect_dp (b s : State) (p : Space) (a : Word16) (op : PartOp) (k : GReg) : (accessEffect b p a op k s).dp = s.dp := by
  cases op <;> simp [accessEffect]
@[simp] theorem State.accessEffect_dn (b s : State) (p : Space) (a : Word16) (op : PartOp) (k : GReg) : (accessEffect b p a op k s).dn = s.dn := by
  cases op <;> simp [accessEffect]
@[simp] theorem State.accessEffect_dmx (b s : State) (p : Space) (a : Word16) (op : PartOp) (k : GReg) : (accessEffect b p a op k s).dmx = s.dmx := by
  cases op <;> simp [accessEffect]
@[simp] theorem State.accessEffect_dmy (b s : State) (p : Space) (a : Word16) (op : PartOp) (k : GReg) : (accessEffect b p a op k s).dmy = s.dmy := by
  cases op <;> simp [accessEffect]
@[simp] theorem State.accessEffect_sp (b s : State) (p : Space) (a : Word16) (op : PartOp) (k : GReg) : (accessEffect b p a op k s).sp = s.sp := by
  cases op <;> simp [accessEffect]
@[simp] theorem State.accessEffect_stk (b s : State) (p : Space) (a : Word16) (op : PartOp) (k : GReg) : (accessEffect b p a op k s).stk = s.stk := by
  cases op <;> simp [accessEffect]
@[simp] theorem State.accessEffect_lc (b s : State) (p : Space) (a : Word16) (op : PartOp) (k : GReg) : (accessEffect b p a op k s).lc = s.lc := by
  cases op <;> simp [accessEffect]
@[simp] theorem State.accessEffect_lsa (b s : State) (p : Space) (a : Word16) (op : PartOp) (k : GReg) : (accessEffect b p a op k s).lsa = s.lsa := by
  cases op <;> simp [accessEffect]
@[simp] theorem State.accessEffect_lea (b s : State) (p : Space) (a : Word16) (op : PartOp) (k : GReg) : (accessEffect b p a op k s).lea = s.lea := by
  cases op <;> simp [accessEffect]
@[simp] theorem State.accessEffect_lsp (b s : State) (p : Space) (a : Word16) (op : PartOp) (k : GReg) : (accessEffect b p a op k s).lsp = s.lsp := by
  cases op <;> simp [accessEffect]
@[simp] theorem State.accessEffect_lstk (b s : State) (p : Space) (a : Word16) (op : PartOp) (k : GReg) : (accessEffect b p a op k s).lstk = s.lstk := by
  cases op <;> simp [accessEffect]
@[simp] theorem State.accessEffect_rc (b s : State) (p : Space) (a : Word16) (op : PartOp) (k : GReg) : (accessEffect b p a op k s).rc = s.rc := by
  cases op <;> simp [accessEffect]
@[simp] theorem State.accessEffect_rf (b s : State) (p : Space) (a : Word16) (op : PartOp) (k : GReg) : (accessEffect b p a op k s).rf = s.rf := by
  cases op <;> simp [accessEffect]
@[simp] theorem State.accessEffect_sr (b s : State) (p : Space) (a : Word16) (op : PartOp) (k : GReg) : (accessEffect b p a op k s).sr = s.sr := by
  cases op <;> simp [accessEffect]
@[simp] theorem State.accessEffect_eir (b s : State) (p : Space) (a : Word16) (op : PartOp) (k : GReg) : (accessEffect b p a op k s).eir = s.eir := by
  cases op <;> simp [accessEffect]
@[simp] theorem State.accessEffect_esr (b s : State) (p : Space) (a : Word16) (op : PartOp) (k : GReg) : (accessEffect b p a op k s).esr = s.esr := by
  cases op <;> simp [accessEffect]
@[simp] theorem State.accessEffect_mode (b s : State) (p : Space) (a : Word16) (op : PartOp) (k : GReg) : (accessEffect b p a op k s).mode = s.mode := by
  cases op <;> simp [accessEffect]
@[simp] theorem State.accessEffect_pending (b s : State) (p : Space) (a : Word16) (op : PartOp) (k : GReg) : (accessEffect b p a op k s).pending = s.pending := by
  cases op <;> simp [accessEffect]
@[simp] theorem State.accessEffect_intDepth (b s : State) (p : Space) (a : Word16) (op : PartOp) (k : GReg) : (accessEffect b p a op k s).intDepth = s.intDepth := by
  cases op <;> simp [accessEffect]
@[simp] theorem State.accessEffect_marks (b s : State) (p : Space) (a : Word16) (op : PartOp) (k : GReg) : (accessEffect b p a op k s).marks = s.marks := by
  cases op <;> simp [accessEffect]
@[simp] theorem State.accessEffect_draws (b s : State) (p : Space) (a : Word16) (op : PartOp) (k : GReg) : (accessEffect b p a op k s).draws = s.draws := by
  cases op <;> simp [accessEffect]
@[simp] theorem State.accessEffect_cycles (b s : State) (p : Space) (a : Word16) (op : PartOp) (k : GReg) : (accessEffect b p a op k s).cycles = s.cycles := by
  cases op <;> simp [accessEffect]
@[simp] theorem State.accessEffect_imem (b s : State) (p : Space) (a : Word16) (op : PartOp) (k : GReg) : (accessEffect b p a op k s).imem = s.imem := by
  cases op <;> simp [accessEffect]
@[simp] theorem State.accessEffect_platform (b s : State) (p : Space) (a : Word16) (op : PartOp) (k : GReg) : (accessEffect b p a op k s).platform = s.platform := by
  cases op <;> simp [accessEffect]

@[simp] theorem State.sideEffect_pc (b s : State) (p : Space) (o : Option PartSide) : (sideEffect b p o s).pc = s.pc := by
  cases o <;> simp [sideEffect]
@[simp] theorem State.sideEffect_dn (b s : State) (p : Space) (o : Option PartSide) : (sideEffect b p o s).dn = s.dn := by
  cases o <;> simp [sideEffect]
@[simp] theorem State.sideEffect_dmx (b s : State) (p : Space) (o : Option PartSide) : (sideEffect b p o s).dmx = s.dmx := by
  cases o <;> simp [sideEffect]
@[simp] theorem State.sideEffect_dmy (b s : State) (p : Space) (o : Option PartSide) : (sideEffect b p o s).dmy = s.dmy := by
  cases o <;> simp [sideEffect]
@[simp] theorem State.sideEffect_sp (b s : State) (p : Space) (o : Option PartSide) : (sideEffect b p o s).sp = s.sp := by
  cases o <;> simp [sideEffect]
@[simp] theorem State.sideEffect_stk (b s : State) (p : Space) (o : Option PartSide) : (sideEffect b p o s).stk = s.stk := by
  cases o <;> simp [sideEffect]
@[simp] theorem State.sideEffect_lc (b s : State) (p : Space) (o : Option PartSide) : (sideEffect b p o s).lc = s.lc := by
  cases o <;> simp [sideEffect]
@[simp] theorem State.sideEffect_lsa (b s : State) (p : Space) (o : Option PartSide) : (sideEffect b p o s).lsa = s.lsa := by
  cases o <;> simp [sideEffect]
@[simp] theorem State.sideEffect_lea (b s : State) (p : Space) (o : Option PartSide) : (sideEffect b p o s).lea = s.lea := by
  cases o <;> simp [sideEffect]
@[simp] theorem State.sideEffect_lsp (b s : State) (p : Space) (o : Option PartSide) : (sideEffect b p o s).lsp = s.lsp := by
  cases o <;> simp [sideEffect]
@[simp] theorem State.sideEffect_lstk (b s : State) (p : Space) (o : Option PartSide) : (sideEffect b p o s).lstk = s.lstk := by
  cases o <;> simp [sideEffect]
@[simp] theorem State.sideEffect_rc (b s : State) (p : Space) (o : Option PartSide) : (sideEffect b p o s).rc = s.rc := by
  cases o <;> simp [sideEffect]
@[simp] theorem State.sideEffect_rf (b s : State) (p : Space) (o : Option PartSide) : (sideEffect b p o s).rf = s.rf := by
  cases o <;> simp [sideEffect]
@[simp] theorem State.sideEffect_sr (b s : State) (p : Space) (o : Option PartSide) : (sideEffect b p o s).sr = s.sr := by
  cases o <;> simp [sideEffect]
@[simp] theorem State.sideEffect_eir (b s : State) (p : Space) (o : Option PartSide) : (sideEffect b p o s).eir = s.eir := by
  cases o <;> simp [sideEffect]
@[simp] theorem State.sideEffect_esr (b s : State) (p : Space) (o : Option PartSide) : (sideEffect b p o s).esr = s.esr := by
  cases o <;> simp [sideEffect]
@[simp] theorem State.sideEffect_mode (b s : State) (p : Space) (o : Option PartSide) : (sideEffect b p o s).mode = s.mode := by
  cases o <;> simp [sideEffect]
@[simp] theorem State.sideEffect_pending (b s : State) (p : Space) (o : Option PartSide) : (sideEffect b p o s).pending = s.pending := by
  cases o <;> simp [sideEffect]
@[simp] theorem State.sideEffect_intDepth (b s : State) (p : Space) (o : Option PartSide) : (sideEffect b p o s).intDepth = s.intDepth := by
  cases o <;> simp [sideEffect]
@[simp] theorem State.sideEffect_marks (b s : State) (p : Space) (o : Option PartSide) : (sideEffect b p o s).marks = s.marks := by
  cases o <;> simp [sideEffect]
@[simp] theorem State.sideEffect_draws (b s : State) (p : Space) (o : Option PartSide) : (sideEffect b p o s).draws = s.draws := by
  cases o <;> simp [sideEffect]
@[simp] theorem State.sideEffect_cycles (b s : State) (p : Space) (o : Option PartSide) : (sideEffect b p o s).cycles = s.cycles := by
  cases o <;> simp [sideEffect]
@[simp] theorem State.sideEffect_imem (b s : State) (p : Space) (o : Option PartSide) : (sideEffect b p o s).imem = s.imem := by
  cases o <;> simp [sideEffect]
@[simp] theorem State.sideEffect_platform (b s : State) (p : Space) (o : Option PartSide) : (sideEffect b p o s).platform = s.platform := by
  cases o <;> simp [sideEffect]

@[simp] theorem State.transfers_pc (s : State) (q : PartPair) : (s.transfers q).pc = s.pc := by
  simp [State.transfers]
@[simp] theorem State.transfers_dn (s : State) (q : PartPair) : (s.transfers q).dn = s.dn := by
  simp [State.transfers]
@[simp] theorem State.transfers_dmx (s : State) (q : PartPair) : (s.transfers q).dmx = s.dmx := by
  simp [State.transfers]
@[simp] theorem State.transfers_dmy (s : State) (q : PartPair) : (s.transfers q).dmy = s.dmy := by
  simp [State.transfers]
@[simp] theorem State.transfers_sp (s : State) (q : PartPair) : (s.transfers q).sp = s.sp := by
  simp [State.transfers]
@[simp] theorem State.transfers_stk (s : State) (q : PartPair) : (s.transfers q).stk = s.stk := by
  simp [State.transfers]
@[simp] theorem State.transfers_lc (s : State) (q : PartPair) : (s.transfers q).lc = s.lc := by
  simp [State.transfers]
@[simp] theorem State.transfers_lsa (s : State) (q : PartPair) : (s.transfers q).lsa = s.lsa := by
  simp [State.transfers]
@[simp] theorem State.transfers_lea (s : State) (q : PartPair) : (s.transfers q).lea = s.lea := by
  simp [State.transfers]
@[simp] theorem State.transfers_lsp (s : State) (q : PartPair) : (s.transfers q).lsp = s.lsp := by
  simp [State.transfers]
@[simp] theorem State.transfers_lstk (s : State) (q : PartPair) : (s.transfers q).lstk = s.lstk := by
  simp [State.transfers]
@[simp] theorem State.transfers_rc (s : State) (q : PartPair) : (s.transfers q).rc = s.rc := by
  simp [State.transfers]
@[simp] theorem State.transfers_rf (s : State) (q : PartPair) : (s.transfers q).rf = s.rf := by
  simp [State.transfers]
@[simp] theorem State.transfers_sr (s : State) (q : PartPair) : (s.transfers q).sr = s.sr := by
  simp [State.transfers]
@[simp] theorem State.transfers_eir (s : State) (q : PartPair) : (s.transfers q).eir = s.eir := by
  simp [State.transfers]
@[simp] theorem State.transfers_esr (s : State) (q : PartPair) : (s.transfers q).esr = s.esr := by
  simp [State.transfers]
@[simp] theorem State.transfers_mode (s : State) (q : PartPair) : (s.transfers q).mode = s.mode := by
  simp [State.transfers]
@[simp] theorem State.transfers_pending (s : State) (q : PartPair) : (s.transfers q).pending = s.pending := by
  simp [State.transfers]
@[simp] theorem State.transfers_intDepth (s : State) (q : PartPair) : (s.transfers q).intDepth = s.intDepth := by
  simp [State.transfers]
@[simp] theorem State.transfers_marks (s : State) (q : PartPair) : (s.transfers q).marks = s.marks := by
  simp [State.transfers]
@[simp] theorem State.transfers_draws (s : State) (q : PartPair) : (s.transfers q).draws = s.draws := by
  simp [State.transfers]
@[simp] theorem State.transfers_cycles (s : State) (q : PartPair) : (s.transfers q).cycles = s.cycles := by
  simp [State.transfers]
@[simp] theorem State.transfers_imem (s : State) (q : PartPair) : (s.transfers q).imem = s.imem := by
  simp [State.transfers]
@[simp] theorem State.transfers_platform (s : State) (q : PartPair) : (s.transfers q).platform = s.platform := by
  simp [State.transfers]


/-! ## Interrupts -/

@[simp] theorem State.entered_r (s : State) (q : IntSource) : (s.entered q).r = s.r := by
  simp [State.entered]
@[simp] theorem State.entered_dp (s : State) (q : IntSource) : (s.entered q).dp = s.dp := by
  simp [State.entered]
@[simp] theorem State.entered_dn (s : State) (q : IntSource) : (s.entered q).dn = s.dn := by
  simp [State.entered]
@[simp] theorem State.entered_dmx (s : State) (q : IntSource) : (s.entered q).dmx = s.dmx := by
  simp [State.entered]
@[simp] theorem State.entered_dmy (s : State) (q : IntSource) : (s.entered q).dmy = s.dmy := by
  simp [State.entered]
@[simp] theorem State.entered_lc (s : State) (q : IntSource) : (s.entered q).lc = s.lc := by
  simp [State.entered]
@[simp] theorem State.entered_lsa (s : State) (q : IntSource) : (s.entered q).lsa = s.lsa := by
  simp [State.entered]
@[simp] theorem State.entered_lea (s : State) (q : IntSource) : (s.entered q).lea = s.lea := by
  simp [State.entered]
@[simp] theorem State.entered_lsp (s : State) (q : IntSource) : (s.entered q).lsp = s.lsp := by
  simp [State.entered]
@[simp] theorem State.entered_lstk (s : State) (q : IntSource) : (s.entered q).lstk = s.lstk := by
  simp [State.entered]
@[simp] theorem State.entered_rc (s : State) (q : IntSource) : (s.entered q).rc = s.rc := by
  simp [State.entered]
@[simp] theorem State.entered_rf (s : State) (q : IntSource) : (s.entered q).rf = s.rf := by
  simp [State.entered]
@[simp] theorem State.entered_esr (s : State) (q : IntSource) : (s.entered q).esr = s.esr := by
  simp [State.entered]
@[simp] theorem State.entered_marks (s : State) (q : IntSource) : (s.entered q).marks = s.marks := by
  simp [State.entered]
@[simp] theorem State.entered_draws (s : State) (q : IntSource) : (s.entered q).draws = s.draws := by
  simp [State.entered]
@[simp] theorem State.entered_cycles (s : State) (q : IntSource) : (s.entered q).cycles = s.cycles := by
  simp [State.entered]
@[simp] theorem State.entered_imem (s : State) (q : IntSource) : (s.entered q).imem = s.imem := by
  simp [State.entered]
@[simp] theorem State.entered_xmem (s : State) (q : IntSource) : (s.entered q).xmem = s.xmem := by
  simp [State.entered]
@[simp] theorem State.entered_ymem (s : State) (q : IntSource) : (s.entered q).ymem = s.ymem := by
  simp [State.entered]
@[simp] theorem State.entered_platform (s : State) (q : IntSource) : (s.entered q).platform = s.platform := by
  simp [State.entered]

@[simp] theorem State.interruptReturned_r (s : State) (c : Nat) : (s.interruptReturned c).r = s.r := by
  simp [State.interruptReturned]
@[simp] theorem State.interruptReturned_dp (s : State) (c : Nat) : (s.interruptReturned c).dp = s.dp := by
  simp [State.interruptReturned]
@[simp] theorem State.interruptReturned_dn (s : State) (c : Nat) : (s.interruptReturned c).dn = s.dn := by
  simp [State.interruptReturned]
@[simp] theorem State.interruptReturned_dmx (s : State) (c : Nat) : (s.interruptReturned c).dmx = s.dmx := by
  simp [State.interruptReturned]
@[simp] theorem State.interruptReturned_dmy (s : State) (c : Nat) : (s.interruptReturned c).dmy = s.dmy := by
  simp [State.interruptReturned]
@[simp] theorem State.interruptReturned_stk (s : State) (c : Nat) : (s.interruptReturned c).stk = s.stk := by
  simp [State.interruptReturned]
@[simp] theorem State.interruptReturned_lc (s : State) (c : Nat) : (s.interruptReturned c).lc = s.lc := by
  simp [State.interruptReturned]
@[simp] theorem State.interruptReturned_lsa (s : State) (c : Nat) : (s.interruptReturned c).lsa = s.lsa := by
  simp [State.interruptReturned]
@[simp] theorem State.interruptReturned_lea (s : State) (c : Nat) : (s.interruptReturned c).lea = s.lea := by
  simp [State.interruptReturned]
@[simp] theorem State.interruptReturned_lsp (s : State) (c : Nat) : (s.interruptReturned c).lsp = s.lsp := by
  simp [State.interruptReturned]
@[simp] theorem State.interruptReturned_lstk (s : State) (c : Nat) : (s.interruptReturned c).lstk = s.lstk := by
  simp [State.interruptReturned]
@[simp] theorem State.interruptReturned_rc (s : State) (c : Nat) : (s.interruptReturned c).rc = s.rc := by
  simp [State.interruptReturned]
@[simp] theorem State.interruptReturned_rf (s : State) (c : Nat) : (s.interruptReturned c).rf = s.rf := by
  simp [State.interruptReturned]
@[simp] theorem State.interruptReturned_esr (s : State) (c : Nat) : (s.interruptReturned c).esr = s.esr := by
  simp [State.interruptReturned]
@[simp] theorem State.interruptReturned_mode (s : State) (c : Nat) : (s.interruptReturned c).mode = s.mode := by
  simp [State.interruptReturned]
@[simp] theorem State.interruptReturned_pending (s : State) (c : Nat) : (s.interruptReturned c).pending = s.pending := by
  simp [State.interruptReturned]
@[simp] theorem State.interruptReturned_draws (s : State) (c : Nat) : (s.interruptReturned c).draws = s.draws := by
  simp [State.interruptReturned]
@[simp] theorem State.interruptReturned_imem (s : State) (c : Nat) : (s.interruptReturned c).imem = s.imem := by
  simp [State.interruptReturned]
@[simp] theorem State.interruptReturned_xmem (s : State) (c : Nat) : (s.interruptReturned c).xmem = s.xmem := by
  simp [State.interruptReturned]
@[simp] theorem State.interruptReturned_ymem (s : State) (c : Nat) : (s.interruptReturned c).ymem = s.ymem := by
  simp [State.interruptReturned]
@[simp] theorem State.interruptReturned_platform (s : State) (c : Nat) : (s.interruptReturned c).platform = s.platform := by
  simp [State.interruptReturned]

@[simp] theorem State.latchRequest_r (s : State) (k : Nat) : (s.latchRequest k).r = s.r := by
  unfold State.latchRequest; split <;> rfl
@[simp] theorem State.latchRequest_pc (s : State) (k : Nat) : (s.latchRequest k).pc = s.pc := by
  unfold State.latchRequest; split <;> rfl
@[simp] theorem State.latchRequest_dp (s : State) (k : Nat) : (s.latchRequest k).dp = s.dp := by
  unfold State.latchRequest; split <;> rfl
@[simp] theorem State.latchRequest_dn (s : State) (k : Nat) : (s.latchRequest k).dn = s.dn := by
  unfold State.latchRequest; split <;> rfl
@[simp] theorem State.latchRequest_dmx (s : State) (k : Nat) : (s.latchRequest k).dmx = s.dmx := by
  unfold State.latchRequest; split <;> rfl
@[simp] theorem State.latchRequest_dmy (s : State) (k : Nat) : (s.latchRequest k).dmy = s.dmy := by
  unfold State.latchRequest; split <;> rfl
@[simp] theorem State.latchRequest_sp (s : State) (k : Nat) : (s.latchRequest k).sp = s.sp := by
  unfold State.latchRequest; split <;> rfl
@[simp] theorem State.latchRequest_stk (s : State) (k : Nat) : (s.latchRequest k).stk = s.stk := by
  unfold State.latchRequest; split <;> rfl
@[simp] theorem State.latchRequest_lc (s : State) (k : Nat) : (s.latchRequest k).lc = s.lc := by
  unfold State.latchRequest; split <;> rfl
@[simp] theorem State.latchRequest_lsa (s : State) (k : Nat) : (s.latchRequest k).lsa = s.lsa := by
  unfold State.latchRequest; split <;> rfl
@[simp] theorem State.latchRequest_lea (s : State) (k : Nat) : (s.latchRequest k).lea = s.lea := by
  unfold State.latchRequest; split <;> rfl
@[simp] theorem State.latchRequest_lsp (s : State) (k : Nat) : (s.latchRequest k).lsp = s.lsp := by
  unfold State.latchRequest; split <;> rfl
@[simp] theorem State.latchRequest_lstk (s : State) (k : Nat) : (s.latchRequest k).lstk = s.lstk := by
  unfold State.latchRequest; split <;> rfl
@[simp] theorem State.latchRequest_rc (s : State) (k : Nat) : (s.latchRequest k).rc = s.rc := by
  unfold State.latchRequest; split <;> rfl
@[simp] theorem State.latchRequest_rf (s : State) (k : Nat) : (s.latchRequest k).rf = s.rf := by
  unfold State.latchRequest; split <;> rfl
@[simp] theorem State.latchRequest_sr (s : State) (k : Nat) : (s.latchRequest k).sr = s.sr := by
  unfold State.latchRequest; split <;> rfl
@[simp] theorem State.latchRequest_eir (s : State) (k : Nat) : (s.latchRequest k).eir = s.eir := by
  unfold State.latchRequest; split <;> rfl
@[simp] theorem State.latchRequest_esr (s : State) (k : Nat) : (s.latchRequest k).esr = s.esr := by
  unfold State.latchRequest; split <;> rfl
@[simp] theorem State.latchRequest_mode (s : State) (k : Nat) : (s.latchRequest k).mode = s.mode := by
  unfold State.latchRequest; split <;> rfl
@[simp] theorem State.latchRequest_intDepth (s : State) (k : Nat) : (s.latchRequest k).intDepth = s.intDepth := by
  unfold State.latchRequest; split <;> rfl
@[simp] theorem State.latchRequest_marks (s : State) (k : Nat) : (s.latchRequest k).marks = s.marks := by
  unfold State.latchRequest; split <;> rfl
@[simp] theorem State.latchRequest_draws (s : State) (k : Nat) : (s.latchRequest k).draws = s.draws := by
  unfold State.latchRequest; split <;> rfl
@[simp] theorem State.latchRequest_cycles (s : State) (k : Nat) : (s.latchRequest k).cycles = s.cycles := by
  unfold State.latchRequest; split <;> rfl
@[simp] theorem State.latchRequest_imem (s : State) (k : Nat) : (s.latchRequest k).imem = s.imem := by
  unfold State.latchRequest; split <;> rfl
@[simp] theorem State.latchRequest_xmem (s : State) (k : Nat) : (s.latchRequest k).xmem = s.xmem := by
  unfold State.latchRequest; split <;> rfl
@[simp] theorem State.latchRequest_ymem (s : State) (k : Nat) : (s.latchRequest k).ymem = s.ymem := by
  unfold State.latchRequest; split <;> rfl
@[simp] theorem State.latchRequest_platform (s : State) (k : Nat) : (s.latchRequest k).platform = s.platform := by
  unfold State.latchRequest; split <;> rfl

@[simp] theorem State.withFetchWord_r (s : State) (n w : Nat) : (s.withFetchWord n w).r = s.r := rfl
@[simp] theorem State.withFetchWord_pc (s : State) (n w : Nat) : (s.withFetchWord n w).pc = s.pc := rfl
@[simp] theorem State.withFetchWord_dp (s : State) (n w : Nat) : (s.withFetchWord n w).dp = s.dp := rfl
@[simp] theorem State.withFetchWord_dn (s : State) (n w : Nat) : (s.withFetchWord n w).dn = s.dn := rfl
@[simp] theorem State.withFetchWord_dmx (s : State) (n w : Nat) : (s.withFetchWord n w).dmx = s.dmx := rfl
@[simp] theorem State.withFetchWord_dmy (s : State) (n w : Nat) : (s.withFetchWord n w).dmy = s.dmy := rfl
@[simp] theorem State.withFetchWord_sp (s : State) (n w : Nat) : (s.withFetchWord n w).sp = s.sp := rfl
@[simp] theorem State.withFetchWord_stk (s : State) (n w : Nat) : (s.withFetchWord n w).stk = s.stk := rfl
@[simp] theorem State.withFetchWord_lc (s : State) (n w : Nat) : (s.withFetchWord n w).lc = s.lc := rfl
@[simp] theorem State.withFetchWord_lsa (s : State) (n w : Nat) : (s.withFetchWord n w).lsa = s.lsa := rfl
@[simp] theorem State.withFetchWord_lea (s : State) (n w : Nat) : (s.withFetchWord n w).lea = s.lea := rfl
@[simp] theorem State.withFetchWord_lsp (s : State) (n w : Nat) : (s.withFetchWord n w).lsp = s.lsp := rfl
@[simp] theorem State.withFetchWord_lstk (s : State) (n w : Nat) : (s.withFetchWord n w).lstk = s.lstk := rfl
@[simp] theorem State.withFetchWord_rc (s : State) (n w : Nat) : (s.withFetchWord n w).rc = s.rc := rfl
@[simp] theorem State.withFetchWord_rf (s : State) (n w : Nat) : (s.withFetchWord n w).rf = s.rf := rfl
@[simp] theorem State.withFetchWord_sr (s : State) (n w : Nat) : (s.withFetchWord n w).sr = s.sr := rfl
@[simp] theorem State.withFetchWord_eir (s : State) (n w : Nat) : (s.withFetchWord n w).eir = s.eir := rfl
@[simp] theorem State.withFetchWord_esr (s : State) (n w : Nat) : (s.withFetchWord n w).esr = s.esr := rfl
@[simp] theorem State.withFetchWord_pending (s : State) (n w : Nat) : (s.withFetchWord n w).pending = s.pending := rfl
@[simp] theorem State.withFetchWord_intDepth (s : State) (n w : Nat) : (s.withFetchWord n w).intDepth = s.intDepth := rfl
@[simp] theorem State.withFetchWord_draws (s : State) (n w : Nat) : (s.withFetchWord n w).draws = s.draws := rfl
@[simp] theorem State.withFetchWord_cycles (s : State) (n w : Nat) : (s.withFetchWord n w).cycles = s.cycles := rfl
@[simp] theorem State.withFetchWord_xmem (s : State) (n w : Nat) : (s.withFetchWord n w).xmem = s.xmem := rfl
@[simp] theorem State.withFetchWord_ymem (s : State) (n w : Nat) : (s.withFetchWord n w).ymem = s.ymem := rfl

end Sys2Proof.Machine
end

