-- ==== Sys2Proof/Laws/Memory.lean ====
section
/-! SUPPORT. Memory: a read after a write, and every memory operation keeps the canonical form. -/

namespace Sys2Proof.Machine

/-! ## Reads after writes -/

@[simp] theorem Memory.read_write (m : Memory) (a x : Nat) (b : Byte) :
    (Memory.write m a b).read x = if x = a then some b else Memory.read m x := by
  induction m with
  | nil => simp [Memory.write, Memory.read]
  | cons c m ih =>
    obtain ⟨k, v⟩ := c
    simp only [Memory.write]
    split
    · simp [Memory.read]
    · split
      · subst a; simp only [Memory.read]; split <;> rfl
      · simp only [Memory.read, ih]
        by_cases h : x = k
        · subst h; simp [show x ≠ a by omega]
        · simp [h]

/-- The bytes read after a 16-bit write: the two of the word, low byte first, and the old others. -/
theorem Memory.read_write16 (m : Memory) (a v : Word16) (x : Nat) :
    (Memory.write16 m a v).read x =
      if x = 2 * a.toNat + 1 then some (v.extractLsb' 8 8)
      else if x = 2 * a.toNat then some (v.extractLsb' 0 8) else Memory.read m x := by
  simp [Memory.write16]

theorem append_bytes (v : Word16) : v.extractLsb' 8 8 ++ v.extractLsb' 0 8 = v := by
  apply BitVec.eq_of_getLsbD_eq
  intro i hi
  simp only [BitVec.getLsbD_append, BitVec.getLsbD_extractLsb']
  by_cases h : i < 8
  · simp [h]
  · simp [h, show i - 8 < 8 by omega, show 8 + (i - 8) = i by omega]

/-- A word read where it was written. -/
@[simp] theorem Memory.read16_write16_same (m : Memory) (a v : Word16) :
    (Memory.write16 m a v).read16 a = some v := by
  simp [Memory.read16, Memory.read_write16, append_bytes]

/-- A word read at another address. -/
theorem Memory.read16_write16_other (m : Memory) (a x v : Word16) (h : x ≠ a) :
    (Memory.write16 m a v).read16 x = Memory.read16 m x := by
  have hn : x.toNat ≠ a.toNat := fun e => h (BitVec.eq_of_toNat_eq e)
  simp [Memory.read16, Memory.read_write16, show ¬ 2 * x.toNat = 2 * a.toNat + 1 by omega,
    show ¬ 2 * x.toNat + 1 = 2 * a.toNat by omega, hn]

theorem append_word32 (v : Word32) :
    v.extractLsb' 24 8 ++ v.extractLsb' 16 8 ++ v.extractLsb' 8 8 ++ v.extractLsb' 0 8 = v := by
  apply BitVec.eq_of_getLsbD_eq
  intro i hi
  simp only [BitVec.getLsbD_append, BitVec.getLsbD_extractLsb']
  rcases (by omega : i < 8 ∨ (8 ≤ i ∧ i < 16) ∨ (16 ≤ i ∧ i < 24) ∨ (24 ≤ i ∧ i < 32)) with
    h | h | h | h
  · simp [h]
  · simp [show ¬ i < 8 by omega, show i - 8 < 8 by omega, show 8 + (i - 8) = i by omega]
  · simp [show ¬ i < 8 by omega, show ¬ i - 8 < 8 by omega, show i - 8 - 8 < 8 by omega,
      show 16 + (i - 8 - 8) = i by omega]
  · simp [show ¬ i < 8 by omega, show ¬ i - 8 < 8 by omega, show ¬ i - 8 - 8 < 8 by omega,
      show i - 8 - 8 - 8 < 8 by omega, show 24 + (i - 8 - 8 - 8) = i by omega]

/-- An instruction word read where it was written. -/
@[simp] theorem Memory.read32_write32_same (m : Memory) (a : Word16) (v : Word32) :
    (Memory.write32 m a v).read32 a = some v := by
  simp [Memory.read32, Memory.write32, append_word32]

/-! ## The two data spaces -/

@[simp] theorem State.data_setData_same (s : State) (p : Space) (m : Memory) :
    (s.setData p m).data p = m := by cases p <;> rfl

theorem State.data_setData_other (s : State) (p q : Space) (m : Memory) (h : q ≠ p) :
    (s.setData p m).data q = s.data q := by cases p <;> cases q <;> simp_all [State.setData, State.data]

theorem State.data_setData (s : State) (p q : Space) (m : Memory) :
    (s.setData p m).data q = if q = p then m else s.data q := by
  by_cases h : q = p
  · subst h; simp
  · simp [h, State.data_setData_other]

/-! ## The canonical form -/

theorem Memory.all_write (f : Host.Cell → Bool) (m : Memory) (a : Nat) (b : Byte)
    (hm : m.all f = true) (hb : f (a, b) = true) : (Memory.write m a b).all f = true := by
  induction m with
  | nil => simp [Memory.write, hb]
  | cons c m ih =>
    obtain ⟨k, v⟩ := c
    simp only [List.all_cons, Bool.and_eq_true] at hm
    simp only [Memory.write]
    split
    · simp [hb, hm.1, hm.2]
    · split
      · subst a; simp [hb, hm.2]
      · simp [hm.1, ih hm.2]

/-- A byte write keeps the canonical form. -/
theorem Memory.wf_write (m : Memory) (a : Nat) (b : Byte) (h : Memory.wf m = true) :
    Memory.wf (Memory.write m a b) = true := by
  induction m with
  | nil => rfl
  | cons c m ih =>
    obtain ⟨k, v⟩ := c
    simp only [Memory.wf, Bool.and_eq_true, List.all_eq_true, decide_eq_true_eq] at h
    simp only [Memory.write]
    split
    · simp only [Memory.wf, Bool.and_eq_true, List.all_cons, List.all_eq_true, decide_eq_true_eq]
      exact ⟨⟨by omega, fun x hx => by have := h.1 x hx; omega⟩, h.1, h.2⟩
    · split
      · simp only [Memory.wf, Bool.and_eq_true, List.all_eq_true, decide_eq_true_eq]
        exact h
      · simp only [Memory.wf, Bool.and_eq_true]
        refine ⟨Memory.all_write _ _ _ _ ?_ ?_, ih h.2⟩
        · simpa using h.1
        · simp; omega

/-- A byte write below a bound keeps all cells below it. -/
theorem Memory.below_write (n : Nat) (m : Memory) (a : Nat) (b : Byte) (h : Memory.below n m = true)
    (ha : a < n) : Memory.below n (Memory.write m a b) = true :=
  Memory.all_write _ _ _ _ h (by simpa using ha)

theorem Memory.wf_write16 (m : Memory) (a v : Word16) (h : Memory.wf m = true) :
    Memory.wf (Memory.write16 m a v) = true :=
  Memory.wf_write _ _ _ (Memory.wf_write _ _ _ h)

theorem Memory.below_write16 (m : Memory) (a v : Word16) (h : Memory.below (2 * 65536) m = true) :
    Memory.below (2 * 65536) (Memory.write16 m a v) = true :=
  Memory.below_write _ _ _ _ (Memory.below_write _ _ _ _ h (by omega)) (by omega)

theorem Memory.wf_write32 (m : Memory) (a : Word16) (v : Word32) (h : Memory.wf m = true) :
    Memory.wf (Memory.write32 m a v) = true :=
  Memory.wf_write _ _ _ (Memory.wf_write _ _ _ (Memory.wf_write _ _ _ (Memory.wf_write _ _ _ h)))

/-- Both data memories are canonical and inside their 64 K words. -/
def State.DataOk (s : State) : Prop :=
  ∀ p, Memory.wf (s.data p) = true ∧ Memory.below (2 * 65536) (s.data p) = true

theorem accessEffect_dataOk (b s : State) (p : Space) (a : Word16) (op : PartOp) (k : GReg)
    (h : s.DataOk) : (accessEffect b p a op k s).DataOk := by
  intro q
  cases op with
  | load part =>
    have := h q
    cases q <;> exact this
  | store part =>
    simp only [accessEffect, State.data_setData]
    split
    · exact ⟨Memory.wf_write16 _ _ _ (h p).1, Memory.below_write16 _ _ _ (h p).2⟩
    · exact h q

theorem sideEffect_dataOk (b s : State) (p : Space) (o : Option PartSide) (h : s.DataOk) :
    (sideEffect b p o s).DataOk := by
  cases o with
  | none => exact h
  | some d =>
    intro q
    have := accessEffect_dataOk b s p (b.sideAddress p d) d.op d.reg h q
    cases q <;> exact this

/-- The transfers of a word keep both data memories canonical. -/
theorem State.transfers_dataOk (s : State) (q : PartPair) (h : s.DataOk) : (s.transfers q).DataOk :=
  sideEffect_dataOk _ _ _ _ (sideEffect_dataOk _ _ _ _ h)

theorem reset_memory_wf : State.reset.DataOk ∧ Memory.wf State.reset.imem = true := by
  refine ⟨fun p => ?_, rfl⟩
  cases p <;> exact ⟨rfl, rfl⟩

end Sys2Proof.Machine
end

