-- ==== Sys2Proof/Laws/Ops.lean ====
section
/-! SUPPORT. What each shared operation can do, said once. -/

namespace Sys2Proof.Machine

/-! ## Stops -/

@[simp] theorem guardStop_none (k : Res) : guardStop none k = k := rfl

/-- A guarded result is a next state exactly when there is no reason to stop. -/
theorem guardStop_eq_next_iff (o : Option Stop) (k : Res) (t : State) :
    guardStop o k = .next t ↔ o = none ∧ k = .next t := by
  cases o with
  | none => simp
  | some x => cases x <;> simp [guardStop]

@[simp] theorem stopIf_eq_none_iff (b : Bool) (x : Stop) : stopIf b x = none ↔ b = false := by
  cases b <;> simp [stopIf]

@[simp] theorem stopIf_true (x : Stop) : stopIf true x = some x := rfl

@[simp] theorem stopIf_false (x : Stop) : stopIf false x = none := rfl

/-! ## Places in the stacks -/

theorem State.stackPlace_eq_some (s : State) (h : 1 ≤ s.sp.toNat ∧ s.sp.toNat ≤ 15) :
    s.stackPlace = some ⟨s.sp.toNat - 1, by omega⟩ := by simp [State.stackPlace, h]

theorem State.stackPlace_isSome_iff (s : State) :
    s.stackPlace.isSome = true ↔ 1 ≤ s.sp.toNat ∧ s.sp.toNat ≤ 15 := by
  unfold State.stackPlace; split <;> simp_all

theorem State.stackPlace_isNone_iff (s : State) :
    s.stackPlace.isNone = true ↔ ¬ (1 ≤ s.sp.toNat ∧ s.sp.toNat ≤ 15) := by
  unfold State.stackPlace; split <;> simp_all

theorem State.loopPlace_eq_some (s : State) (h : 1 ≤ s.lsp.toNat ∧ s.lsp.toNat ≤ 4) :
    s.loopPlace = some ⟨s.lsp.toNat - 1, by omega⟩ := by simp [State.loopPlace, h]

theorem State.loopPlace_isNone_iff (s : State) :
    s.loopPlace.isNone = true ↔ ¬ (1 ≤ s.lsp.toNat ∧ s.lsp.toNat ≤ 4) := by
  unfold State.loopPlace; split <;> simp_all

theorem loopPlace_congr (s u : State) (h : u.lsp = s.lsp) : u.loopPlace = s.loopPlace := by
  simp [State.loopPlace, h]

theorem loopTop_congr (s u : State) (h : u.lsp = s.lsp) (hk : u.lstk = s.lstk) :
    u.loopTop = s.loopTop := by
  simp only [State.loopTop, loopPlace_congr s u h, hk]

/-- A push writes STK[SP + 1] and moves SP to it (R326, R388). -/
theorem State.pushReturn_eq (s : State) (a : Word16) (h : s.sp.toNat ≤ 14) :
    s.pushReturn a = { s with sp := s.sp + 1, stk := s.stk.setIfInBounds s.sp.toNat a } := by
  have hs : (s.sp + 1).toNat = s.sp.toNat + 1 := by
    rw [BitVec.toNat_add]; simp; omega
  have hp : ({ s with sp := s.sp + 1 } : State).stackPlace = some ⟨s.sp.toNat, by omega⟩ := by
    rw [State.stackPlace_eq_some { s with sp := s.sp + 1 } (by simp only [hs]; omega)]
    simp only [hs, Nat.add_sub_cancel]
  simp only [State.pushReturn, State.setStackTop, hp]
  congr 1
  apply Vector.toArray_inj.mp
  simp [Array.setIfInBounds, show s.sp.toNat < 15 by omega]

/-- The entry SP points at. -/
theorem State.stackTop_eq (s : State) (h : 1 ≤ s.sp.toNat ∧ s.sp.toNat ≤ 15) :
    s.stackTop = s.stk[s.sp.toNat - 1]'(by omega) := by
  simp [State.stackTop, State.stackPlace_eq_some s h]

/-! ## The end of a word -/

theorem repeatGoesOn_iff (s : State) : s.repeatGoesOn = true ↔ s.rf = false ∧ 1 < s.rc.toNat := by
  simp [State.repeatGoesOn]

theorem atLoopEnd_iff (s : State) : s.atLoopEnd = true ↔ s.lsp ≠ 0 ∧ s.pc = s.lea := by
  simp [State.atLoopEnd, State.loopActive]

theorem loopGoesOn_iff (s : State) :
    s.loopGoesOn = true ↔ (s.lsp ≠ 0 ∧ s.pc = s.lea) ∧ 1 < s.lc.toNat % 0x8000 := by
  simp only [State.loopGoesOn, Bool.and_eq_true, atLoopEnd_iff, decide_eq_true_eq]

theorem lsp_ne_zero_iff (s : State) : s.lsp ≠ 0 ↔ 1 ≤ s.lsp.toNat := by
  rw [Nat.one_le_iff_ne_zero, ne_eq, ne_eq, BitVec.toNat_eq]
  rfl

theorem retireStop_eq_none_iff (s : State) : retireStop s = none ↔ CanRetire s := by
  simp only [retireStop, advanceStop, CanRetire, Bool.or_eq_true, repeatGoesOn_iff, loopGoesOn_iff]
  by_cases h1 : s.rf = false ∧ 1 < s.rc.toNat
  · simp [h1]
  · by_cases h2 : (s.lsp ≠ 0 ∧ s.pc = s.lea) ∧ 1 < s.lc.toNat % 0x8000
    · rw [if_pos (Or.inr h2)]
      exact ⟨fun _ => Or.inr (Or.inl ⟨h2.1.1, h2.1.2, h2.2⟩), fun _ => rfl⟩
    · rw [if_neg (not_or.2 ⟨h1, h2⟩)]
      have h2' : ¬ (s.lsp ≠ 0 ∧ s.pc = s.lea ∧ 1 < s.lc.toNat % 0x8000) := fun h =>
        h2 ⟨⟨h.1, h.2.1⟩, h.2.2⟩
      simp only [h1, h2', false_or, Option.or_eq_none_iff, stopIf_eq_none_iff]
      rw [Bool.eq_false_iff, Bool.eq_false_iff, ne_eq, ne_eq, Bool.and_eq_true, atLoopEnd_iff,
        State.loopPlace_isNone_iff, beq_iff_eq]
      have := lsp_ne_zero_iff s
      tauto

/-- A word that is no taken branch ends in the next PC of R158 exactly when there is one. -/
theorem complete_eq_next_iff (m : Marks) (c : Nat) (s t : State) :
    complete m c s = .next t ↔ CanRetire s ∧ s.retired m c = t := by
  simp [complete, guardStop_eq_next_iff, retireStop_eq_none_iff]

theorem complete_eq (m : Marks) (c : Nat) (s : State) (h : CanRetire s) :
    complete m c s = .next (s.retired m c) := (complete_eq_next_iff ..).2 ⟨h, rfl⟩

/-- A word that only advances PC ends exactly when PC is not 0xFFFF. -/
theorem advance_eq_next_iff (m : Marks) (c : Nat) (s t : State) :
    advance m c s = .next t ↔ s.pc ≠ 0xFFFF ∧ s.goTo (s.pc + 1) m c = t := by
  simp [advance, guardStop_eq_next_iff, advanceStop]

/-- The bookkeeping of R158, as `Retires` says it. -/
theorem retired_retires (m : Marks) (s : State) : Retires m s (s.retired m 1) := by
  refine ⟨by simp, ?_⟩
  simp only [State.retired, repeatGoesOn_iff, atLoopEnd_iff, loopGoesOn_iff]
  by_cases h1 : s.rf = false ∧ 1 < s.rc.toNat
  · rw [if_pos h1, if_pos h1]
    exact ⟨rfl, rfl, h1.1, ⟨rfl, rfl, rfl, rfl⟩, rfl⟩
  · rw [if_neg h1, if_neg h1]
    by_cases h2 : s.lsp ≠ 0 ∧ s.pc = s.lea
    · rw [if_pos h2, if_pos h2]
      by_cases h3 : 1 < s.lc.toNat % 0x8000
      · rw [if_pos ⟨h2, h3⟩, if_pos h3]
        exact ⟨rfl, rfl, rfl, rfl, rfl, rfl, rfl, rfl⟩
      · rw [if_neg (fun h => h3 h.2), if_neg h3]
        exact ⟨rfl, rfl, rfl, rfl, rfl, rfl, rfl, rfl⟩
    · rw [if_neg h2, if_neg h2]
      exact ⟨rfl, rfl, rfl, ⟨rfl, rfl, rfl, rfl⟩, rfl⟩

/-- What `CanRetire` and `Retires` read of the state before the word. -/
structure SameControl (s u : State) : Prop where
  pc : u.pc = s.pc
  rc : u.rc = s.rc
  rf : u.rf = s.rf
  lc : u.lc = s.lc
  lsa : u.lsa = s.lsa
  lea : u.lea = s.lea
  lsp : u.lsp = s.lsp
  lstk : u.lstk = s.lstk
  cycles : u.cycles = s.cycles

theorem SameControl.canRetire {s u : State} (h : SameControl s u) : CanRetire u ↔ CanRetire s := by
  simp only [CanRetire, h.pc, h.rc, h.rf, h.lc, h.lea, h.lsp]

theorem SameControl.retires {s u : State} (h : SameControl s u) (m : Marks) (t : State) :
    Retires m u t ↔ Retires m s t := by
  simp only [Retires, LoopKept, h.pc, h.rc, h.rf, h.lc, h.lsa, h.lea, h.lsp, h.cycles,
    loopTop_congr s u h.lsp h.lstk]

theorem SameControl.transfers (s : State) (q : PartPair) : SameControl s (s.transfers q) := by
  constructor <;> simp

theorem SameControl.writeAlu (s : State) (rd : GReg) (o : AluOut) :
    SameControl s (s.writeAlu rd o) := by constructor <;> simp

theorem SameControl.trans {s u v : State} (h : SameControl s u) (g : SameControl u v) :
    SameControl s v := by
  constructor <;> simp [h.pc, h.rc, h.rf, h.lc, h.lsa, h.lea, h.lsp, h.lstk, h.cycles, g.pc, g.rc,
    g.rf, g.lc, g.lsa, g.lea, g.lsp, g.lstk, g.cycles]

/-! ## Placement -/

theorem nearLoopEnd_eq_true_iff (s : State) : s.nearLoopEnd = true ↔ InLastThree s := by
  simp [State.nearLoopEnd, State.loopActive, InLastThree]

theorem placeStop_eq_none_iff (s : State) : placeStop s = none ↔ PlaceFree s := by
  simp only [placeStop, Option.or_eq_none_iff, stopIf_eq_none_iff, PlaceFree,
    ← nearLoopEnd_eq_true_iff]
  simp

/-! ## Checks of transfers -/

theorem moduloInRange_iff (d : Word16) :
    moduloInRange d = true ↔ 1 ≤ d.toNat ∧ d.toNat ≤ 0x7FFF := by
  simp [moduloInRange]; omega

theorem countInRange_iff (d : Word16) :
    countInRange d = true ↔ 1 ≤ d.toNat ∧ d.toNat ≤ 0x7FFF := by
  simp [countInRange]; omega

theorem pointerStop_eq_none_iff (s : State) (n : DReg) (m : Modi) :
    pointerStop s n m = none ↔ PointerReady s n m := by
  simp only [pointerStop, Option.or_eq_none_iff, stopIf_eq_none_iff, PointerReady,
    ← moduloInRange_iff, Bool.and_eq_false_iff, Bool.not_eq_false', beq_eq_false_iff_ne]
  by_cases h : m = .modulo <;> simp [h]

theorem accessStop_eq_none_iff (s : State) (p : Space) (a : Word16) (o : PartOp) :
    accessStop s p a o = none ↔ AccessReady s p a o := by
  cases o with
  | store part =>
    simp only [accessStop, AccessReady]
    cases s.region p a <;> simp
  | load part =>
    simp only [accessStop, AccessReady]
    cases s.region p a <;> simp [Option.isSome_iff_ne_none, stopIf]

/-- The transfers of a word can be made exactly when `PairReady` says so. -/
theorem pairStop_eq_none_iff (s : State) (q : PartPair) : pairStop s q = none ↔ PairReady s q := by
  obtain ⟨x, y⟩ := q
  simp only [pairStop, Option.or_eq_none_iff, PairReady, RegionsClash]
  cases x with
  | none =>
    cases y with
    | none => simp [sidePointerStop, sideAccessStop, regionPairStop, SideReady]
    | some b =>
      simp [sidePointerStop, sideAccessStop, regionPairStop, SideReady, pointerStop_eq_none_iff,
        accessStop_eq_none_iff]
  | some a =>
    cases y with
    | none =>
      simp [sidePointerStop, sideAccessStop, regionPairStop, SideReady, pointerStop_eq_none_iff,
        accessStop_eq_none_iff]
    | some b =>
      simp [sidePointerStop, sideAccessStop, regionPairStop, SideReady, pointerStop_eq_none_iff,
        accessStop_eq_none_iff]
      tauto

/-! ## Registers and pointers -/

@[simp] theorem State.reg_setReg_same (s : State) (i : GReg) (v : Word40) : (s.setReg i v).reg i = v := by
  simp [State.reg]

theorem State.reg_setReg_other (s : State) (i k : GReg) (v : Word40) (h : k ≠ i) :
    (s.setReg i v).reg k = s.reg k := by
  have : i.val ≠ k.val := fun e => h (Fin.ext e.symm)
  simp [State.reg, this]

theorem State.reg_setReg (s : State) (i k : GReg) (v : Word40) :
    (s.setReg i v).reg k = if i = k then v else s.reg k := by
  by_cases h : i = k
  · subst h; simp
  · simp [h, State.reg_setReg_other s i k v (Ne.symm h)]

@[simp] theorem State.ptr_setPtr_same (s : State) (i : DReg) (v : Word16) : (s.setPtr i v).ptr i = v := by
  simp [State.ptr]

theorem State.ptr_setPtr_other (s : State) (i k : DReg) (v : Word16) (h : k ≠ i) :
    (s.setPtr i v).ptr k = s.ptr k := by
  have : i.val ≠ k.val := fun e => h (Fin.ext e.symm)
  simp [State.ptr, this]

@[simp] theorem State.idx_setIdx_same (s : State) (i : DReg) (v : Word16) : (s.setIdx i v).idx i = v := by
  simp [State.idx]

theorem State.idx_setIdx_other (s : State) (i k : DReg) (v : Word16) (h : k ≠ i) :
    (s.setIdx i v).idx k = s.idx k := by
  have : i.val ≠ k.val := fun e => h (Fin.ext e.symm)
  simp [State.idx, this]

theorem sidePtr_x_ne_y (a b : Fin 4) : sidePtr .x a ≠ sidePtr .y b := by
  revert a b; decide

/-! ## Effects of transfers -/

@[simp] theorem State.reg_setPtr (s : State) (n : DReg) (v : Word16) (k : GReg) :
    (s.setPtr n v).reg k = s.reg k := rfl

@[simp] theorem State.data_setPtr (s : State) (n : DReg) (v : Word16) (p : Space) :
    (s.setPtr n v).data p = s.data p := by cases p <;> rfl

@[simp] theorem State.data_setReg (s : State) (i : GReg) (v : Word40) (p : Space) :
    (s.setReg i v).data p = s.data p := by cases p <;> rfl

@[simp] theorem State.reg_setData (s : State) (p : Space) (m : Memory) (k : GReg) :
    (s.setData p m).reg k = s.reg k := by simp [State.reg]

@[simp] theorem State.ptr_setData (s : State) (p : Space) (m : Memory) (k : DReg) :
    (s.setData p m).ptr k = s.ptr k := by simp [State.ptr]

@[simp] theorem State.ptr_setReg (s : State) (i : GReg) (v : Word40) (k : DReg) :
    (s.setReg i v).ptr k = s.ptr k := rfl

/-- The registers after one side. -/
theorem sideEffect_reg (b s : State) (p : Space) (o : Option PartSide) (k : GReg) :
    (sideEffect b p o s).reg k = loadedInto b p o k (s.reg k) := by
  cases o with
  | none => rfl
  | some d =>
    simp only [sideEffect, loadedInto, accessEffect, State.reg_setPtr]
    cases d.op with
    | store part => simp
    | load part =>
      simp only [State.reg_setReg]
      by_cases h : d.reg = k
      · subst h; simp
      · simp [h]

/-- The general registers after the transfers of a word. -/
theorem State.transfers_reg (s : State) (q : PartPair) (k : GReg) :
    (s.transfers q).reg k = loadedReg s q k := by
  simp only [State.transfers, sideEffect_reg, loadedReg]

theorem sideEffect_ptr (b s : State) (p : Space) (o : Option PartSide) (n : DReg) :
    (sideEffect b p o s).ptr n =
      match o with
      | none => s.ptr n
      | some d => if sidePtr p d.dp = n then b.nextPointer (sidePtr p d.dp) d.modi else s.ptr n := by
  cases o with
  | none => rfl
  | some d =>
    simp only [sideEffect]
    by_cases h : sidePtr p d.dp = n
    · subst h; simp
    · rw [State.ptr_setPtr_other _ _ _ _ (Ne.symm h)]
      simp only [if_neg h, accessEffect]
      cases d.op <;> simp

/-- The bytes of a space after one side. -/
theorem sideEffect_data (b s : State) (p r : Space) (o : Option PartSide) :
    (sideEffect b p o s).data r =
      match o with
      | none => s.data r
      | some d =>
        match d.op with
        | .load _ => s.data r
        | .store part =>
          if r = p then (s.data p).write16 (b.sideAddress p d) (storedPart part (b.reg d.reg))
          else s.data r := by
  cases o with
  | none => rfl
  | some d =>
    simp only [sideEffect, State.data_setPtr, accessEffect]
    cases d.op with
    | load part => simp
    | store part => simp [State.data_setData]

/-- The data memory of a space after the transfers of a word. -/
theorem State.transfers_data (s : State) (q : PartPair) (p : Space) :
    (s.transfers q).data p =
      match pairSide q p with
      | none => s.data p
      | some d =>
        match d.op with
        | .load _ => s.data p
        | .store part =>
          (s.data p).write16 (s.sideAddress p d) (storedPart part (s.reg d.reg)) := by
  simp only [State.transfers, sideEffect_data]
  obtain ⟨x, y⟩ := q
  cases p
  · cases y with
    | none => simp [pairSide]
    | some e =>
      simp only [pairSide]
      cases e.op with
      | load _ => simp
      | store _ => simp
  · cases x with
    | none => simp [pairSide]
    | some d =>
      simp only [pairSide]
      cases d.op with
      | load _ => simp
      | store _ => simp

/-- The pointers and the data memory after the transfers of a word. -/
theorem State.transfers_done (s : State) (q : PartPair) : TransfersDone q s (s.transfers q) := by
  refine ⟨?_, ?_, ?_, ?_⟩
  · intro p d h
    simp only [State.transfers, sideEffect_ptr]
    cases p
    · have h' : q.x = some d := h
      have hx := fun b => sidePtr_x_ne_y d.dp b
      cases hy : q.y with
      | none => simp [h']
      | some e => simp [h', (hx e.dp).symm]
    · have h' : q.y = some d := h
      simp [h']
  · intro n h
    simp only [State.transfers, sideEffect_ptr]
    cases hy : q.y with
    | none =>
      cases hx : q.x with
      | none => rfl
      | some d => simp [h .x d hx]
    | some e =>
      simp only [if_neg (h .y e hy)]
      cases hx : q.x with
      | none => rfl
      | some d => simp [h .x d hx]
  · intro p d part h ho
    rw [State.transfers_data, h]
    simp [ho]
  · intro p b h
    rw [State.transfers_data]
    cases hq : pairSide q p with
    | none => rfl
    | some d =>
      cases ho : d.op with
      | load _ => simp [ho]
      | store part =>
        obtain ⟨h1, h2⟩ := h _ ⟨d, part, hq, ho, rfl⟩
        simp [ho, Memory.read_write16, h1, h2]

end Sys2Proof.Machine
end

