-- ==== Sys2Proof/Laws/Control.lean ====
section
/-! SUPPORT. What the operations of MOV, REP, LOOP, LPOP and the interrupts can do, said once. -/

namespace Sys2Proof.Machine

/-- A placement check passes where a barred word may stand. -/
theorem placeStop_none {s : State} (h : PlaceFree s) : placeStop s = none := (placeStop_eq_none_iff s).2 h

/-- The placement check in a repeat (R343). -/
theorem placeStop_repeat {s : State} (h : s.rf = false) :
    placeStop s = some (.fault .forbiddenRepeatTarget) := by simp [placeStop, h]

/-- The placement check near a loop end (R349). -/
theorem placeStop_nearEnd {s : State} (h : s.rf = true) (g : InLastThree s) :
    placeStop s = some (.fault .forbiddenNearLoopEnd) := by
  simp [placeStop, h, (nearLoopEnd_eq_true_iff s).2 g]

/-- A narrow register receives the low bits (R302). -/
theorem narrowed_eq (w : Nat) (v : Word16) (h : w ≤ 16) :
    narrowed w v = BitVec.ofNat 16 (v.toNat % 2 ^ w) := by
  apply BitVec.eq_of_toNat_eq
  have h1 : 2 ^ w ≤ 2 ^ 16 := Nat.pow_le_pow_right (by omega) h
  have h2 : 0 < 2 ^ w := Nat.two_pow_pos w
  have h3 : v.toNat % 2 ^ w < 2 ^ w := Nat.mod_lt _ h2
  simp only [narrowed, lowMask, BitVec.toNat_and, BitVec.toNat_ofNat]
  rw [Nat.mod_eq_of_lt (by omega : 2 ^ w - 1 < 2 ^ 16), Nat.and_two_pow_sub_one_eq_mod,
    Nat.mod_eq_of_lt (by omega : _ < 2 ^ 16)]

/-- Sequential advance is possible where PC is not 0xFFFF (R24). -/
theorem advanceStop_none {s : State} (h : s.pc ≠ 0xFFFF) : advanceStop s = none := by
  simp only [advanceStop, stopIf_eq_none_iff]
  simpa using h

/-- A count passes its check exactly in 1-0x7FFF (R341, R346). -/
theorem countStop_eq_none_iff (c : Word16) : countStop c = none ↔ 1 ≤ c.toNat ∧ c.toNat ≤ 0x7FFF := by
  simp only [countStop, stopIf_eq_none_iff, Bool.not_eq_false', countInRange_iff]

/-- A count outside the range is the fault BadCount. -/
theorem countStop_bad {c : Word16} (h : c.toNat = 0 ∨ 0x8000 ≤ c.toNat) :
    countStop c = some (.fault .badCount) := by
  have g : ¬ (1 ≤ c.toNat ∧ c.toNat ≤ 0x7FFF) := by omega
  rw [← countStop_eq_none_iff] at g
  simp only [countStop, stopIf] at *
  split at g <;> simp_all

/-- The entry LSP points at becomes the active loop (R347, R351). -/
theorem State.popLoop_eq (s : State) (k : Fin 4) (h : s.lsp.toNat = k.val + 1) :
    s.popLoop = { s with lc := s.lstk[k].lc, lea := s.lstk[k].lea, lsa := s.lstk[k].lsa,
                         lsp := BitVec.ofNat 16 k.val } := by
  have e : s.lsp - 1 = BitVec.ofNat 16 k.val := by
    apply BitVec.eq_of_toNat_eq
    simp [BitVec.toNat_sub, h]
    omega
  have g : s.loopPlace = some k := by
    rw [State.loopPlace_eq_some s (by omega)]
    congr 1
    apply Fin.ext
    show s.lsp.toNat - 1 = k.val
    omega
  simp only [State.popLoop, State.loopTop, g, e]

/-- LOOP saves LSA, LEA and LC into the next entry (R345). -/
theorem State.pushLoop_eq (s : State) (k : Fin 4) (h : s.lsp.toNat = k.val) :
    s.pushLoop = { s with lsp := BitVec.ofNat 16 (k.val + 1), lstk := s.lstk.set k ⟨s.lsa, s.lea, s.lc⟩ } := by
  have e : s.lsp + 1 = BitVec.ofNat 16 (k.val + 1) := by
    apply BitVec.eq_of_toNat_eq
    simp [h]
  have n : (s.lsp + 1).toNat = k.val + 1 := by
    rw [e]
    simp
    omega
  have g : ({ s with lsp := s.lsp + 1 } : State).loopPlace = some k := by
    rw [State.loopPlace_eq_some _ (by show 1 ≤ (s.lsp + 1).toNat ∧ (s.lsp + 1).toNat ≤ 4; omega)]
    congr 1
    apply Fin.ext
    show (s.lsp + 1).toNat - 1 = k.val
    omega
  simp only [State.pushLoop, State.setLoopTop, g]
  rw [← e]

/-- No vector entry follows (R385). -/
theorem beforeVectorEntry_eq_false_iff (s : State) :
    beforeVectorEntry s = false ↔ ∀ q ∈ s.platform.intSources, s.pc.toNat + 1 ≠ q.vector.toNat := by
  simp only [beforeVectorEntry, List.any_eq_false, decide_eq_true_eq, ne_eq]

/-- Interrupt entry, field by field, with room on the stack (R388). -/
theorem State.entered_eq (s : State) (q : IntSource) (h : s.sp.toNat ≤ 14) :
    s.entered q =
      { s with
        sp := s.sp + 1
        stk := s.stk.setIfInBounds s.sp.toNat s.pc
        sr := withEnableBits (Config.saveIE s.sr s.eir).1 s.sr
        eir := narrowed s.platform.eirWidth (Config.saveIE s.sr s.eir).2
        pending := s.pending.filter (fun k => k != q.id)
        intDepth := s.intDepth + 1
        mode := .running
        pc := q.vector } := by
  simp only [State.entered, State.pushReturn_eq s _ h, State.setEnables]

/-- Taking an interrupt gives the entered state exactly when the stack has room (R388). -/
theorem acceptInterrupt_eq_next_iff (q : IntSource) (s t : State) :
    acceptInterrupt q s = .next t ↔ s.sp.toNat ≤ 14 ∧ t = s.entered q := by
  simp only [acceptInterrupt, guardStop_eq_next_iff, pushStop, stopIf_eq_none_iff, decide_eq_false_iff_not,
    Nat.not_le, Host.Outcome.next.injEq]
  constructor
  · rintro ⟨a, b⟩
    exact ⟨by omega, b.symm⟩
  · rintro ⟨a, b⟩
    exact ⟨by omega, b.symm⟩

end Sys2Proof.Machine
end

