-- ==== Sys2Proof/Laws/Decode.lean ====
section
/-! SUPPORT. Lemmas of the decoder: fields of a word, the byte form of a word, and each code table
read back. -/

namespace Sys2Proof

/-- A field of a word written as a number below 2^32. -/
theorem fld_ofNat (n lo len : Nat) (h : n < 2 ^ 32) :
    fld (BitVec.ofNat 32 n) lo len = n / 2 ^ lo % 2 ^ len := by
  rw [fld, BitVec.toNat_ofNat, Nat.mod_eq_of_lt h]

/-- A field is below its size. -/
theorem fld_lt (w : Word32) (lo len : Nat) : fld w lo len < 2 ^ len :=
  Nat.mod_lt _ (Nat.two_pow_pos len)

/-- A field is the bit slice of its place. -/
theorem fld_eq_extract (w : Word32) (lo len : Nat) : fld w lo len = (w.extractLsb' lo len).toNat := by
  simp [fld, BitVec.extractLsb'_toNat, Nat.shiftRight_eq_div_pow]

/-- The four bytes of a word make the word again. -/
theorem wordOfBytes_bytes (w : Word32) :
    wordOfBytes (BitVec.ofNat 8 (fld w 0 8)) (BitVec.ofNat 8 (fld w 8 8)) (BitVec.ofNat 8 (fld w 16 8))
      (BitVec.ofNat 8 (fld w 24 8)) = w := by
  apply BitVec.eq_of_toNat_eq
  have h0 := fld_lt w 0 8
  have h1 := fld_lt w 8 8
  have h2 := fld_lt w 16 8
  have h3 := fld_lt w 24 8
  have hw := w.isLt
  simp only [wordOfBytes, BitVec.toNat_append, BitVec.toNat_ofNat, Nat.mod_eq_of_lt h0,
    Nat.mod_eq_of_lt h1, Nat.mod_eq_of_lt h2, Nat.mod_eq_of_lt h3,
    ← Nat.shiftLeft_add_eq_or_of_lt h0, ← Nat.shiftLeft_add_eq_or_of_lt h1,
    ← Nat.shiftLeft_add_eq_or_of_lt h2]
  simp only [Nat.shiftLeft_eq, fld]
  omega

/-- Decoding the bytes of a word is decoding the word. -/
@[simp] theorem decode_bytesOfWord (c : Codes) (w : Word32) :
    decode c (bytesOfWord w) = decodeWord c w := by
  simp only [decode, bytesOfWord, wordOfBytes_bytes]

/-! ## Code tables -/

/-- The field value of a name leads back to its place. -/
theorem placeOf_codeAt {t : List Nat} {n bound k : Nat} (h : soundTable t n bound = true) (hk : k < n) :
    placeOf t (codeAt t k) = some k := by
  simp only [soundTable, Bool.and_eq_true, decide_eq_true_eq] at h
  obtain ⟨⟨rfl, nd⟩, -⟩ := h
  clear bound
  induction t generalizing k with
  | nil => simp at hk
  | cons v rest ih =>
    rw [List.nodup_cons] at nd
    cases k with
    | zero => simp [codeAt, placeOf]
    | succ k =>
      have hk' : k < rest.length := by simpa using hk
      have e : codeAt (v :: rest) (k + 1) = codeAt rest k := by simp [codeAt]
      have m : codeAt rest k ∈ rest := by
        simp only [codeAt, List.getD_eq_getElem?_getD, List.getElem?_eq_getElem hk', Option.getD_some]
        exact List.getElem_mem hk'
      have ne : v ≠ codeAt rest k := fun h => nd.1 (h ▸ m)
      simp [placeOf, e, ne, ih nd.2 hk']

/-- A value of a table lies below the size of its field. -/
theorem codeAt_lt {t : List Nat} {n bound k : Nat} (h : soundTable t n bound = true) (hk : k < n) :
    codeAt t k < bound := by
  simp only [soundTable, Bool.and_eq_true, decide_eq_true_eq, List.all_eq_true] at h
  obtain ⟨⟨rfl, -⟩, b⟩ := h
  simp only [codeAt, List.getD_eq_getElem?_getD, List.getElem?_eq_getElem hk, Option.getD_some]
  exact b _ (List.getElem_mem hk)

/-- A value has a place exactly where it stands in the table. -/
theorem placeOf_eq_none_iff (t : List Nat) (x : Nat) : placeOf t x = none ↔ x ∉ t := by
  induction t with
  | nil => simp [placeOf]
  | cons v rest ih =>
    by_cases h : v = x
    · simp [placeOf, h]
    · simp [placeOf, h, ih, Ne.symm h, eq_comm]

/-- The place of a value is a place of the table. -/
theorem placeOf_lt {t : List Nat} {x k : Nat} (h : placeOf t x = some k) : k < t.length := by
  induction t generalizing k with
  | nil => simp [placeOf] at h
  | cons v rest ih =>
    by_cases e : v = x
    · simp [placeOf, e] at h; simp [← h]
    · simp only [placeOf, e, if_false, Option.map_eq_some_iff] at h
      obtain ⟨j, hj, rfl⟩ := h
      simpa using ih hj

/-- What `Codes.sound` says of each table. -/
theorem Codes.sound_iff (c : Codes) : c.sound = true ↔
    soundTable c.op3 16 16 = true ∧ soundTable c.op2 14 16 = true ∧ soundTable c.opImm 8 16 = true ∧
      soundTable c.ctrl 5 (2 ^ 28) = true ∧ soundTable c.addrReg 18 32 = true ∧
      soundTable c.ctlReg 10 32 = true ∧ soundTable c.suf 8 16 = true ∧ soundTable c.modi 7 8 = true ∧
      soundTable c.cond 9 16 = true := by
  simp only [Codes.sound, Bool.and_eq_true, and_assoc]

@[simp] theorem bitMeans_bitCode (y b : Bool) : bitMeans y (bitCode y b) = b := by
  cases y <;> cases b <;> rfl

/-- The code of a bit is a bit. -/
theorem bitCode_lt (y b : Bool) : bitCode y b < 2 := by cases y <;> cases b <;> decide

@[simp] theorem Modi.ofPlace_place (m : Modi) : Modi.ofPlace m.place = some m := by cases m <;> rfl

/-- A pointer form is not at the place of `nop`. -/
theorem Modi.place_bounds (m : Modi) : 0 < m.place ∧ m.place < 7 := by cases m <;> decide

@[simp] theorem Dir.ofCode_code (c : Codes) (d : Dir) : Dir.ofCode c (d.code c) = d := by
  cases d <;> simp [Dir.ofCode, Dir.code]

@[simp] theorem Space.ofCode_code (c : Codes) (s : Space) : Space.ofCode c (s.code c) = s := by
  cases s <;> simp [Space.ofCode, Space.code]

@[simp] theorem PartOp.ofPlace_place (o : PartOp) : PartOp.ofPlace o.place = some o := by
  rcases o with (_ | _ | _) | (_ | _ | _ | _ | _) <;> rfl

/-- A partial transfer has a place in the list of eight. -/
theorem PartOp.place_lt (o : PartOp) : o.place < 8 := by
  rcases o with (_ | _ | _) | (_ | _ | _ | _ | _) <;> decide

/-- suf and d of a partial transfer lead back to it. -/
theorem PartOp.ofCodes_codes {c : Codes} (h : soundTable c.suf 8 16 = true) (o : PartOp) :
    PartOp.ofCodes c (o.codes c).1 (o.codes c).2 = some o := by
  simp only [PartOp.ofCodes, PartOp.codes, Nat.div_add_mod, placeOf_codeAt h o.place_lt,
    Option.bind_some, PartOp.ofPlace_place]

@[simp] theorem Cond.ofPlace_place (c : Cond) : Cond.ofPlace c.place = some c := by cases c <;> rfl

/-- A condition has a place in the list of nine. -/
theorem Cond.place_lt (c : Cond) : c.place < 9 := by cases c <;> decide

@[simp] theorem AddrReg.ofPlace_place (a : AddrReg) : AddrReg.ofPlace a.place = some a := by
  cases a with
  | dp n => fin_cases n <;> rfl
  | dn n => fin_cases n <;> rfl
  | dmx => rfl
  | dmy => rfl

/-- An address-unit register has a place in the list of eighteen. -/
theorem AddrReg.place_lt (a : AddrReg) : a.place < 18 := by
  cases a <;> simp only [AddrReg.place] <;> omega

@[simp] theorem CtlReg.ofPlace_place (c : CtlReg) : CtlReg.ofPlace c.place = some c := by
  cases c <;> rfl

/-- A register of the other group has a place in the list of ten. -/
theorem CtlReg.place_lt (c : CtlReg) : c.place < 10 := by cases c <;> decide

@[simp] theorem Mono.ofPlace_place (m : Mono) : Mono.ofPlace m.place = some m := by cases m <;> rfl

/-- A monomial is not at the place of the ALU NOP. -/
theorem Mono.place_bounds (m : Mono) : 0 < m.place ∧ m.place < 14 := by cases m <;> decide

end Sys2Proof
end

