-- ==== Sys2Proof/Laws/Exec.lean ====
section
/-! SUPPORT. What one execution of a word can be, said once over all instructions: an effect followed by
the word end of R158, or a barred word in a place free for it. -/

namespace Sys2Proof.Machine

/-- What the effect of a word that is no branch, REP, LOOP, LPOP, HALT or STOP leaves alone before the
word ends; only a MOV to LSP changes LSP. -/
structure WordEffect (i : Instr) (s u : State) : Prop where
  pc : u.pc = s.pc
  rc : u.rc = s.rc
  rf : u.rf = s.rf
  lc : u.lc = s.lc
  lsa : u.lsa = s.lsa
  lea : u.lea = s.lea
  lsp : (∀ r, i ≠ .mov .toSpecial (.ctl .lsp) r) → u.lsp = s.lsp
  mode : u.mode = s.mode
  cycles : u.cycles = s.cycles
  intDepth : u.intDepth = s.intDepth
  imem : u.imem = s.imem
  platform : u.platform = s.platform

/-- The word had an effect and ended as R158 says. -/
def EndsAfterEffect (i : Instr) (s t : State) : Prop :=
  ∃ u m, WordEffect i s u ∧ CanRetire u ∧ t = u.retired m 1

theorem endsAfterEffect_of_complete {i : Instr} {s t u : State} {m : Marks}
    (h : complete m 1 u = .next t) (e : WordEffect i s u) : EndsAfterEffect i s t := by
  rw [complete_eq_next_iff] at h
  exact ⟨u, m, e, h.1, h.2.symm⟩

theorem wordEffect_refl (i : Instr) (s : State) : WordEffect i s s :=
  ⟨rfl, rfl, rfl, rfl, rfl, rfl, fun _ => rfl, rfl, rfl, rfl, rfl, rfl⟩

theorem wordEffect_setData (i : Instr) (s : State) (p : Space) (m : Memory) :
    WordEffect i s (s.setData p m) := by
  cases p <;> exact ⟨rfl, rfl, rfl, rfl, rfl, rfl, fun _ => rfl, rfl, rfl, rfl, rfl, rfl⟩

theorem wordEffect_setAddrReg (i : Instr) (s : State) (a : AddrReg) (v : Word16) :
    WordEffect i s (s.setAddrReg a v) := by
  cases a <;> exact ⟨rfl, rfl, rfl, rfl, rfl, rfl, fun _ => rfl, rfl, rfl, rfl, rfl, rfl⟩

theorem wordEffect_accessEffect (i : Instr) (b s : State) (p : Space) (a : Word16) (o : PartOp) (r : GReg) :
    WordEffect i s (accessEffect b p a o r s) := by
  cases o with
  | load _ => exact ⟨rfl, rfl, rfl, rfl, rfl, rfl, fun _ => rfl, rfl, rfl, rfl, rfl, rfl⟩
  | store _ => exact wordEffect_setData i s p _

theorem aluWord_ends {i : Instr} {rd : GReg} {o : AluOut} {p : Par} {s t : State}
    (h : aluWord rd o p s = .next t) : EndsAfterEffect i s t := by
  simp only [aluWord, guardStop_eq_next_iff] at h
  exact endsAfterEffect_of_complete h.2 (by constructor <;> simp)

theorem transferWord_ends {i : Instr} {q : PartPair} {s t : State} (h : transferWord q s = .next t) :
    EndsAfterEffect i s t := by
  simp only [transferWord, guardStop_eq_next_iff] at h
  exact endsAfterEffect_of_complete h.2 (by constructor <;> simp)

theorem writeAlu_ends {i : Instr} {rd : GReg} {o : AluOut} {s t : State}
    (h : complete {} 1 (s.writeAlu rd o) = .next t) : EndsAfterEffect i s t :=
  endsAfterEffect_of_complete h (by constructor <;> simp)

theorem movAddr_ends {i : Instr} {d : MovDir} {a : AddrReg} {r : GReg} {s t : State}
    (h : movAddr d a r s = .next t) : EndsAfterEffect i s t := by
  cases d with
  | toSpecial => exact endsAfterEffect_of_complete h (wordEffect_setAddrReg i s a _)
  | fromSpecial =>
    exact endsAfterEffect_of_complete h
      ⟨rfl, rfl, rfl, rfl, rfl, rfl, fun _ => rfl, rfl, rfl, rfl, rfl, rfl⟩

theorem movCtl_ends {d : MovDir} {c : CtlReg} {r : GReg} {s t : State}
    (h : movCtl d c r s = .next t) : EndsAfterEffect (.mov d (.ctl c) r) s t := by
  cases d with
  | toSpecial =>
    simp only [movCtl, guardStop_eq_next_iff] at h
    refine endsAfterEffect_of_complete h.2 ?_
    cases c <;> simp only [movToEffect, State.setStackTop, State.setLoopTop] <;>
      first
      | exact ⟨rfl, rfl, rfl, rfl, rfl, rfl, fun _ => rfl, rfl, rfl, rfl, rfl, rfl⟩
      | exact ⟨rfl, rfl, rfl, rfl, rfl, rfl, fun g => absurd rfl (g r), rfl, rfl, rfl, rfl, rfl⟩
      | (split <;> exact ⟨rfl, rfl, rfl, rfl, rfl, rfl, fun _ => rfl, rfl, rfl, rfl, rfl, rfl⟩)
  | fromSpecial =>
    simp only [movCtl, guardStop_eq_next_iff] at h
    refine endsAfterEffect_of_complete h.2 ?_
    cases c <;> exact ⟨rfl, rfl, rfl, rfl, rfl, rfl, fun _ => rfl, rfl, rfl, rfl, rfl, rfl⟩

/-- A word of one register result with a check before it. -/
theorem immWord_ends {i : Instr} {rd : GReg} {o : AluOut} {s t : State} (h : immWord rd o s = .next t) :
    EndsAfterEffect i s t := writeAlu_ends h

theorem lsda_ends {op : PartOp} {reg : GReg} {sp : Space} {a : Word16} {s t : State}
    (h : execLsda op reg sp a s = .next t) : EndsAfterEffect (.lsda op reg sp a) s t := by
  simp only [execLsda, guardStop_eq_next_iff] at h
  exact endsAfterEffect_of_complete h.2 (wordEffect_accessEffect _ s s sp a op reg)

theorem lsim_ends {op : PartOp} {reg : GReg} {n : DReg} {imm : Word16} {s t : State}
    (h : execLsim op reg n imm s = .next t) : EndsAfterEffect (.lsim op reg n imm) s t := by
  simp only [execLsim, guardStop_eq_next_iff] at h
  refine endsAfterEffect_of_complete h.2 ?_
  have e := wordEffect_accessEffect (.lsim op reg n imm) s s (ptrSpace n) (s.ptr n) op reg
  exact ⟨e.pc, e.rc, e.rf, e.lc, e.lsa, e.lea, e.lsp, e.mode, e.cycles, e.intDepth, e.imem, e.platform⟩

/-- A function under a condition that is no branch. -/
theorem cond_ends {c : Cond} {top : GReg} {b : CondBody} {s t : State}
    (h : exec (.cond c top b) s = .next t) :
    EndsAfterEffect (.cond c top b) s t ∨ isBranch (.cond c top b) = true := by
  cases b with
  | mono m x y =>
    simp only [exec, execCond, guardStop_eq_next_iff, bodyRun] at h
    replace h := h.2
    split at h
    · exact .inl (writeAlu_ends ((guardStop_eq_next_iff ..).1 h).2)
    · exact .inl (endsAfterEffect_of_complete h (wordEffect_refl _ s))
  | mov d a r =>
    simp only [exec, execCond, guardStop_eq_next_iff, bodyRun] at h
    replace h := h.2
    split at h
    · exact .inl (movAddr_ends h)
    · exact .inl (endsAfterEffect_of_complete h (wordEffect_refl _ s))
  | _ => exact .inr rfl

/-- The checks on a branch under a condition include those of its place. -/
theorem bodyPlaceStop_placeFree {c : Cond} {top : GReg} {b : CondBody} {s : State}
    (hb : isBranch (.cond c top b) = true) (g : bodyPlaceStop b s = none) : placeStop s = none := by
  have f {o p : Option Stop} (h : o.or p = none) : o = none := (Option.or_eq_none_iff.1 h).1
  cases b with
  | mono _ _ _ => exact absurd hb Bool.false_ne_true
  | mov _ _ _ => exact absurd hb Bool.false_ne_true
  | jmp _ => exact g
  | jreg _ => exact g
  | call _ => exact f g
  | creg _ => exact f g
  | ret => exact f g
  | reti => exact f (f g)

/-- A branch under a condition that completes stands where it may. -/
theorem cond_placeFree {c : Cond} {top : GReg} {b : CondBody} {s t : State}
    (hb : isBranch (.cond c top b) = true) (h : exec (.cond c top b) s = .next t) :
    placeStop s = none := by
  simp only [exec, execCond, guardStop_eq_next_iff] at h
  have g := h.1
  clear h
  unfold condPlaceStop at g
  split at g
  · exact g
  · exact g
  · exact bodyPlaceStop_placeFree hb g

/-- A barred word that completes stands where it may (R343, R349). -/
theorem barred_placeFree {i : Instr} {s t : State} (hb : isBarredNearEnd i = true)
    (h : exec i s = .next t) : PlaceFree s := by
  rw [← placeStop_eq_none_iff]
  have g {o : Option Stop} {k : Res} (h : guardStop o k = .next t) : o = none :=
    ((guardStop_eq_next_iff ..).1 h).1
  have f {o p : Option Stop} (h : o.or p = none) : o = none := (Option.or_eq_none_iff.1 h).1
  cases i with
  | jmp _ => exact g h
  | jreg _ => exact g h
  | call _ => exact g h
  | creg _ => exact g h
  | ret => exact f (g h)
  | reti => exact f (f (g h))
  | rep _ => exact f (g h)
  | loop _ _ => exact f (g h)
  | lpop => exact f (g h)
  | halt => exact g h
  | stop => exact (Option.or_eq_none_iff.1 (g h)).2
  | cond c top b => exact cond_placeFree hb h
  | _ => exact absurd hb Bool.false_ne_true

/-- One execution of a word that gives a next state: an effect and the word end, or a barred word in a
place free for it. -/
theorem exec_next_cases {i : Instr} {s t : State} (h : exec i s = .next t) :
    EndsAfterEffect i s t ∨ (isBarredNearEnd i = true ∧ PlaceFree s) := by
  by_cases hb : isBarredNearEnd i = true
  · exact .inr ⟨hb, barred_placeFree hb h⟩
  · left
    cases i with
    | madd _ _ _ _ => exact aluWord_ends h
    | msub _ _ _ _ => exact aluWord_ends h
    | suma _ _ _ _ => exact aluWord_ends h
    | uuma _ _ _ _ => exact aluWord_ends h
    | mas1 _ _ _ _ => exact aluWord_ends h
    | mas16 _ _ _ _ => exact aluWord_ends h
    | mpy _ _ _ _ => exact aluWord_ends h
    | add _ _ _ _ => exact aluWord_ends h
    | sub _ _ _ _ => exact aluWord_ends h
    | sra _ _ _ _ => exact aluWord_ends h
    | srl _ _ _ _ => exact aluWord_ends h
    | sll _ _ _ _ => exact aluWord_ends h
    | and _ _ _ _ => exact aluWord_ends h
    | or _ _ _ _ => exact aluWord_ends h
    | xor _ _ _ _ => exact aluWord_ends h
    | lt _ _ _ _ => exact aluWord_ends h
    | iadd _ _ _ => exact immWord_ends h
    | isub _ _ _ => exact immWord_ends h
    | iand _ _ _ => exact immWord_ends h
    | ior _ _ _ => exact immWord_ends h
    | ixor _ _ _ => exact immWord_ends h
    | isra _ _ _ => exact immWord_ends ((guardStop_eq_next_iff ..).1 h).2
    | isrl _ _ _ => exact immWord_ends ((guardStop_eq_next_iff ..).1 h).2
    | isll _ _ _ => exact immWord_ends ((guardStop_eq_next_iff ..).1 h).2
    | clr _ _ => exact aluWord_ends h
    | inc _ _ _ => exact aluWord_ends h
    | dec _ _ _ => exact aluWord_ends h
    | abs _ _ _ => exact aluWord_ends h
    | not _ _ _ => exact aluWord_ends h
    | neg _ _ _ => exact aluWord_ends h
    | clip _ _ _ => exact aluWord_ends h
    | rnd _ _ _ => exact aluWord_ends h
    | exp _ _ _ => exact aluWord_ends h
    | put _ _ _ => exact aluWord_ends h
    | aca _ _ _ => exact aluWord_ends h
    | acs _ _ _ => exact aluWord_ends h
    | div _ _ _ => exact aluWord_ends ((guardStop_eq_next_iff ..).1 h).2
    | lspa _ => exact transferWord_ends h
    | lsse _ => exact transferWord_ends h
    | lsda _ _ _ _ => exact lsda_ends h
    | lsim _ _ _ _ => exact lsim_ends h
    | mov d m r =>
      cases m with
      | addr a => exact movAddr_ends h
      | ctl c => exact movCtl_ends h
    | ldi d imm =>
      cases d with
      | rl n =>
        exact endsAfterEffect_of_complete h
          ⟨rfl, rfl, rfl, rfl, rfl, rfl, fun _ => rfl, rfl, rfl, rfl, rfl, rfl⟩
      | addr a => exact endsAfterEffect_of_complete h (wordEffect_setAddrReg _ s a imm)
    | nop => exact endsAfterEffect_of_complete h (wordEffect_refl _ s)
    | fint =>
      exact endsAfterEffect_of_complete h
        ⟨rfl, rfl, rfl, rfl, rfl, rfl, fun _ => rfl, rfl, rfl, rfl, rfl, rfl⟩
    | cond c top b => exact (cond_ends h).resolve_right hb
    | _ => exact absurd rfl hb

end Sys2Proof.Machine
end

