-- ==== Sys2Proof/Laws/WellFormed.lean ====
section
/-! SUPPORT. What each overlap check of WellFormed.lean refuses, in registers and bits (R155, R156,
R278). -/

namespace Sys2Proof.Machine

theorem sidesAgree_eq_false_iff (p : Par) : p.sidesAgree = false ↔ SidesOverlap p := by
  rcases p with ⟨_ | ⟨dx, px, mx, rx⟩, _ | ⟨dy, py, my, ry⟩⟩ <;> simp [Par.sidesAgree, SidesOverlap]
  cases dx <;> cases dy <;> simp

theorem avoids_eq_false_iff (d : GReg) (p : Par) : p.avoids d = false ↔ DestinationOverlap d p := by
  rcases p with ⟨_ | ⟨dx, px, mx, rx⟩, _ | ⟨dy, py, my, ry⟩⟩ <;>
    simp [Par.avoids, DestinationOverlap, or_and_right, exists_or]
  tauto

theorem fits_eq_false_iff (d : GReg) (p : Par) :
    p.fits d = false ↔ SidesOverlap p ∨ DestinationOverlap d p := by
  rw [Par.fits, Bool.and_eq_false_iff, sidesAgree_eq_false_iff, avoids_eq_false_iff]

/-- The bit ranges of a load and of a store meet where they share a bit. -/
theorem rangesMeet_iff (m : LoadPart) (n : StorePart) :
    rangesMeet m.bits n.bits = true ↔ ∃ k, WritesBit m k ∧ ReadsBit n k := by
  cases m <;> cases n <;> simp [rangesMeet, LoadPart.bits, StorePart.bits, WritesBit, ReadsBit] <;>
    first
    | exact ⟨0, by omega⟩
    | exact ⟨16, by omega⟩
    | exact ⟨32, by omega⟩
    | (intros; omega)

theorem rangesMeet_comm (a b : Nat × Nat) : rangesMeet a b = rangesMeet b a := by
  simp only [rangesMeet, Bool.and_comm]

end Sys2Proof.Machine
end

