-- ==== Sys2Proof/Laws/Words.lean ====
section
/-! SUPPORT. What the word-level operations do: a word of one operation with transfers, a word of
transfers, a word with one register result, and a word that only ends. -/

namespace Sys2Proof.Machine

/-! ## Ranges and values -/

theorem outOf40_eq (n : Int) : outOf40 n = outside40 n := rfl

theorem outside40_iff (n : Int) : outside40 n = true ↔ n < -2 ^ 39 ∨ 2 ^ 39 - 1 < n := by
  simp [outside40]

theorem outside32_iff (n : Int) : outside32 n = true ↔ n < -2 ^ 31 ∨ 2 ^ 31 - 1 < n := by
  simp [outside32]

theorem prodUU_eq (a b : Word16) :
    prodUU a b = uumaTerm Config.uumaWideExact (a.toNat * b.toNat) := rfl

/-- The range of a 40-bit two's complement number. -/
theorem toInt40_range (v : Word40) : -2 ^ 39 ≤ v.toInt ∧ v.toInt ≤ 2 ^ 39 - 1 := by
  have h1 := v.toInt_lt
  have h2 := v.le_toInt
  norm_num at h1 h2 ⊢
  omega

/-! ## Parts of a register -/

/-- The bits of a register made of its parts. -/
theorem joinParts_getLsbD (e : Byte) (h l : Word16) (i : Nat) :
    (joinParts e h l).getLsbD i =
      if i < 16 then l.getLsbD i else if i < 32 then h.getLsbD (i - 16) else e.getLsbD (i - 32) := by
  have : (joinParts e h l).getLsbD i =
      (HAppend.hAppend (HAppend.hAppend e h : BitVec (8 + 16)) l : BitVec (8 + 16 + 16)).getLsbD i := rfl
  rw [this, BitVec.getLsbD_append, BitVec.getLsbD_append]
  by_cases h1 : i < 16
  · simp [h1]
  · by_cases h2 : i < 32
    · simp [h1, h2, show i - 16 < 16 by omega]
    · simp [h1, h2, show ¬ i - 16 < 16 by omega, Nat.sub_sub]

@[simp] theorem partE_joinParts (e : Byte) (h l : Word16) : partE (joinParts e h l) = e := by
  apply BitVec.eq_of_getLsbD_eq; intro i hi
  rw [partE, BitVec.getLsbD_extractLsb', joinParts_getLsbD]
  simp [hi, show ¬ 32 + i < 16 by omega]

@[simp] theorem partH_joinParts (e : Byte) (h l : Word16) : partH (joinParts e h l) = h := by
  apply BitVec.eq_of_getLsbD_eq; intro i hi
  rw [partH, BitVec.getLsbD_extractLsb', joinParts_getLsbD]
  simp [hi, show 16 + i < 32 by omega]

@[simp] theorem partL_joinParts (e : Byte) (h l : Word16) : partL (joinParts e h l) = l := by
  apply BitVec.eq_of_getLsbD_eq; intro i hi
  rw [partL, BitVec.getLsbD_extractLsb', joinParts_getLsbD]
  simp [hi]

/-- `withLow` as the parts of the register. -/
theorem withLow_eq (v : Word40) (l : Word16) : withLow v l = joinParts (partE v) (partH v) l := by
  apply BitVec.eq_of_getLsbD_eq; intro i hi
  have : (withLow v l).getLsbD i =
      (HAppend.hAppend (v.extractLsb' 16 24) l : BitVec (24 + 16)).getLsbD i := rfl
  rw [this, BitVec.getLsbD_append, joinParts_getLsbD, partE, partH, BitVec.getLsbD_extractLsb',
    BitVec.getLsbD_extractLsb', BitVec.getLsbD_extractLsb']
  by_cases h1 : i < 16
  · simp [h1]
  · by_cases h2 : i < 32
    · simp [h1, h2, show i - 16 < 24 by omega, show i - 16 < 16 by omega]
    · simp [h1, h2, show i - 16 < 24 by omega, show i - 32 < 8 by omega,
        show 16 + (i - 16) = i by omega, show 32 + (i - 32) = i by omega]

/-! ## ESR -/

theorem bitAt_getLsbD (j : Fin 15) (k : Nat) : (bitAt j).getLsbD k = decide (k = j.val) := by
  have hj : j.val < 15 := j.isLt
  simp only [bitAt, BitVec.getLsbD_ofNat, Nat.testBit_two_pow]
  by_cases h : k = j.val
  · simp [h]; omega
  · simp [h, Ne.symm h]

/-- ESR after an operation that overflows or not (R30). -/
theorem esrAfter_done (s t : State) (b : Bool) (h : t.esr = s.esrAfter b)
    (hp : t.platform = s.platform) : EsrAfter s t b := by
  refine ⟨?_, fun k hk => ?_⟩
  · simp only [State.ov, h, hp, State.esrAfter]
    cases b
    · simp
    · simp only [if_true, BitVec.getLsbD_or, bitAt_getLsbD]
      simp
  · simp only [h, State.esrAfter]
    cases b
    · simp
    · simp [bitAt_getLsbD, hk]

/-! ## A word that only ends -/

/-- The end of a word, as `EndsWord` says it. -/
theorem retired_endsWord (m : Marks) (s : State) : EndsWord m s (s.retired m 1) :=
  ⟨retired_retires m s, ⟨by simp, by simp, by simp, by simp, by simp, by simp⟩,
    by simp [OthersKept]⟩

/-- A word whose result is `complete m 1 u` completes with the effect `u`. -/
theorem completes_of_complete {i : Instr} {s u : State} {m : Marks} (h : exec i s = complete m 1 u)
    (hr : CanRetire u) : Completes i s m u :=
  ⟨_, h.trans (complete_eq m 1 u hr), retired_endsWord m u⟩

/-! ## Words with transfers -/

/-- Transfers after an operation read the same addresses, pointers and memory. -/
theorem loadedInto_writeAlu (s : State) (rd : GReg) (o : AluOut) (p : Space) (d : Option PartSide)
    (k : GReg) (v : Word40) : loadedInto (s.writeAlu rd o) p d k v = loadedInto s p d k v := by
  cases d with
  | none => rfl
  | some d => cases p <;> rfl

theorem reg_writeAlu (s : State) (rd k : GReg) (o : AluOut) :
    (s.writeAlu rd o).reg k = if rd = k then o.value else s.reg k := by
  have : (s.writeAlu rd o).reg k = (s.setReg rd o.value).reg k := rfl
  rw [this, State.reg_setReg]

/-- No side of a word that fits `rd` names `rd`. -/
theorem side_reg_ne {p : Par} {rd : GReg} (h : p.fits rd = true) {sp : Space} {d : PartSide}
    (hd : pairSide p.toPair sp = some d) : d.reg ≠ rd := by
  simp only [Par.fits, Par.avoids, Bool.and_eq_true, Option.all_eq_true_iff_get] at h
  obtain ⟨x, y⟩ := p
  cases sp
  · cases x with
    | none => simp [pairSide, Par.toPair] at hd
    | some a =>
      simp only [pairSide, Par.toPair, Option.map_some, Option.some.injEq] at hd
      subst hd
      have := h.2.1
      simpa [ParSide.toPart] using this
  · cases y with
    | none => simp [pairSide, Par.toPair] at hd
    | some a =>
      simp only [pairSide, Par.toPair, Option.map_some, Option.some.injEq] at hd
      subst hd
      have := h.2.2
      simpa [ParSide.toPart] using this

theorem loadedInto_of_ne (s : State) (sp : Space) (o : Option PartSide) (k : GReg) (v : Word40)
    (h : ∀ d, o = some d → d.reg ≠ k) : loadedInto s sp o k v = v := by
  cases o with
  | none => rfl
  | some d =>
    simp only [loadedInto]
    cases d.op with
    | store _ => rfl
    | load _ => simp [h d rfl]

/-- The destination of the operation is loaded by no transfer of a word that fits it. -/
theorem loadedReg_dest (s : State) {p : Par} {rd : GReg} (h : p.fits rd = true) (v : Word40) :
    loadedInto s .y p.toPair.y rd (loadedInto s .x p.toPair.x rd v) = v := by
  rw [loadedInto_of_ne s .x p.toPair.x rd v (fun d hd => side_reg_ne h (sp := .x) hd),
    loadedInto_of_ne s .y p.toPair.y rd v (fun d hd => side_reg_ne h (sp := .y) hd)]

/-- `TransfersDone` reads of the state before only pointers, memory, modulo and index registers and the
stored registers, which the operation's write leaves alone. -/
theorem transfersDone_writeAlu (s t : State) {p : Par} {rd : GReg} (o : AluOut)
    (h : p.fits rd = true) (ht : TransfersDone p.toPair (s.writeAlu rd o) t) :
    TransfersDone p.toPair s t := by
  obtain ⟨h1, h2, h3, h4⟩ := ht
  refine ⟨fun sp d hd => h1 sp d hd, fun n hn => h2 n hn, fun sp d part hd ho => ?_, fun sp b hb => ?_⟩
  · have := h3 sp d part hd ho
    rw [reg_writeAlu, if_neg (Ne.symm (side_reg_ne h hd))] at this
    exact this
  · have := h4 sp b hb
    cases sp <;> exact this

/-- Fields that the transfers leave alone, for a state built on them. -/
theorem transfersDone_congr {q : PartPair} {s u t : State} (h : TransfersDone q s u)
    (hd : t.dp = u.dp) (hx : t.xmem = u.xmem) (hy : t.ymem = u.ymem) : TransfersDone q s t := by
  have e1 : ∀ n, t.ptr n = u.ptr n := fun n => by simp [State.ptr, hd]
  have e2 : ∀ sp, t.data sp = u.data sp := fun sp => by cases sp <;> simp [State.data, hx, hy]
  simpa only [TransfersDone, e1, e2] using h

/-- A word of one operation and transfers: when its transfers can be made and a next PC exists it
completes; the destination takes the value, the rest follows `TransfersDone` and `Retires`. -/
theorem aluWord_next (rd : GReg) (o : AluOut) (p : Par) (s : State) (hf : p.fits rd = true)
    (hp : PairReady s p.toPair) (hr : CanRetire s) :
    ∃ t, aluWord rd o p s = .next t ∧ t.reg rd = o.value ∧
      (∀ k, k ≠ rd → t.reg k = loadedReg s p.toPair k) ∧
      EsrAfter s t o.overflow ∧ t.draws = s.draws + (if o.drawn then 1 else 0) ∧
      TransfersDone p.toPair s t ∧ OthersKept s t ∧ Retires {} s t := by
  have hc : SameControl s ((s.writeAlu rd o).transfers p.toPair) :=
    (SameControl.writeAlu s rd o).trans (SameControl.transfers _ _)
  have hreg : ∀ k, (((s.writeAlu rd o).transfers p.toPair).retired {} 1).reg k
      = ((s.writeAlu rd o).transfers p.toPair).reg k := fun k => by simp [State.reg]
  refine ⟨((s.writeAlu rd o).transfers p.toPair).retired {} 1, ?_, ?_, ?_, ?_, ?_, ?_, ?_, ?_⟩
  · rw [aluWord, (pairStop_eq_none_iff s _).2 hp, guardStop_none,
      complete_eq {} 1 _ (hc.canRetire.2 hr)]
  · rw [hreg, State.transfers_reg, loadedReg, loadedInto_writeAlu, loadedInto_writeAlu,
      loadedReg_dest s hf, reg_writeAlu, if_pos rfl]
  · intro k hk
    rw [hreg, State.transfers_reg, loadedReg, loadedInto_writeAlu, loadedInto_writeAlu, reg_writeAlu,
      if_neg (Ne.symm hk), loadedReg]
  · exact esrAfter_done _ _ _ (by simp) (by simp)
  · simp
  · exact transfersDone_congr
      (transfersDone_writeAlu s _ o hf (State.transfers_done (s.writeAlu rd o) p.toPair))
      (by simp) (by simp) (by simp)
  · simp [OthersKept]
  · exact (hc.retires _ _).1 (retired_retires _ _)

/-- A word of transfers and nothing else. -/
theorem transferWord_next (q : PartPair) (s : State) (hp : PairReady s q) (hr : CanRetire s) :
    ∃ t, transferWord q s = .next t ∧ (∀ k, t.reg k = loadedReg s q k) ∧ t.esr = s.esr ∧
      t.draws = s.draws ∧ TransfersDone q s t ∧ OthersKept s t ∧ Retires {} s t := by
  have hc := SameControl.transfers s q
  refine ⟨(s.transfers q).retired {} 1, ?_, fun k => ?_, by simp, by simp, ?_, by simp [OthersKept],
    (hc.retires _ _).1 (retired_retires _ _)⟩
  · rw [transferWord, (pairStop_eq_none_iff s q).2 hp, guardStop_none,
      complete_eq {} 1 _ (hc.canRetire.2 hr)]
  · rw [← State.transfers_reg]; simp [State.reg]
  · exact transfersDone_congr (State.transfers_done s q) (by simp) (by simp) (by simp)

/-- A word of one operation and nothing else. -/
theorem writeAlu_next (rd : GReg) (o : AluOut) (s : State) (hr : CanRetire s) (hd : o.drawn = false) :
    ∃ t, complete {} 1 (s.writeAlu rd o) = .next t ∧ t.reg rd = o.value ∧
      (∀ k, k ≠ rd → t.reg k = s.reg k) ∧ EsrAfter s t o.overflow ∧ t.draws = s.draws ∧
      t.dp = s.dp ∧ t.xmem = s.xmem ∧ t.ymem = s.ymem ∧ OthersKept s t ∧ Retires {} s t := by
  have hc := SameControl.writeAlu s rd o
  have hreg : ∀ k, ((s.writeAlu rd o).retired {} 1).reg k = (s.writeAlu rd o).reg k :=
    fun k => by simp [State.reg]
  refine ⟨(s.writeAlu rd o).retired {} 1, complete_eq _ _ _ (hc.canRetire.2 hr), ?_, fun k hk => ?_,
    esrAfter_done _ _ _ (by simp) (by simp), by simp [hd], by simp, by simp, by simp,
    by simp [OthersKept], (hc.retires _ _).1 (retired_retires _ _)⟩
  · rw [hreg, reg_writeAlu, if_pos rfl]
  · rw [hreg, reg_writeAlu, if_neg (Ne.symm hk)]

end Sys2Proof.Machine
end

