-- ==== Sys2Proof/Tests/Slice0.lean ====
section
/-! SUPPORT. Tests: ill-formed statements, words written out from the formats of 30_encoding.md, one-step
vectors of 95_test_vectors.md (each named by its number there), and a witness for the hypotheses of each
statement. -/

namespace Sys2Proof.Tests
open Sys2Proof.Machine

/-! ## Helpers -/

/-- A memory with some words written. -/
def words (cells : List (Word16 × Word16)) : Memory := cells.foldl (fun m c => m.write16 c.1 c.2) []

/-- A word without transfers. -/
def noPar : Par := ⟨none, none⟩

/-- A word with an X transfer at DP0 and a Y transfer at DP4. -/
def twoLoads (m n : Modi) (a b : GReg) : Par := ⟨some ⟨.load, 0, m, a⟩, some ⟨.load, 0, n, b⟩⟩

/-- After reset, at 0x0100, with values in R0, R1, R2 and R4. -/
def regs (r0 r1 r2 r4 : Word40) : State :=
  { State.reset with pc := 0x0100, r := #v[r0, r1, r2, 0, r4, 0, 0, 0] }

/-- A reading of the next state. -/
def result {α : Type} (o : Res) (f : State → α) : Option α :=
  match o with
  | .next t => some (f t)
  | _ => none

/-- Why there is no next state. -/
def stops (o : Res) : Option Stop :=
  match o with
  | .next _ => none
  | .fault f => some (.fault f)
  | .refused r => some (.refusal r)

/-- A register and OV after an instruction. -/
def gives (i : Instr) (s : State) (k : GReg) : Option (Word40 × Bool) :=
  result (exec i s) (fun t => (t.reg k, t.ov))

/-! ## Ill-formed statements -/

/-- Two LSPA loads into one register (R155 a, L20). -/
theorem test_smoke_two_loads : (Instr.lspa (twoLoads .plain .plain 0 0)).wellFormed = false := by decide

/-- A load and a store of one register in LSPA (R156 b). -/
theorem test_smoke_load_and_store :
    (Instr.lspa ⟨some ⟨.load, 0, .plain, 2⟩, some ⟨.store, 0, .plain, 2⟩⟩).wellFormed = false := by decide

/-- A load into the operation's destination, and a store from it (R155 b, R156 a, L19, L21). -/
theorem test_smoke_destination :
    (Instr.inc 0 0 ⟨some ⟨.load, 0, .plain, 0⟩, none⟩).wellFormed = false ∧
      (Instr.add 0 4 1 ⟨some ⟨.store, 1, .inc, 1⟩, none⟩).wellFormed = false ∧
      (Instr.clr 3 ⟨none, some ⟨.load, 0, .plain, 3⟩⟩).wellFormed = false := by decide

/-- A transfer word with no transfer (R276, R277). -/
theorem test_smoke_no_transfer :
    (Instr.lspa noPar).wellFormed = false ∧ (Instr.lsse ⟨none, none⟩).wellFormed = false := by decide

/-- A pair of LSSE loads outside the list of R278 (L12), and overlapping load and store (R156 b). -/
theorem test_smoke_partial_pairs :
    (Instr.lsse ⟨some ⟨.load .reh, 0, .plain, 0⟩, some ⟨.load .rh, 0, .plain, 0⟩⟩).wellFormed = false ∧
      (Instr.lsse ⟨some ⟨.load .reh, 0, .plain, 0⟩, some ⟨.store .re, 0, .plain, 0⟩⟩).wellFormed = false ∧
      (Instr.lsse ⟨some ⟨.store .rh, 0, .plain, 0⟩, some ⟨.load .ro, 0, .plain, 0⟩⟩).wellFormed = false ∧
      (Instr.lsse ⟨some ⟨.load .reh, 0, .plain, 0⟩, some ⟨.load .rl, 0, .plain, 0⟩⟩).wellFormed = true := by
  decide

/-- LC as a destination (R301). -/
theorem test_smoke_lc_destination : (Instr.mov .toSpecial (.ctl .lc) 0).wellFormed = false := by decide

/-- An immediate count of 0, and a loop of fewer than two words (R119, R345). -/
theorem test_smoke_counts :
    (Instr.rep (.imm 0)).wellFormed = false ∧ (Instr.loop (.imm 0) 2).wellFormed = false ∧
      (Instr.loop (.imm 1) 1).wellFormed = false ∧ (Instr.loop (.reg 0) 2).wellFormed = true := by decide

/-- CLR with two operands under a condition, and a MOV or a branch under EVER. -/
theorem test_smoke_condition :
    (Instr.cond .eq0 0 (.mono .clr 1 2)).wellFormed = false ∧
      (Instr.cond .ever 0 (.mov .toSpecial .dmx 0)).wellFormed = false ∧
      (Instr.cond .ever 0 .ret).wellFormed = false := by decide

/-! ## Decoding: words written out from the formats, values in listing order (log 5, log 6) -/

/-- Row 1 (R102), trinomials. -/
theorem test_decode_three_operand_words_a :
    decodeWord Codes.listing 0b1_000_0000_011_001_0_0_00_000_000_00_000_000#32
      = .ok (.madd 0 3 1 ⟨none, none⟩) ∧
    decodeWord Codes.listing 0b1_001_0001_100_010_1_0_01_010_101_00_000_000#32
      = .ok (.msub 1 4 2 ⟨some ⟨.load, 1, .inc, 5⟩, none⟩) ∧
    decodeWord Codes.listing 0b1_010_0010_101_011_0_0_00_000_000_10_011_110#32
      = .ok (.suma 2 5 3 ⟨none, some ⟨.store, 2, .dec, 6⟩⟩) ∧
    decodeWord Codes.listing 0b1_011_0011_110_001_1_1_11_110_100_01_101_110#32
      = .ok (.uuma 3 6 1 ⟨some ⟨.load, 3, .bitRev, 4⟩, some ⟨.load, 1, .modulo, 6⟩⟩) ∧
    decodeWord Codes.listing 0b1_100_0100_111_010_0_1_00_100_110_00_001_111#32
      = .ok (.mas1 4 7 2 ⟨some ⟨.store, 0, .addDn, 6⟩, some ⟨.load, 0, .plain, 7⟩⟩) ∧
    decodeWord Codes.listing 0b1_101_0101_000_011_0_0_00_000_000_00_000_000#32
      = .ok (.mas16 5 0 3 ⟨none, none⟩) := by decide

/-- Row 1 (R102), register binomials. -/
theorem test_decode_three_operand_words_b :
    decodeWord Codes.listing 0b1_110_0110_001_001_1_0_01_010_101_00_000_000#32
      = .ok (.mpy 6 1 1 ⟨some ⟨.load, 1, .inc, 5⟩, none⟩) ∧
    decodeWord Codes.listing 0b1_111_0111_010_010_0_0_00_000_000_10_011_110#32
      = .ok (.add 7 2 2 ⟨none, some ⟨.store, 2, .dec, 6⟩⟩) ∧
    decodeWord Codes.listing 0b1_000_1000_011_011_1_1_11_110_100_01_101_110#32
      = .ok (.sub 0 3 3 ⟨some ⟨.load, 3, .bitRev, 4⟩, some ⟨.load, 1, .modulo, 6⟩⟩) ∧
    decodeWord Codes.listing 0b1_001_1001_100_001_0_1_00_100_110_00_001_111#32
      = .ok (.sra 1 4 1 ⟨some ⟨.store, 0, .addDn, 6⟩, some ⟨.load, 0, .plain, 7⟩⟩) ∧
    decodeWord Codes.listing 0b1_010_1010_101_010_0_0_00_000_000_00_000_000#32
      = .ok (.srl 2 5 2 ⟨none, none⟩) ∧
    decodeWord Codes.listing 0b1_011_1011_110_011_1_0_01_010_101_00_000_000#32
      = .ok (.sll 3 6 3 ⟨some ⟨.load, 1, .inc, 5⟩, none⟩) ∧
    decodeWord Codes.listing 0b1_100_1100_111_001_0_0_00_000_000_10_011_110#32
      = .ok (.and 4 7 1 ⟨none, some ⟨.store, 2, .dec, 6⟩⟩) ∧
    decodeWord Codes.listing 0b1_101_1101_000_010_1_1_11_110_100_01_101_110#32
      = .ok (.or 5 0 2 ⟨some ⟨.load, 3, .bitRev, 4⟩, some ⟨.load, 1, .modulo, 6⟩⟩) ∧
    decodeWord Codes.listing 0b1_110_1110_001_011_0_1_00_100_110_00_001_111#32
      = .ok (.xor 6 1 3 ⟨some ⟨.store, 0, .addDn, 6⟩, some ⟨.load, 0, .plain, 7⟩⟩) ∧
    decodeWord Codes.listing 0b1_111_1111_010_001_0_0_00_000_000_00_000_000#32
      = .ok (.lt 7 2 1 ⟨none, none⟩) := by decide

/-- Row 2 (R103) and LSPA. -/
theorem test_decode_two_operand_words :
    decodeWord Codes.listing 0b0111_0001_000_000_1_0_01_010_101_00_000_000#32
      = .ok (.clr 0 ⟨some ⟨.load, 1, .inc, 5⟩, none⟩) ∧
    decodeWord Codes.listing 0b0111_0010_011_001_0_0_00_000_000_10_011_110#32
      = .ok (.inc 3 1 ⟨none, some ⟨.store, 2, .dec, 6⟩⟩) ∧
    decodeWord Codes.listing 0b0111_0011_100_010_1_1_11_110_100_01_101_110#32
      = .ok (.dec 4 2 ⟨some ⟨.load, 3, .bitRev, 4⟩, some ⟨.load, 1, .modulo, 6⟩⟩) ∧
    decodeWord Codes.listing 0b0111_0100_101_011_0_1_00_100_110_00_001_111#32
      = .ok (.abs 5 3 ⟨some ⟨.store, 0, .addDn, 6⟩, some ⟨.load, 0, .plain, 7⟩⟩) ∧
    decodeWord Codes.listing 0b0111_0101_110_000_0_0_00_000_000_00_000_000#32
      = .ok (.not 6 0 ⟨none, none⟩) ∧
    decodeWord Codes.listing 0b0111_0110_111_001_1_0_01_010_101_00_000_000#32
      = .ok (.neg 7 1 ⟨some ⟨.load, 1, .inc, 5⟩, none⟩) ∧
    decodeWord Codes.listing 0b0111_0111_000_010_0_0_00_000_000_10_011_110#32
      = .ok (.clip 0 2 ⟨none, some ⟨.store, 2, .dec, 6⟩⟩) ∧
    decodeWord Codes.listing 0b0111_1000_001_011_1_1_11_110_100_01_101_110#32
      = .ok (.rnd 1 3 ⟨some ⟨.load, 3, .bitRev, 4⟩, some ⟨.load, 1, .modulo, 6⟩⟩) ∧
    decodeWord Codes.listing 0b0111_1001_010_000_0_1_00_100_110_00_001_111#32
      = .ok (.exp 2 0 ⟨some ⟨.store, 0, .addDn, 6⟩, some ⟨.load, 0, .plain, 7⟩⟩) ∧
    decodeWord Codes.listing 0b0111_1010_011_001_0_0_00_000_000_00_000_000#32
      = .ok (.put 3 1 ⟨none, none⟩) ∧
    decodeWord Codes.listing 0b0111_1011_100_010_1_0_01_010_101_00_000_000#32
      = .ok (.aca 4 2 ⟨some ⟨.load, 1, .inc, 5⟩, none⟩) ∧
    decodeWord Codes.listing 0b0111_1100_101_011_0_0_00_000_000_10_011_110#32
      = .ok (.acs 5 3 ⟨none, some ⟨.store, 2, .dec, 6⟩⟩) ∧
    decodeWord Codes.listing 0b0111_1101_110_000_1_1_11_110_100_01_101_110#32
      = .ok (.div 6 0 ⟨some ⟨.load, 3, .bitRev, 4⟩, some ⟨.load, 1, .modulo, 6⟩⟩) ∧
    decodeWord Codes.listing 0b0111_0000_000_000_1_1_00_010_001_00_010_010#32
      = .ok (.lspa ⟨some ⟨.load, 0, .inc, 1⟩, some ⟨.load, 0, .inc, 2⟩⟩) := by decide

/-- Row 4 (R105). -/
theorem test_decode_immediate_words :
    decodeWord Codes.listing 0b0101_0000_000_101_00_1000000000000001#32
      = .ok (.iadd 0 5 0x8001) ∧
    decodeWord Codes.listing 0b0101_0001_001_110_00_1000000100010010#32
      = .ok (.isub 1 6 0x8112) ∧
    decodeWord Codes.listing 0b0101_0010_010_111_00_1000001000100011#32
      = .ok (.isra 2 7 0x8223) ∧
    decodeWord Codes.listing 0b0101_0011_011_000_00_1000001100110100#32
      = .ok (.isrl 3 0 0x8334) ∧
    decodeWord Codes.listing 0b0101_0100_100_001_00_1000010001000101#32
      = .ok (.isll 4 1 0x8445) ∧
    decodeWord Codes.listing 0b0101_0101_101_010_00_1000010101010110#32
      = .ok (.iand 5 2 0x8556) ∧
    decodeWord Codes.listing 0b0101_0110_110_011_00_1000011001100111#32
      = .ok (.ior 6 3 0x8667) ∧
    decodeWord Codes.listing 0b0101_0111_111_100_00_1000011101111000#32
      = .ok (.ixor 7 4 0x8778) := by decide

/-- Rows 5 to 7 (R107-R109). -/
theorem test_decode_load_store_words :
    decodeWord Codes.listing 0b010011_011_000_00_1_1_00_010_000_00_010_000#32
      = .ok (.lsse ⟨some ⟨.load .reh, 0, .inc, 0⟩, some ⟨.load .rl, 0, .inc, 0⟩⟩) ∧
    decodeWord Codes.listing 0b010011_010_001_00_0_0_01_011_010_11_100_101#32
      = .ok (.lsse ⟨some ⟨.store .re, 1, .dec, 2⟩, some ⟨.store .rh, 3, .addDn, 5⟩⟩) ∧
    decodeWord Codes.listing 0b010010_111_010_1_00_0_1111111111111111#32
      = .ok (.lsda (.store .re) 7 .y 0xFFFF) ∧
    decodeWord Codes.listing 0b010010_011_100_0_00_1_0000000000000001#32
      = .ok (.lsda (.load .ro) 3 .x 1) ∧
    decodeWord Codes.listing 0b010001_010_001_110_0_1000000000000000#32
      = .ok (.lsim (.store .rh) 2 6 0x8000) ∧
    decodeWord Codes.listing 0b010001_101_011_001_1_0000000000010000#32
      = .ok (.lsim (.load .reh) 5 1 0x10) := by decide

/-- Rows 9, 11, 12, 13 (R110, R111), and rows 8, 10 under EVER. -/
theorem test_decode_move_words :
    decodeWord Codes.listing 0b001111_011_0_01010_0_000000000_0000_000#32
      = .ok (.mov .toSpecial (.addr (.dn 2)) 3) ∧
    decodeWord Codes.listing 0b001111_111_0_10001_1_000000000_0000_000#32
      = .ok (.mov .fromSpecial (.addr .dmy) 7) ∧
    decodeWord Codes.listing 0b001111_001_1_10011_0_0000000000000000#32
      = .ok (.mov .toSpecial (.ctl .sp) 1) ∧
    decodeWord Codes.listing 0b001111_100_1_11011_1_0000000000000000#32
      = .ok (.mov .fromSpecial (.ctl .esr) 4) ∧
    decodeWord Codes.listing 0b001110_0000_00100_0_0001001000110100#32
      = .ok (.ldi (.addr (.dp 4)) 0x1234) ∧
    decodeWord Codes.listing 0b001110_110_000000_1_1010101111001101#32
      = .ok (.ldi (.rl 6) 0xABCD) := by decide

/-- Rows 14 to 16 (R112-R114). -/
theorem test_decode_branch_words :
    decodeWord Codes.listing 0b001011_0_00_1111111101000000_0000_000#32
      = .ok (.jmp 0xFF40) ∧
    decodeWord Codes.listing 0b001011_1_00_0000000000001101_0000_000#32
      = .ok (.call 0x000D) ∧
    decodeWord Codes.listing 0b001010_0_00000_011_0000000000_0000_000#32
      = .ok (.jreg 3) ∧
    decodeWord Codes.listing 0b001010_1_00000_101_0000000000_0000_000#32
      = .ok (.creg 5) ∧
    decodeWord Codes.listing 0b001001_0_000000000000000000_0000_000#32
      = .ok (.ret) ∧
    decodeWord Codes.listing 0b001001_1_000000000000000000_0000_000#32
      = .ok (.reti) := by decide

/-- Rows 17 to 21 (R115-R117). -/
theorem test_decode_loop_and_control_words :
    decodeWord Codes.listing 0b000111_0000000000_0_111111111111111#32
      = .ok (.rep (.imm 0x7FFF)) ∧
    decodeWord Codes.listing 0b000110_00000000000000000000000_101#32
      = .ok (.rep (.reg 5)) ∧
    decodeWord Codes.listing 0b000101_00_00000010_0_000000000000011#32
      = .ok (.loop (.imm 3) 2) ∧
    decodeWord Codes.listing 0b000100_00_11111111_0000000000000_001#32
      = .ok (.loop (.reg 1) 255) ∧
    decodeWord Codes.listing 0b0000_0000000000000000000000000000#32
      = .ok (.nop) ∧
    decodeWord Codes.listing 0b0000_0000000000000000000000000001#32
      = .ok (.halt) ∧
    decodeWord Codes.listing 0b0000_0000000000000000000000000010#32
      = .ok (.stop) ∧
    decodeWord Codes.listing 0b0000_0000000000000000000000000011#32
      = .ok (.fint) ∧
    decodeWord Codes.listing 0b0000_0000000000000000000000000100#32
      = .ok (.lpop) := by decide

/-- The word of each statement COND may form (R104, R110, R112-R114, R118). -/
theorem test_decode_condition_words :
    decodeWord Codes.listing 0b0110_0010_000_000_00000000000_0101_001#32
      = .ok (.cond .ge0 1 (.mono .inc 0 0)) ∧
    decodeWord Codes.listing 0b0110_1101_001_010_00000000000_0000_110#32
      = .ok (.cond .ever 6 (.mono .div 1 2)) ∧
    decodeWord Codes.listing 0b001111_000_0_00000_0_000000000_0110_001#32
      = .ok (.cond .lt0 1 (.mov .toSpecial (.dp 0) 0)) ∧
    decodeWord Codes.listing 0b001111_010_0_01011_1_000000000_1000_011#32
      = .ok (.cond .neEx 3 (.mov .fromSpecial (.dn 3) 2)) ∧
    decodeWord Codes.listing 0b001011_0_00_1111111111111110_0011_000#32
      = .ok (.cond .gt0 0 (.jmp 0xFFFE)) ∧
    decodeWord Codes.listing 0b001011_1_00_0000000100000000_0010_001#32
      = .ok (.cond .ne0 1 (.call 0x0100)) ∧
    decodeWord Codes.listing 0b001010_0_00000_000_0000000000_0100_010#32
      = .ok (.cond .le0 2 (.jreg 0)) ∧
    decodeWord Codes.listing 0b001010_1_00000_111_0000000000_0001_011#32
      = .ok (.cond .eq0 3 (.creg 7)) ∧
    decodeWord Codes.listing 0b001001_0_000000000000000000_0110_000#32
      = .ok (.cond .lt0 0 .ret) ∧
    decodeWord Codes.listing 0b001001_1_000000000000000000_0001_111#32
      = .ok (.cond .eq0 7 .reti) := by decide


/-- Refused words: the 8th modix value, an unassigned condition, suffix pair, register code, selector and
opcode (R123), a condition with nothing after it (R366), a suffix pair outside the eight on an absent side,
and CLR with two registers (log 11). -/
theorem test_decode_undefined_words :
    decodeWord Codes.listing 0b0111_0010_000_000_1_0_00_111_000_00_000_000#32 = .error .modi ∧
      decodeWord Codes.listing 0b0110_0010_000_000_00000000000_1001_000#32 = .error .condition ∧
      decodeWord Codes.listing 0b010010_000_011_0_00_0_0000000000000000#32 = .error .suffix ∧
      decodeWord Codes.listing 0b001111_000_0_10010_0_000000000_0000_000#32 = .error .regCode ∧
      decodeWord Codes.listing 0b0000_0000000000000000000000000101#32 = .error .selector ∧
      decodeWord Codes.listing 0b0101_1000_000_000_00_0000000000000000#32 = .error .opcode ∧
      decodeWord Codes.listing 0b0111_1110_000_000_0_0_00_000_000_00_000_000#32 = .error .opcode ∧
      decodeWord Codes.listing 0b0110_0000_000_000_00000000000_0111_010#32 = .error .emptyCondition ∧
      decodeWord Codes.listing 0b010011_011_000_00_0_1_00_000_000_00_010_000#32 = .error .suffix ∧
      decodeWord Codes.listing 0b0111_0001_000_001_0_0_00_000_000_00_000_000#32 = .error .clrFields := by
  decide

/-- Other field values: with the opcode table of row 4 reversed, opcode 7 is IADD (R122). -/
theorem test_decode_other_values :
    let c := { Codes.listing with opImm := [7, 6, 5, 4, 3, 2, 1, 0] }
    c.sound = true ∧ decodeWord c 0b0101_0111_000_001_00_0000000000010000#32 = .ok (.iadd 0 1 0x10) ∧
      encode c (.ixor 2 3 1) = 0b0101_0000_010_011_00_0000000000000001#32 := by decide

/-- A table with a value twice, or with one outside its field, is not sound (R122). -/
theorem test_smoke_codes :
    { Codes.listing with opImm := [0, 1, 2, 3, 4, 5, 6, 6] }.sound = false ∧
      { Codes.listing with modi := [0, 1, 2, 3, 4, 5, 8] }.sound = false := by decide

/-- The member differences of R2: the bus-access-error flag, STOP, WAKEUP, and the forbidden pairs. -/
theorem test_member_differences :
    Member.upd77016.hasBusErrFlag = true ∧ Member.upd77110.hasBusErrFlag = false ∧
      Member.upd77016.hasStop = false ∧ Member.upd77114.hasStop = true ∧
      Member.upd77019.hasWakeup = false ∧ Member.upd77111.hasWakeup = true ∧
      Member.upd77018A.forbidsPair .irom .irom = true ∧ Member.upd77016.forbidsPair .irom .irom = false := by
  decide

/-- A LOOP at 0xFFFE with a two-word body has LEA 0: a JMP at its first word is one of the last three
(R349 a, log 33). -/
theorem test_loop_end_past_the_top :
    result (exec (.loop (.imm 2) 2) { State.reset with pc := 0xFFFE }) (fun t => (t.pc, t.lsa, t.lea))
        = some (0xFFFF, 0xFFFF, 0) ∧
      stops (exec (.jmp 0) { State.reset with pc := 0xFFFF, lsp := 1, lsa := 0xFFFF, lea := 0 })
        = some (.fault .forbiddenNearLoopEnd) := by decide

/-- Only four bytes are an instruction word (R100). -/
theorem test_decode_length : decode Codes.listing [0, 0, 0] = .error .length ∧ decode Codes.listing [1, 0, 0, 0] = .ok .halt := by
  decide

/-- The host's entries: a table word decodes, and the next step runs it: `R1 = R1 + 1` (R231). -/
theorem test_table_word_runs :
    decodeTableWord 32 0x72240000 = some (.inc 1 1 noPar) ∧
      result (step (State.reset.withFetchWord 32 0x72240000)) (fun t => (t.reg 1, t.pc)) = some (1, 1) := by
  decide

/-! ## One-step vectors: operations -/

/-- T3. -/
theorem test_madd_wraps :
    gives (.madd 0 4 1 noPar) (regs 0x0080000000 0x7F80000000 0 0x0080000000) 1
      = some (0x8000000000, true) := by decide

/-- T5: E and L of a multiplier input are ignored. -/
theorem test_madd_uses_high_parts :
    gives (.madd 0 4 1 noPar) (regs 0xAB7FFF1234 0xFFFFFFFFFF 0 0x007FFF0000) 1
      = some (0x007FFE0001, false) := by decide

/-- T7. -/
theorem test_msub_wraps :
    gives (.msub 0 4 1 noPar) (regs 0x0000010000 0x8000000000 0 0x0000010000) 1
      = some (0x7FFFFFFFFE, true) := by decide

/-- T8: signed by unsigned. -/
theorem test_suma_signs :
    gives (.suma 0 4 1 noPar) (regs 0x00FFFF0000 0 0 0x000000FFFF) 1 = some (0xFFFFFE0002, false) := by
  decide

/-- T12: unsigned by unsigned, below 2^31. -/
theorem test_uuma_unsigned :
    gives (.uuma 0 4 1 noPar) (regs 0x0000008000 0 0 0x000000FFFF) 1 = some (0x00FFFF0000, false) := by
  decide

/-- T16. -/
theorem test_mas1_shifts :
    gives (.mas1 0 4 1 noPar) (regs 0x0080000000 0x7FFFFFFFFF 0 0x0080000000) 1
      = some (0x407FFFFFFF, false) := by decide

/-- T19. -/
theorem test_mas16_shifts :
    gives (.mas16 0 4 1 noPar) (regs 0x00FFFF0000 0x8000000000 0 0x0000010000) 1
      = some (0xFFFF7FFFFE, false) := by decide

/-- B3. -/
theorem test_mpy_high_parts :
    gives (.mpy 0 4 1 noPar) (regs 0x127FFFABCD 0 0 0x007FFF0000) 1 = some (0x007FFE0002, false) := by
  decide

/-- B5. -/
theorem test_add_wraps :
    gives (.add 0 4 1 noPar) (regs 0x8000000000 0 0 0xFFFFFFFFFF) 1 = some (0x7FFFFFFFFF, true) := by
  decide

/-- B8: the immediate is zero-extended. -/
theorem test_iadd_zero_extends : gives (.iadd 0 1 0xFFFF) (regs 0x7FFFFF0001 0 0 0) 1
    = some (0x8000000000, true) := by decide

/-- B11. -/
theorem test_sub_wraps :
    gives (.sub 0 4 1 noPar) (regs 0 0 0 0x8000000000) 1 = some (0x8000000000, true) := by decide

/-- B13. -/
theorem test_isub_wraps : gives (.isub 0 1 0xFFFF) (regs 0x800000FFFE 0 0 0) 1
    = some (0x7FFFFFFFFF, true) := by decide

/-- B15: an amount of 40 gives the sign in every bit. -/
theorem test_sra_by_40 :
    gives (.sra 0 4 1 noPar) (regs 0x8000000000 0 0 0x28) 1 = some (0xFFFFFFFFFF, false) := by decide

/-- B16: bits 15-6 of the amount are ignored. -/
theorem test_sra_amount_bits :
    gives (.sra 0 4 1 noPar) (regs 0x8000000000 0 0 0x44) 1 = some (0xF800000000, false) := by decide

/-- B19. -/
theorem test_isra_signed : gives (.isra 0 1 0x10) (regs 0xFF80000000 0 0 0) 1
    = some (0xFFFFFF8000, false) := by decide

/-- B21: an immediate amount of 40 is refused. -/
theorem test_isra_by_40_refused :
    stops (exec (.isra 0 1 40) (regs 0 0 0 0)) = some (.refusal .immediateShiftRange) := by decide

/-- B23, at the top of the range. -/
theorem test_srl_by_39 :
    gives (.srl 0 4 1 noPar) (regs 0x8000000000 0 0 39) 1 = some (1, false) := by decide

/-- B25. -/
theorem test_isrl_logical : gives (.isrl 0 1 0x10) (regs 0xFF80000000 0 0 0) 1
    = some (0x0000FF8000, false) := by decide

/-- B26: no overflow flag on shifts. -/
theorem test_sll_no_flag :
    gives (.sll 0 4 1 noPar) (regs 0x4000000001 0 0 1) 1 = some (0x8000000002, false) := by decide

/-- B28. -/
theorem test_sll_by_40 :
    gives (.sll 0 4 1 noPar) (regs 0xFFFFFFFFFF 0 0 40) 1 = some (0, false) := by decide

/-- B29. -/
theorem test_isll : gives (.isll 0 1 0x10) (regs 0x8001 0 0 0) 1 = some (0x0080010000, false) := by decide

/-- B30. -/
theorem test_and : gives (.and 0 4 1 noPar) (regs 0xFF00FF00FF 0 0 0x0F0F0F0F0F) 1
    = some (0x0F000F000F, false) := by decide

/-- B31: bits 39-16 are cleared. -/
theorem test_iand : gives (.iand 0 1 0x10) (regs 0xFFFFFFFFFF 0 0 0) 1 = some (0x10, false) := by decide

/-- B32. -/
theorem test_or : gives (.or 0 4 1 noPar) (regs 0x8000000000 0 0 1) 1 = some (0x8000000001, false) := by
  decide

/-- B33: bits 39-16 are kept. -/
theorem test_ior : gives (.ior 0 1 0x10) (regs 0x1234560001 0 0 0) 1 = some (0x1234560011, false) := by
  decide

/-- B34. -/
theorem test_xor : gives (.xor 0 4 1 noPar) (regs 0xFF00FF00FF 0 0 0x0F0F0F0F0F) 1
    = some (0xF00FF00FF0, false) := by decide

/-- B36. -/
theorem test_ixor : gives (.ixor 0 1 0xFFFF) (regs 0x1234560011 0 0 0) 1
    = some (0x123456FFEE, false) := by decide

/-- B37. -/
theorem test_lt_signed : gives (.lt 0 4 2 noPar) (regs 0x8000000000 0 5 0x7FFFFFFFFF) 2
    = some (1, false) := by decide

/-- B39. -/
theorem test_lt_false : gives (.lt 0 4 2 noPar) (regs 0 0 5 0xFFFFFFFFFF) 2 = some (0, false) := by decide

/-- M1. -/
theorem test_clr : gives (.clr 1 noPar) (regs 0 0x123456789A 0 0) 1 = some (0, false) := by decide

/-- M2. -/
theorem test_inc_wraps : gives (.inc 1 2 noPar) (regs 0 0x7FFFFFFFFF 0 0) 2
    = some (0x8000000000, true) := by decide

/-- M4. -/
theorem test_dec_wraps : gives (.dec 1 2 noPar) (regs 0 0x8000000000 0 0) 2
    = some (0x7FFFFFFFFF, true) := by decide

/-- M7. -/
theorem test_abs_least : gives (.abs 1 2 noPar) (regs 0 0x8000000000 0 0) 2
    = some (0x8000000000, true) := by decide

/-- M6. -/
theorem test_abs_negative : gives (.abs 1 2 noPar) (regs 0 0xFFFFFFFFFB 0 0) 2 = some (5, false) := by
  decide

/-- M9. -/
theorem test_not : gives (.not 1 2 noPar) (regs 0 0xFFFF 0 0) 2 = some (0xFFFFFF0000, false) := by decide

/-- M12. -/
theorem test_neg_least : gives (.neg 1 2 noPar) (regs 0 0x8000000000 0 0) 2
    = some (0x8000000000, true) := by decide

/-- M10. -/
theorem test_neg_one : gives (.neg 1 2 noPar) (regs 0 1 0 0) 2 = some (0xFFFFFFFFFF, false) := by decide

/-- M14. -/
theorem test_clip_above : gives (.clip 1 2 noPar) (regs 0 0x0080000000 0 0) 2
    = some (0x007FFFFFFF, false) := by decide

/-- M17. -/
theorem test_clip_below : gives (.clip 1 2 noPar) (regs 0 0xFF7FFFFFFF 0 0) 2
    = some (0xFF80000000, false) := by decide

/-- M24: the clipping branch. -/
theorem test_rnd_clips : gives (.rnd 1 2 noPar) (regs 0 0x007FFF0001 0 0) 2
    = some (0x007FFF0000, false) := by decide

/-- M29: half rounds upward. -/
theorem test_rnd_half : gives (.rnd 1 2 noPar) (regs 0 0xFF80008000 0 0) 2
    = some (0xFF80010000, false) := by decide

/-- M35. -/
theorem test_exp : gives (.exp 1 2 noPar) (regs 0 0x0000123456 0 0) 2 = some (0x0A, false) := by decide

/-- M39. -/
theorem test_exp_negative : gives (.exp 1 2 noPar) (regs 0 0xFFFFFFFFFE 0 0) 2
    = some (0x1E, false) := by decide

/-- S4: the operation, then the transfers; the store takes the register before the word. -/
theorem test_put_with_transfers :
    result (exec (.put 0 1 ⟨some ⟨.load, 0, .plain, 2⟩, some ⟨.store, 0, .plain, 3⟩⟩)
        { State.reset with
          r := #v[0x0012345678, 0, 0, 0x00ABCD0000, 0, 0, 0, 0]
          dp := #v[5, 0, 0, 0, 6, 0, 0, 0]
          xmem := words [(5, 0x4321)] })
      (fun t => (t.reg 1, t.reg 2, t.ymem.read16 6, t.ptr 0, t.cycles))
      = some (0x0012345678, 0x0043210000, some 0xABCD, 5, 1) := by decide

/-- M43. -/
theorem test_aca_wraps : gives (.aca 1 2 noPar) (regs 0 1 0x7FFFFFFFFF 0) 2
    = some (0x8000000000, true) := by decide

/-- M45: the destination is the minuend. -/
theorem test_acs : gives (.acs 1 2 noPar) (regs 0 7 5 0) 2 = some (0xFFFFFFFFFE, false) := by decide

/-- M46. -/
theorem test_div_same_sign : gives (.div 1 2 noPar) (regs 0 0x70000 0x64 0) 2
    = some (0xFFFFF200C8, false) := by decide

/-- M50: the value where the shift loses the sign; OV is open there (log 16). -/
theorem test_div_value_at_overflow :
    result (exec (.div 1 2 noPar) (regs 0 0x2000000000 0x6000000000 0)) (fun t => (t.reg 2, t.draws))
      = some (0x8000000001, 1) := by decide

/-- The example under 2.1: the product of the old inputs, with loads into both of them. -/
theorem test_operation_before_loads :
    result (exec (.madd 1 2 0 (twoLoads .inc .inc 1 2))
        { regs 0 0x0040000000 0x0040000000 0 with
          xmem := words [(0, 0x1000)], ymem := words [(0, 0x2000)] })
      (fun t => (t.reg 0, t.reg 1, t.reg 2, t.ptr 0, t.ptr 4))
      = some (0x0020000000, 0x0010000000, 0x0020000000, 1, 1) := by decide

/-! ## One-step vectors: loads, stores and moves -/

/-- L1. -/
theorem test_lspa_loads :
    result (exec (.lspa (twoLoads .inc .inc 0 1))
        { State.reset with
          dp := #v[0x10, 0, 0, 0, 0x20, 0, 0, 0]
          xmem := words [(0x10, 0x1234)], ymem := words [(0x20, 0xFFFF)] })
      (fun t => (t.reg 0, t.reg 1, t.ptr 0, t.ptr 4))
      = some (0x0012340000, 0xFFFFFF0000, 0x11, 0x21) := by decide

/-- L8: the address is reversed, the pointer is not. -/
theorem test_lspa_bit_reversed_store :
    result (exec (.lspa ⟨none, some ⟨.store, 0, .bitRev, 0⟩⟩)
        { State.reset with
          r := #v[0x00BEEF0000, 0, 0, 0, 0, 0, 0, 0]
          dp := #v[0, 0, 0, 0, 0x1234, 0, 0, 0], dn := #v[0, 0, 0, 0, 0x10, 0, 0, 0] })
      (fun t => (t.ymem.read16 0x2C48, t.ptr 4)) = some (some 0xBEEF, 0x1244) := by decide

/-- L9: the 32-bit load. -/
theorem test_lsse_pair_load :
    result (exec (.lsse ⟨some ⟨.load .reh, 0, .inc, 0⟩, some ⟨.load .rl, 0, .inc, 0⟩⟩)
        { State.reset with
          r := #v[0x5555555555, 0, 0, 0, 0, 0, 0, 0], dp := #v[0x30, 0, 0, 0, 0x40, 0, 0, 0]
          xmem := words [(0x30, 0x8000)], ymem := words [(0x40, 1)] })
      (fun t => (t.reg 0, t.ptr 0, t.ptr 4)) = some (0xFF80000001, 0x31, 0x41) := by decide

/-- L11: the E part is stored zero-extended. -/
theorem test_lsse_stores :
    result (exec (.lsse ⟨some ⟨.store .re, 0, .inc, 2⟩, some ⟨.store .rl, 0, .dec, 2⟩⟩)
        { State.reset with
          r := #v[0, 0, 0x80FFFF1234, 0, 0, 0, 0, 0], dp := #v[0x30, 0, 0, 0, 0x40, 0, 0, 0] })
      (fun t => (t.xmem.read16 0x30, t.ymem.read16 0x40, t.ptr 0, t.ptr 4))
      = some (some 0x0080, some 0x1234, 0x31, 0x3F) := by decide

/-- L13: E and L are kept. -/
theorem test_lsda_load :
    result (exec (.lsda (.load .rh) 0 .x 0x1234)
        { regs 0x1122223333 0 0 0 with xmem := words [(0x1234, 0xBEEF)] }) (fun t => t.reg 0)
      = some 0x11BEEF3333 := by decide

/-- L15. -/
theorem test_lsda_store :
    result (exec (.lsda (.store .re) 0 .y 0) (regs 0xFE12345678 0 0 0)) (fun t => t.ymem)
      = some [(0, 0xFE), (1, 0)] := by decide

/-- L17: DP4-DP7 address Y, and the immediate wraps. -/
theorem test_lsim_load :
    result (exec (.lsim (.load .rl) 0 6 0xFFFF)
        { regs 0xFFFFFF0000 0 0 0 with
          dp := #v[0, 0, 0, 0, 0, 0, 0x0100, 0], ymem := words [(0x0100, 0x7FFF)] })
      (fun t => (t.reg 0, t.ptr 6)) = some (0xFFFFFF7FFF, 0xFF) := by decide

/-- L18. -/
theorem test_lsim_store :
    result (exec (.lsim (.store .rh) 0 7 0x8000)
        { regs 0x00CAFE0000 0 0 0 with dp := #v[0, 0, 0, 0, 0, 0, 0, 0x8000] })
      (fun t => (t.ymem.read16 0x8000, t.ptr 7)) = some (some 0xCAFE, 0) := by decide

/-- L23. -/
theorem test_load_of_unwritten_word :
    stops (exec (.lspa ⟨some ⟨.load, 0, .plain, 0⟩, none⟩) State.reset)
      = some (.fault (.uninitialisedRead (some .x) 0)) := by decide

/-- V2. -/
theorem test_mov_from_dn :
    result (exec (.mov .fromSpecial (.addr (.dn 3)) 2)
        { regs 0 0 0xAB12345678 0 with dn := #v[0, 0, 0, 0xFFFE, 0, 0, 0, 0] }) (fun t => t.reg 2)
      = some 0xAB1234FFFE := by decide

/-- V6. -/
theorem test_mov_bad_stack_pointer :
    stops (exec (.mov .toSpecial (.ctl .sp) 2) (regs 0 0 0x10 0)) = some (.fault .badPointerValue) := by
  decide

/-- V9: the way to clear OV. -/
theorem test_mov_clears_ov :
    result (exec (.mov .toSpecial (.ctl .esr) 0) { State.reset with esr := 1 }) (fun t => t.ov)
      = some false := by decide

/-- V10. -/
theorem test_ldi_low :
    result (exec (.ldi (.rl 4) 1) (regs 0 0 0 0xFFFFFFFFFF)) (fun t => t.reg 4) = some 0xFFFFFF0001 := by
  decide

/-- V12 and V14: the pointer LDI set is barred for one word, another one is not. -/
theorem test_ldi_marks_pointer :
    result (exec (.ldi (.addr (.dp 0)) 0x1234) State.reset) (fun t => (t.ptr 0, t.marks.dpFresh))
      = some (0x1234, some 0) ∧
    stops (exec (.lspa ⟨some ⟨.load, 0, .inc, 0⟩, none⟩) { State.reset with marks := { dpFresh := some 0 } })
      = some (.fault (.dpUsedTooEarly 0)) := by decide

/-! ## One-step vectors: control -/

/-- J1. -/
theorem test_jmp_backward :
    result (exec (.jmp 0xFF40) { State.reset with pc := 0x0100 }) (fun t => (t.pc, t.cycles))
      = some (0x40, 2) := by decide

/-- J6. -/
theorem test_jreg :
    result (exec (.jreg 3) { State.reset with dp := #v[0, 0, 0, 0xFFF0, 0, 0, 0, 0] })
      (fun t => (t.pc, t.cycles)) = some (0xFFF0, 3) := by decide

/-- J8: the last free entry. -/
theorem test_call_last_entry :
    result (exec (.call 0x0100) { State.reset with pc := 0x0200, sp := 0xE })
      (fun t => (t.pc, t.sp, t.stk[14], t.cycles)) = some (0x0300, 0xF, 0x0201, 2) := by decide

/-- J9. -/
theorem test_call_overflow :
    stops (exec (.call 0x0100) { State.reset with sp := 0xF }) = some (.fault .stackOverflow) := by decide

/-- J10. -/
theorem test_creg :
    result (exec (.creg 5)
        { State.reset with pc := 0x0200, dp := #v[0, 0, 0, 0, 0, 0xABCD, 0, 0] })
      (fun t => (t.pc, t.sp, t.stk[0], t.cycles)) = some (0xABCD, 1, 0x0201, 3) := by decide

/-- J11: the entry stays. -/
theorem test_ret :
    result (exec .ret { State.reset with sp := 1, stk := (Vector.replicate 15 0).set 0 0x0201 })
      (fun t => (t.pc, t.sp, t.stk[0], t.cycles)) = some (0x0201, 0, 0x0201, 2) := by decide

/-- J12. -/
theorem test_ret_underflow : stops (exec .ret State.reset) = some (.fault .stackUnderflow) := by decide

/-- J15: outside interrupt processing RETI only advances. -/
theorem test_reti_outside :
    result (exec .reti { State.reset with pc := 0x10, sp := 1 }) (fun t => (t.pc, t.sp, t.sr, t.cycles))
      = some (0x11, 1, 0, 2) := by decide

/-- H2, the REP word: only L of the register counts. -/
theorem test_rep :
    result (exec (.rep (.reg 1)) (regs 0 0xFF12340004 0 0)) (fun t => (t.rc, t.rf, t.pc, t.cycles))
      = some (4, false, 0x0101, 2) := by decide

/-- H4. -/
theorem test_rep_bad_count :
    stops (exec (.rep (.reg 1)) (regs 0 0x8000 0 0)) = some (.fault .badCount) := by decide

/-- H1 and H2: a repeat target with executions left, and its last execution. -/
theorem test_repeat_target :
    result (exec (.inc 0 0 noPar) { regs 0 0 0 0 with rf := false, rc := 2 })
      (fun t => (t.reg 0, t.pc, t.rc, t.rf)) = some (1, 0x0100, 1, false) ∧
    result (exec (.inc 0 0 noPar) { regs 0 0 0 0 with rf := false, rc := 1 })
      (fun t => (t.reg 0, t.pc, t.rf)) = some (1, 0x0101, true) := by decide

/-- H8, the inner LOOP word: the outer loop goes to the second entry. -/
theorem test_loop_nested :
    result (exec (.loop (.imm 2) 2)
        { State.reset with pc := 0x42, lsp := 1, lsa := 0x41, lea := 0x47, lc := 3 })
      (fun t => (t.lsp, t.lstk[1], t.lsa, t.lea, t.lc)) = some (2, ⟨0x41, 0x47, 3⟩, 0x43, 0x44, 2) := by
  decide

/-- The end word of a loop, with a pass left and in the last pass (R347). -/
theorem test_loop_end :
    result (exec .nop { State.reset with pc := 0x44, lsp := 1, lsa := 0x43, lea := 0x44, lc := 2 })
      (fun t => (t.pc, t.lc, t.lsp)) = some (0x43, 1, 1) ∧
    result (exec .nop
        { State.reset with
          pc := 0x44, lsp := 1, lsa := 0x43, lea := 0x44, lc := 1
          lstk := (Vector.replicate 4 ⟨0, 0, 0⟩).set 0 ⟨7, 8, 9⟩ })
      (fun t => (t.pc, t.lc, t.lea, t.lsa, t.lsp)) = some (0x45, 9, 8, 7, 0) := by decide

/-- H11, the LPOP word. -/
theorem test_lpop :
    result (exec .lpop
        { State.reset with
          pc := 0x58, lsp := 1, lsa := 0x51, lea := 0x55, lc := 100
          lstk := (Vector.replicate 4 ⟨0, 0, 0⟩).set 0 ⟨7, 8, 9⟩ })
      (fun t => (t.pc, t.lc, t.lea, t.lsa, t.lsp)) = some (0x59, 9, 8, 7, 0) := by decide

/-- H13. -/
theorem test_lpop_underflow : stops (exec .lpop State.reset) = some (.fault .loopStackUnderflow) := by
  decide

/-- J16: NOP at 0xFFFF is refused. -/
theorem test_nop_at_end : stops (exec .nop { State.reset with pc := 0xFFFF }) = some (.refusal .pcOverrun) := by
  decide

/-- HALT and STOP (R362, R363). -/
theorem test_halt_stop :
    result (exec .halt State.reset) (fun t => (t.mode, t.pc)) = some (.halted, 1) ∧
      result (exec .stop State.reset) (fun t => (t.mode, t.pc)) = some (.stopped, 1) := by decide

/-- FINT (R364). -/
theorem test_fint :
    result (exec .fint { State.reset with pending := [3, 1] }) (fun t => (t.pending, t.pc))
      = some ([], 1) := by decide

/-- J5 and J4. -/
theorem test_cond_jump :
    result (exec (.cond .eq0 0 (.jmp 2)) (regs 0 0 0 0)) (fun t => (t.pc, t.cycles)) = some (0x0102, 3) ∧
      result (exec (.cond .eq0 0 (.jmp 5)) (regs 1 0 0 0)) (fun t => (t.pc, t.cycles))
        = some (0x0101, 1) := by decide

/-- `IF (R0 > 0) R0 = R0 - 1`: the condition is on the old value (2.3). -/
theorem test_cond_monomial :
    gives (.cond .gt0 0 (.mono .dec 0 0)) (regs 1 0 0 0) 0 = some (0, false) := by decide

/-- Rows of 2.4: 0x00'8000'0000 and 0xFF'8000'0000 under == EX and != EX. -/
theorem test_cond_ex :
    Cond.eqEx.holds 0x0080000000 = true ∧ Cond.neEx.holds 0x0080000000 = false ∧
      Cond.eqEx.holds 0xFF80000000 = false ∧ Cond.neEx.holds 0xFF80000000 = true := by decide

/-! ## Witnesses: the hypotheses of each statement hold somewhere

One theorem per statement, or per group of statements with the same hypotheses; each clause at a boundary
of its range. -/

/-- Mid-program: transfers on both sides are possible. -/
def base : State :=
  { State.reset with
    pc := 0x0100
    dp := #v[0x10, 0, 0, 0, 0x20, 0, 0, 0]
    dmx := 1
    dmy := 0x7FFF
    xmem := words [(0x10, 0x1234)]
    ymem := words [(0x20, 0xFFFF)] }

/-- The machine about to run a placed word. -/
def placed (w : Nat) : State := State.reset.withFetchWord 32 w

/-- `base` at the end word of a loop with one pass left. -/
def atEnd : State := { base with lsp := 1, lsa := 0x00FE, lea := 0x0100, lc := 1 }

/-- An interrupt source and a machine with its request pending. -/
def source : IntSource := ⟨3, 0x0200⟩

def requested : State :=
  { base with platform := { Config.defaultPlatform with intSources := [source] }, pending := [3] }

theorem canRetire_base : CanRetire base := Or.inr (Or.inr (by decide))

theorem placeFree_base : PlaceFree base := ⟨rfl, by unfold InLastThree; decide⟩

/-- DecodeInvertsEncode, PlacedWordIsTheNextOneRun: sound field values, a well-formed statement with two
transfers. -/
theorem test_witness_well_formed :
    Codes.listing.sound = true ∧ State.reset.platform.codes.sound = true ∧
      (Instr.div 1 2 (twoLoads .bitRev .modulo 3 4)).wellFormed = true := by decide

/-- WordsOutsideTheFormatsRefused, unassigned leading bits. -/
theorem test_witness_leading_bits :
    (0x40000000#32).extractLsb' 26 6 = 0b010000 ∧ (0x37FFFFFF#32).extractLsb' 27 5 = 0b00110 ∧
      (0x20000000#32).extractLsb' 26 6 = 0b001000 := by decide

/-- WordsOutsideTheFormatsRefused, an unused bit: one word for each format. -/
theorem test_witness_unused_bits :
    ∀ w ∈ [0x60000080#32, 0x50020000#32, 0x4C080000#32, 0x48020000#32, 0x3C000080#32, 0x3C640001#32,
      0x38400000#32, 0x38030000#32, 0x2D000000#32, 0x28100000#32, 0x28000080#32, 0x24000080#32,
      0x1C008001#32, 0x18000008#32, 0x15020001#32, 0x14028001#32, 0x11020000#32, 0x10020008#32],
      SetsUnusedBit w := by
  simp [SetsUnusedBit]

/-- WordsOutsideTheFormatsRefused, an unassigned value of an operation word. -/
theorem test_witness_unassigned_operation :
    ∀ w ∈ [0x80003800#32, 0x80000038#32, 0x7E000000#32, 0x70003800#32, 0x6F000000#32, 0x60000000#32,
      0x62000048#32, 0x58000000#32], UnassignedInOperation Codes.listing w := by
  simp [UnassignedInOperation, Unassigned, Codes.listing]

/-- WordsOutsideTheFormatsRefused, an unassigned value of a transfer word. -/
theorem test_witness_unassigned_transfer :
    ∀ w ∈ [0x4C003800#32, 0x4D800000#32, 0x4C300000#32, 0x48300000#32, 0x44300000#32, 0x3C240000#32,
      0x3C000048#32, 0x3C400000#32, 0x38240000#32], UnassignedInTransfer Codes.listing w := by
  simp [UnassignedInTransfer, Unassigned, UnassignedPair, Codes.listing]

/-- WordsOutsideTheFormatsRefused, an unassigned condition of a branch or selector, and CLR with two
registers. -/
theorem test_witness_unassigned_control :
    (∀ w ∈ [0x2C000078#32, 0x28000048#32, 0x24000048#32, 0x00000005#32, 0x0FFFFFFF#32],
      UnassignedInControl Codes.listing w) ∧
      ∀ w ∈ [0x71040000#32, 0x61040000#32], w.extractLsb' 29 3 = 0b011 ∧
        (w.extractLsb' 24 4).toNat = codeAt Codes.listing.op2 1 ∧
        w.extractLsb' 21 3 ≠ w.extractLsb' 18 3 := by
  simp [UnassignedInControl, Unassigned, Codes.listing, codeAt]

/-- StepRunsTheDecodedWord. -/
theorem test_witness_step_runs :
    (placed 0).mode = .running ∧ (placed 0).readySource = none ∧ (placed 0).codeAt 0 = true ∧
      (placed 0).imem.read32 0 = some 0 ∧ decode (placed 0).platform.codes (bytesOfWord 0) = .ok .nop ∧
      Instr.nop.wellFormed = true := by decide

/-- StepRefusesWhatIsNoStatement, its four clauses: the last word is `LSPA` without a transfer's pair, a
double load of R0. -/
theorem test_witness_step_refuses :
    State.reset.readySource = none ∧
      { State.reset with platform := { Config.defaultPlatform with codeMap := [] } }.codeAt 0 = false ∧
      (State.reset.codeAt 0 = true ∧ State.reset.imem.read32 0 = none) ∧
      ((placed 5).imem.read32 0 = some 5 ∧ decode (placed 5).platform.codes (bytesOfWord 5) = .error .selector) ∧
      ((placed 0x70030808).imem.read32 0 = some 0x70030808 ∧
        decode Codes.listing (bytesOfWord 0x70030808) = .ok (.lspa (twoLoads .plain .plain 0 0)) ∧
        OverlapRefused (.lspa (twoLoads .plain .plain 0 0))) :=
  ⟨by decide, by decide, by decide, by decide, by decide, by decide,
    Or.inr (Or.inl ⟨_, rfl, _, _, rfl, rfl, rfl, Or.inl rfl⟩)⟩

/-- EveryStepKeepsTheInvariant: a state with the invariant that steps. -/
theorem test_witness_invariant :
    (placed 0x72240000).Inv ∧ ∃ t, step (placed 0x72240000) = .next t := by
  refine ⟨⟨?_, ?_, ?_, ?_, ?_, ?_, ?_, ?_, ?_, ?_, ?_, ?_, ?_, ?_⟩, ⟨_, rfl⟩⟩
  · unfold platformSound; decide
  all_goals decide

/-- StepsNeverChangeInstructionMemory. -/
theorem test_witness_step : ∃ t, step (placed 0) = .next t := ⟨_, rfl⟩

/-- OverflowFlagIsSticky: OV is set, the word is not `ESR = rl`, and it cannot set OV. -/
theorem test_witness_overflow :
    (∃ t, exec .nop { base with esr := 1 } = .next t) ∧ setsEsr .nop = false ∧
      { base with esr := 1 }.ov = true ∧ canSetOv .nop = false := ⟨⟨_, rfl⟩, by decide⟩

/-- AddressRegistersHaveTheirWriters: a MOV of DN1 is not a MOV of the others. -/
theorem test_witness_address_writers :
    (∃ t, exec (.mov .toSpecial (.addr (.dn 1)) 0) base = .next t) ∧
      setsAddrReg (.mov .toSpecial (.addr (.dn 1)) 0) (.dn 0) = false ∧
      setsAddrReg (.mov .toSpecial (.addr (.dn 1)) 0) .dmx = false ∧
      setsAddrReg (.mov .toSpecial (.addr (.dn 1)) 0) .dmy = false ∧
      setsAddrReg (.mov .toSpecial (.addr (.dn 1)) 0) (.dp 7) = false ∧
      transfersOf (.mov .toSpecial (.addr (.dn 1)) 0) = none ∧
      (∀ o k m, Instr.mov .toSpecial (.addr (.dn 1)) 0 ≠ .lsim o k 7 m) :=
  ⟨⟨_, rfl⟩, by decide, by decide, by decide, by decide, by decide, fun _ _ _ h => by cases h⟩

/-- OnlyStoresChangeDataMemory: a word with loads only. -/
theorem test_witness_no_store :
    (∃ t, exec (.lspa (twoLoads .inc .inc 0 1)) base = .next t) ∧
      mayStore (.lspa (twoLoads .inc .inc 0 1)) = false := ⟨⟨_, rfl⟩, by decide⟩

/-- InterruptsAreHeldOff, its four clauses. -/
theorem test_witness_held_off :
    (∃ t, exec (.rep (.imm 1)) base = .next t) ∧ (∃ t, exec (.loop (.imm 1) 2) base = .next t) ∧
      (∃ t, exec .nop { base with rf := false, rc := 2 } = .next t) ∧
      (∃ t, exec .nop atEnd = .next t) ∧ atEnd.lsp ≠ 0 ∧ atEnd.pc = atEnd.lea :=
  ⟨⟨_, rfl⟩, ⟨_, rfl⟩, ⟨_, rfl⟩, ⟨_, rfl⟩, by decide, rfl⟩

/-- InterruptEntrySavesAndVectors: two requests pending; halted, running, and held off. -/
theorem test_witness_interrupt_entry :
    let s := { requested with
      platform := { requested.platform with intSources := [source, ⟨4, 0x0210⟩] }, pending := [4, 3] }
    s.platform.eirWidth ≤ 16 ∧ ({ s with mode := .halted } : State).mode = .halted ∧ s.mode = .running ∧
      s.rf = true ∧ s.marks.acceptHold = false ∧
      ({ s with marks := { acceptHold := true } } : State).marks.acceptHold = true := by decide

/-- ReturnUndoesInterruptEntry: RETI is the first word of the handler, entered with SP at 14. -/
theorem test_witness_return :
    let s := { requested with sp := 14 }
    let u := s.entered source
    s.sp.toNat ≤ 14 ∧ u.platform.eirWidth ≤ 16 ∧ PlaceFree u ∧ u.marks.stackMoved = false ∧
      ∀ p ∈ u.platform.intSources, u.pc.toNat + 1 ≠ p.vector.toNat := by
  refine ⟨by decide, by decide, ⟨rfl, ?_⟩, rfl, ?_⟩
  · exact fun h => absurd rfl h.1
  · intro p hp
    cases List.mem_singleton.1 hp
    decide

/-- HaltAndStopEnterTheirModes. -/
theorem test_witness_halt :
    PlaceFree base ∧ base.pc ≠ 0xFFFF ∧ base.platform.member ≠ .upd77016 ∧
      { base with mode := .halted }.pending = [] := ⟨placeFree_base, by decide⟩

/-- NopAndFintEndAWord: a next PC; none at 0xFFFF; none at a loop exit with LSP 5. -/
theorem test_witness_nop :
    CanRetire base ∧ ¬ CanRetire { base with pc := 0xFFFF } ∧
      ¬ CanRetire { atEnd with lsp := 5 } ∧ 4 < ({ atEnd with lsp := 5 } : State).lsp.toNat := by
  refine ⟨canRetire_base, ?_, ?_, by decide⟩ <;> · unfold CanRetire; decide

/-- Both sides of `twoLoads` can be performed in `base`. -/
theorem pairReady_base : PairReady base (twoLoads .modulo .modulo 1 2).toPair := by
  refine ⟨⟨⟨by decide, by decide⟩, Or.inl rfl, rfl⟩, ⟨⟨by decide, by decide⟩, Or.inl rfl, rfl⟩, ?_⟩
  rintro ⟨a, b, ha, hb, h⟩
  cases ha
  cases hb
  exact absurd h (by decide)

/-- The words of one operation: MaddMsubWords, SumaUumaWords, ShiftedMultiplyAddWords,
MultiplyAddSubtractWords, RegisterShiftWords, LogicAndCompareWords, ClrNotPutWords, IncDecAbsNegWords,
ClipRndWords, ExponentWords, AccumulateWords, DivideStepWords; with two transfers. -/
theorem test_witness_operation_words :
    (twoLoads .modulo .modulo 1 2).fits 0 = true ∧ PairReady base (twoLoads .modulo .modulo 1 2).toPair ∧
      CanRetire base ∧ (1 : GReg) ≠ 0 := ⟨by decide, pairReady_base, canRetire_base, by decide⟩

/-- ExponentWords: the values with a stated count reach both ends of the 32-bit range. -/
theorem test_witness_exponent :
    outside32 (0xFF80000000 : Word40).toInt = false ∧ outside32 (0x007FFFFFFF : Word40).toInt = false ∧
      outside32 (0x0080000000 : Word40).toInt = true := by decide

/-- The words of one register: ImmediateAddSubtractWords, ImmediateShiftWords (amounts 39 and 40),
ImmediateLogicWords. -/
theorem test_witness_register_words :
    CanRetire base ∧ (39 : Word16).toNat % 64 < 40 ∧ 40 ≤ (40 : Word16).toNat % 64 :=
  ⟨canRetire_base, by decide⟩

/-- ParallelAndPartialTransfers. -/
theorem test_witness_transfers :
    PairReady base (twoLoads .modulo .modulo 1 2).toPair ∧ CanRetire base ∧
      pairSide (twoLoads .modulo .modulo 1 2).toPair .y = some ⟨.load .ro, 0, .modulo, 2⟩ :=
  ⟨pairReady_base, canRetire_base, rfl⟩

/-- DirectAddressTransfer and ImmediateIndexTransfer: a load from ROM, a store to RAM, and the pointers
on both sides of the X and Y split. -/
theorem test_witness_accesses :
    AccessReady { base with platform := { base.platform with xMap := [⟨0x10, 1, .irom⟩] } } .x 0x10
        (.load .rl) ∧
      AccessReady base .y 0 (.store .re) ∧ AccessReady base .x (base.ptr 0) (.load .ro) ∧
      AccessReady base .x (base.ptr 3) (.store .rl) ∧ AccessReady base .y (base.ptr 4) (.load .ro) ∧
      base.marks.dpFresh ≠ some 4 ∧ (Space.x = .x ↔ (3 : DReg).val ≤ 3) ∧
      (Space.y = .x ↔ (4 : DReg).val ≤ 3) ∧ CanRetire base :=
  ⟨⟨Or.inr rfl, rfl⟩, rfl, ⟨Or.inl rfl, rfl⟩, rfl, ⟨Or.inl rfl, rfl⟩, by decide, by decide, by decide,
    canRetire_base⟩

/-- PointerFormsAndModification: a form whose address is the pointer itself. -/
theorem test_witness_pointer_form : Modi.modulo ≠ .bitRev := by decide

/-- PointerRulesStopTransfers: a pointer set in the word before, and `%%` with a modulo register of 0 and
of 0x8000, on each side. -/
theorem test_witness_pointer_rules :
    transfersOf (.lspa (twoLoads .modulo .modulo 1 2)) = some (twoLoads .modulo .modulo 1 2).toPair ∧
      sameDivOperands (.lspa (twoLoads .modulo .modulo 1 2)) = false ∧
      { base with marks := { dpFresh := some 0 } }.marks.dpFresh = some (sidePtr .x 0) ∧
      ({ base with dmx := 0 } : State).dmx.toNat = 0 ∧ 0x8000 ≤ ({ base with dmx := 0x8000 } : State).dmx.toNat ∧
      PointerReady { base with marks := { dpFresh := some 4 } } (sidePtr .x 0) .modulo ∧
      { base with marks := { dpFresh := some 4 } }.marks.dpFresh = some (sidePtr .y 0) ∧
      PointerReady { base with dmy := 0x8000 } (sidePtr .x 0) .modulo :=
  ⟨rfl, rfl, rfl, rfl, by decide, ⟨by decide, by decide⟩, rfl, ⟨by decide, by decide⟩⟩

/-- `base` with external memory on both sides. -/
def external : State :=
  { base with
    platform := { base.platform with xMap := [⟨0, 65536, .ext⟩], yMap := [⟨0, 65536, .ext⟩] } }

/-- ForbiddenRegionPairsFault. -/
theorem test_witness_region_pair :
    RegionsClash external (twoLoads .inc .inc 1 2).toPair ∧ PointerReady external (sidePtr .x 0) .inc ∧
      PointerReady external (sidePtr .y 0) .inc :=
  ⟨⟨_, _, rfl, rfl, by decide⟩, ⟨by decide, by decide⟩, ⟨by decide, by decide⟩⟩

/-- `base` with one word of ROM at X 0x10 and nothing else in X, and external memory in Y. -/
def sparse : State :=
  { base with
    platform := { base.platform with xMap := [⟨0x10, 1, .irom⟩], yMap := [⟨0, 65536, .ext⟩] } }

/-- AccessesWithoutAResultStop: ROM, the external area, nothing, an unwritten word; a word whose Y side
cannot be performed and whose X side can. -/
theorem test_witness_accesses_stop :
    (sparse.region .x 0x10 = .irom ∧ sparse.region .y 0xFFFF = .ext ∧ sparse.region .x 0x11 = .absent) ∧
      (base.region .x 0x11 = .iram ∧ (base.data .x).read16 0x11 = none) ∧
      transfersOf (.put 1 2 (twoLoads .inc .inc 3 4)) = some (twoLoads .inc .inc 3 4).toPair ∧
      sameDivOperands (.put 1 2 (twoLoads .inc .inc 3 4)) = false ∧
      PointerReady sparse (sidePtr .x 0) .inc ∧ PointerReady sparse (sidePtr .y 0) .inc ∧
      ¬ RegionsClash { sparse with platform := { sparse.platform with member := .upd77016 } }
        (twoLoads .inc .inc 3 4).toPair ∧
      AccessReady sparse .x (sparse.sideAddress .x ⟨.load .ro, 0, .inc, 3⟩) (.load .ro) := by
  refine ⟨by decide, by decide, rfl, rfl, ⟨by decide, by decide⟩, ⟨by decide, by decide⟩, ?_,
    ⟨Or.inr rfl, rfl⟩⟩
  rintro ⟨a, b, ha, hb, h⟩
  cases ha
  cases hb
  exact absurd h (by decide)

/-- MovesOfAddressRegisters, ImmediateSets, MovesFromControlRegisters. -/
theorem test_witness_moves :
    CanRetire base ∧ base.platform.spWidth ≤ 16 ∧ base.platform.lspWidth ≤ 16 ∧
      base.platform.eirWidth ≤ 16 ∧ base.platform.esrWidth ≤ 16 ∧
      ({ base with sp := 15 } : State).sp.toNat = (14 : Fin 15).val + 1 ∧
      ({ base with lsp := 4 } : State).lsp.toNat = (3 : Fin 4).val + 1 ∧
      CanRetire { base with sp := 15, lsp := 4 } :=
  ⟨canRetire_base, by decide, by decide, by decide, by decide, by decide, by decide,
    Or.inr (Or.inr (by decide))⟩

/-- MovesToControlRegisters: SP at 15 and 16, LSP at 4 and 5. -/
theorem test_witness_moves_to_control :
    (0x000F : Word16).toNat % 2 ^ base.platform.spWidth ≤ 15 ∧
      15 < (0x0010 : Word16).toNat % 2 ^ base.platform.spWidth ∧
      (4 : Word16).toNat % 2 ^ base.platform.lspWidth ≤ 4 ∧
      4 < (5 : Word16).toNat % 2 ^ base.platform.lspWidth ∧
      CanRetire { base with lsp := BitVec.ofNat 16 ((4 : Word16).toNat % 2 ^ base.platform.lspWidth) } :=
  ⟨by decide, by decide, by decide, by decide, Or.inr (Or.inr (by decide))⟩

/-- LoopCounterMoves: inside a loop but not near its ends, near its end, and at its head. -/
theorem test_witness_loop_counter :
    let s := { base with lsp := 1, lsa := 0x00FF, lea := 0x0103 }
    (CanRetire s ∧ ¬ InLastThree s ∧ ¬ (s.lsp ≠ 0 ∧ s.pc = s.lsa)) ∧
      InLastThree { s with lea := 0x0102 } ∧
      (({ s with lsa := 0x0100 } : State).lsp ≠ 0 ∧ s.pc = ({ s with lsa := 0x0100 } : State).lsa) ∧
      s.lsp.toNat = (0 : Fin 4).val + 1 := by
  unfold CanRetire InLastThree; decide

/-- MovesWithoutAnEntryRefused: SP at 0 and 16, LSP at 0 and 5. -/
theorem test_witness_no_entry :
    base.sp.toNat = 0 ∧ 16 ≤ ({ base with sp := 16 } : State).sp.toNat ∧ base.lsp.toNat = 0 ∧
      5 ≤ ({ base with lsp := 5 } : State).lsp.toNat := by decide

/-- JumpsSetOnlyThePc, CallsPushTheReturnAddress, ReturnPopsTheAddress: SP at 0, 1, 14, 15 and 16. -/
theorem test_witness_branches :
    (∀ p, PlaceFree { base with sp := p }) ∧ base.marks.stackMoved = false ∧
      (0 : Word16).toNat = (0 : Fin 15).val ∧ (14 : Word16).toNat = (14 : Fin 15).val ∧
      15 ≤ (15 : Word16).toNat ∧ (1 : Word16).toNat = (0 : Fin 15).val + 1 ∧
      (15 : Word16).toNat = (14 : Fin 15).val + 1 ∧ 16 ≤ (16 : Word16).toNat :=
  ⟨fun _ => placeFree_base, by decide⟩

/-- RetiOutsideAHandlerOnlyAdvances: outside, and inside with an empty stack. -/
theorem test_witness_reti :
    PlaceFree requested ∧ requested.marks.stackMoved = false ∧
      (∀ q ∈ requested.platform.intSources, requested.pc.toNat + 1 ≠ q.vector.toNat) ∧
      requested.intDepth = 0 ∧ requested.pc ≠ 0xFFFF ∧
      ({ requested with intDepth := 1 } : State).intDepth ≠ 0 ∧ requested.sp.toNat = 0 :=
  ⟨placeFree_base, by decide⟩

/-- BarredWordsFaultNearRepeatAndLoopEnd: a repeat target, and the third word from a loop end. -/
theorem test_witness_barred :
    isBarredNearEnd (.cond .eq0 0 .ret) = true ∧ isBarredNearEnd .stop = true ∧
      base.platform.member ≠ .upd77016 ∧ ({ base with rf := false } : State).rf = false ∧
      atEnd.rf = true ∧ InLastThree atEnd ∧ InLastThree { atEnd with lea := 0x0102 } := by
  unfold InLastThree; decide

/-- ReturnNeighboursFault: after a MOV of STK, before a RET with another condition than EVER, before a
vector entry. -/
theorem test_witness_return_neighbours :
    PlaceFree { base with marks := { stackMoved := true } } ∧
      fetchAt { base with imem := (placed 0).imem.write32 0x0101 0x24000000 } 0x0101 = .ok .ret ∧
      PlaceFree { requested with pc := 0x01FF } ∧
      (∃ q ∈ requested.platform.intSources, (0x01FF : Word16).toNat + 1 = q.vector.toNat) :=
  ⟨placeFree_base, by decide, ⟨rfl, fun h => absurd rfl h.1⟩, ⟨source, List.mem_singleton.2 rfl, by decide⟩⟩

/-- RepStartsARepeat: counts 1 and 0x7FFF, 0 and 0x8000. -/
theorem test_witness_rep :
    PlaceFree base ∧ base.pc ≠ 0xFFFF ∧ countValue base (.imm 1) = 1 ∧
      countValue base (.imm 0x7FFF) = 0x7FFF ∧ countValue base (.imm 0) = 0 ∧
      countValue (regs 0 0x8000 0 0) (.reg 1) = 0x8000 := ⟨placeFree_base, by decide⟩

/-- A NOP as repeat target with two executions left. -/
def repeated : Nat → State
  | 0 => { base with rf := false, rc := 2 }
  | 1 => { base with rf := false, rc := 1, cycles := 1 }
  | _ => { base with rf := true, rc := 1, pc := 0x0101, cycles := 2 }

/-- RepeatRunsItsTargetCountTimes. -/
theorem test_witness_repeat :
    (repeated 0).rf = false ∧ (repeated 0).rc.toNat = 1 + 1 ∧
      (∀ k, k ≤ 1 → exec .nop (repeated k) = .next (repeated (k + 1))) ∧
      (∀ k, k ≤ 1 + 1 → (repeated k).lsp = 0) := by
  refine ⟨rfl, by decide, ?_, ?_⟩
  · intro k hk
    interval_cases k <;> rfl
  · intro k hk
    interval_cases k <;> rfl

/-- LoopPushesAndStarts: LSP at 0, 3 and 4, and an end shared with the enclosing loop. -/
theorem test_witness_loop :
    let s := { base with lsp := 3, lea := 0x0110 }
    PlaceFree base ∧ PlaceFree s ∧ PlaceFree { s with lsp := 4 } ∧
      base.lsp.toNat = (0 : Fin 4).val ∧ s.lsp.toNat = (3 : Fin 4).val ∧
      4 ≤ ({ s with lsp := 4 } : State).lsp.toNat ∧ s.pc ≠ 0xFFFF ∧
      BitVec.ofNat 16 (s.pc.toNat + (2 : Byte).toNat) ≠ s.lea ∧
      BitVec.ofNat 16 (s.pc.toNat + (0x10 : Byte).toNat) = s.lea ∧ s.lsp ≠ 0 ∧
      countValue s (.imm 1) = 1 ∧ countValue s (.imm 0) = 0 := by
  unfold PlaceFree InLastThree; decide

/-- LpopRestoresTheOuterLoop: LSP at 1, 4, 0 and 5. -/
theorem test_witness_lpop :
    PlaceFree { base with lsp := 1, lea := 0x0110 } ∧ PlaceFree { base with lsp := 4, lea := 0x0110 } ∧
      PlaceFree base ∧ PlaceFree { base with lsp := 5, lea := 0x0110 } ∧
      (1 : Word16).toNat = (0 : Fin 4).val + 1 ∧ (4 : Word16).toNat = (3 : Fin 4).val + 1 ∧
      base.pc ≠ 0xFFFF ∧ 5 ≤ (5 : Word16).toNat := by
  unfold PlaceFree InLastThree; decide

/-- FailedConditionOnlyEndsTheWord: a conditional CALL, and a conditional RETI. -/
theorem test_witness_failed_condition :
    Cond.ne0.holds (requested.reg 0) = false ∧ CanRetire requested ∧ PlaceFree requested ∧
      requested.marks.stackMoved = false ∧
      (∀ q ∈ requested.platform.intSources, requested.pc.toNat + 1 ≠ q.vector.toNat) ∧
      fetchAt requested (requested.pc + 1) = .error (.fault (.uninitialisedRead none 0x0101)) :=
  ⟨by decide, canRetire_base, placeFree_base, by decide, by decide, by decide⟩

/-- HoldingConditionRunsTheFunction, TakenConditionalBranches: SP at 0, 15 and 16, inside a handler and
outside. -/
theorem test_witness_holding_condition :
    let s := { requested with intDepth := 1 }
    Cond.eq0 ≠ .ever ∧ Cond.eq0.holds (s.reg 0) = true ∧ requested.intDepth = 0 ∧ s.pc ≠ 0xFFFF ∧ (∀ p, PlaceFree { s with sp := p }) ∧
      s.marks.stackMoved = false ∧ s.intDepth ≠ 0 ∧ s.platform.eirWidth ≤ 16 ∧
      fetchAt s (s.pc + 1) = .error (.fault (.uninitialisedRead none 0x0101)) ∧
      (0 : Word16).toNat = (0 : Fin 15).val ∧ (15 : Word16).toNat = (14 : Fin 15).val + 1 ∧
      15 ≤ (15 : Word16).toNat ∧ 16 ≤ (16 : Word16).toNat ∧
      ∀ q ∈ s.platform.intSources, s.pc.toNat + 1 ≠ q.vector.toNat :=
  ⟨by decide, by decide, rfl, by decide, fun _ => placeFree_base, rfl, by decide, by decide, by decide,
    by decide, by decide, by decide, by decide, by decide⟩

end Sys2Proof.Tests
end

section
/-! The invariant over the state's operations (10_state.md R36, R38, R40): one rule per operation of
Machine/State.lean to Machine/Ops.lean, in the order of their definitions. An operation that writes a
checked field has a hypothesis that bounds the new value. -/

namespace Sys2Proof.Machine

variable {s : State}

/-! ## Values that fit their registers -/

/-- A narrow register receives a value of its width (R302). -/
theorem narrowed_lt (w : Nat) (v : Word16) : (narrowed w v).toNat < 2 ^ w := by
  have hmask : (lowMask w).toNat ≤ 2 ^ w - 1 := by
    rw [lowMask, BitVec.toNat_ofNat]
    exact Nat.mod_le _ _
  have hand : (narrowed w v).toNat ≤ (lowMask w).toNat := by
    rw [narrowed, BitVec.toNat_and]
    exact Nat.and_le_right
  have hpos := Nat.two_pow_pos w
  omega

/-- ESR stays within its width when an operation sets OV (R30, R40). -/
theorem State.Inv.esrAfter_lt (hs : s.Inv) (b : Bool) :
    (s.esrAfter b).toNat < 2 ^ s.platform.esrWidth := by
  cases b with
  | false => exact hs.esr_width
  | true =>
    obtain ⟨-, -, -, -, -, -, hbit, -⟩ := hs.platform
    have hflag : (bitAt s.platform.esrOvBit).toNat < 2 ^ s.platform.esrWidth :=
      calc (bitAt s.platform.esrOvBit).toNat
          ≤ 2 ^ s.platform.esrOvBit.val := by
            rw [bitAt, BitVec.toNat_ofNat]
            exact Nat.mod_le _ _
        _ < 2 ^ s.platform.esrWidth := Nat.pow_lt_pow_right (by decide) hbit
    rw [State.esrAfter, if_pos rfl, BitVec.toNat_or]
    exact Nat.or_lt_two_pow hs.esr_width hflag

/-! ## Registers and memory -/

theorem State.Inv.dataOk (hs : s.Inv) : s.DataOk
  | .x => ⟨hs.xmem_wf, hs.xmem_below⟩
  | .y => ⟨hs.ymem_wf, hs.ymem_below⟩

theorem State.Inv.setReg (hs : s.Inv) (k : GReg) (v : Word40) : (s.setReg k v).Inv := { hs with }

theorem State.Inv.setPtr (hs : s.Inv) (n : DReg) (v : Word16) : (s.setPtr n v).Inv := { hs with }

theorem State.Inv.withDraws (hs : s.Inv) (d : Nat) : ({ s with draws := d } : State).Inv := { hs with }

theorem State.Inv.setAddrReg (hs : s.Inv) (a : AddrReg) (v : Word16) : (s.setAddrReg a v).Inv := by
  cases a <;> exact { hs with }

theorem State.Inv.writeAlu (hs : s.Inv) (rd : GReg) (o : AluOut) : (s.writeAlu rd o).Inv :=
  { hs with esr_width := hs.esrAfter_lt o.overflow }

theorem State.Inv.setData (hs : s.Inv) (p : Space) {m : Memory} (hwf : Memory.wf m = true)
    (hbelow : Memory.below (2 * 65536) m = true) : (s.setData p m).Inv := by
  cases p with
  | x => exact { hs with xmem_wf := hwf, xmem_below := hbelow }
  | y => exact { hs with ymem_wf := hwf, ymem_below := hbelow }

/-! ## The stacks -/

theorem State.Inv.withSp (hs : s.Inv) {v : Word16} (h : v.toNat ≤ 15) :
    ({ s with sp := v } : State).Inv := { hs with sp_legal := h }

theorem State.Inv.withLsp (hs : s.Inv) {v : Word16} (h : v.toNat ≤ 4) :
    ({ s with lsp := v } : State).Inv := { hs with lsp_legal := h }

theorem State.Inv.setStackTop (hs : s.Inv) (v : Word16) : (s.setStackTop v).Inv := by
  unfold State.setStackTop
  split
  · exact { hs with }
  · exact hs

theorem State.Inv.pushReturn (hs : s.Inv) (a : Word16) (h : s.sp.toNat ≤ 14) : (s.pushReturn a).Inv :=
  (hs.withSp (v := s.sp + 1) (by bv_omega)).setStackTop a

theorem State.Inv.setLoopTop (hs : s.Inv) (e : LoopEntry) : (s.setLoopTop e).Inv := by
  unfold State.setLoopTop
  split
  · exact { hs with }
  · exact hs

theorem State.Inv.pushLoop (hs : s.Inv) (h : s.lsp.toNat < 4) : s.pushLoop.Inv :=
  (hs.withLsp (v := s.lsp + 1) (by bv_omega)).setLoopTop _

theorem State.Inv.popLoop (hs : s.Inv) (h : 1 ≤ s.lsp.toNat) : s.popLoop.Inv :=
  { hs with lsp_legal := by have := hs.lsp_legal; rw [State.popLoop_lsp]; bv_omega }

/-! ## The end of a word -/

theorem State.Inv.endWord (hs : s.Inv) (m : Marks) (c : Nat) : (s.endWord m c).Inv := { hs with }

theorem State.Inv.goTo (hs : s.Inv) (a : Word16) (m : Marks) (c : Nat) : (s.goTo a m c).Inv := { hs with }

/-- The next PC of R158: a repeat that goes on has an execution left, and a loop that ends had its
entry. -/
theorem State.Inv.retired (hs : s.Inv) (m : Marks) (c : Nat) : (s.retired m c).Inv := by
  unfold State.retired
  split
  case isTrue hrep =>
    obtain ⟨hrf, hleft⟩ := (repeatGoesOn_iff s).1 hrep
    obtain ⟨-, hmax⟩ := hs.repeat_count hrf
    exact { hs.endWord m c with
      repeat_count := fun _ => by show 1 ≤ (s.rc - 1).toNat ∧ (s.rc - 1).toNat ≤ 0x7FFF; bv_omega }
  case isFalse =>
    split
    case isTrue hend =>
      split
      case isTrue =>
        exact { hs.goTo s.lsa { m with acceptHold := true } c with
          repeat_count := nofun, repeat_runs := .inr rfl }
      case isFalse =>
        have hlsp : 1 ≤ s.lsp.toNat := (lsp_ne_zero_iff s).1 ((atLoopEnd_iff s).1 hend).1
        exact { (hs.popLoop hlsp).goTo (s.pc + 1) { m with acceptHold := true } c with
          repeat_count := nofun, repeat_runs := .inr rfl }
    case isFalse => exact { hs.goTo (s.pc + 1) m c with repeat_count := nofun, repeat_runs := .inr rfl }

/-! ## Transfers -/

theorem State.Inv.accessEffect (hs : s.Inv) (b : State) (p : Space) (a : Word16) (op : PartOp)
    (k : GReg) : (accessEffect b p a op k s).Inv := by
  cases op with
  | load part => exact hs.setReg k _
  | store part =>
    exact hs.setData p (Memory.wf_write16 _ _ _ (hs.dataOk p).1) (Memory.below_write16 _ _ _ (hs.dataOk p).2)

theorem State.Inv.sideEffect (hs : s.Inv) (b : State) (p : Space) (o : Option PartSide) :
    (sideEffect b p o s).Inv := by
  cases o with
  | none => exact hs
  | some d => exact (hs.accessEffect b p _ d.op d.reg).setPtr _ _

theorem State.Inv.transfers (hs : s.Inv) (q : PartPair) : (s.transfers q).Inv :=
  (hs.sideEffect s .x q.x).sideEffect s .y q.y

/-! ## Branches and interrupts -/

theorem State.Inv.callTo (hs : s.Inv) (a : Word16) (c : Nat) (h : s.sp.toNat ≤ 14) :
    (s.callTo a c).Inv := (hs.pushReturn _ h).goTo a {} c

theorem State.Inv.returnTo (hs : s.Inv) (c : Nat) (h : 1 ≤ s.sp.toNat) : (s.returnTo c).Inv :=
  (hs.goTo s.stackTop {} c).withSp (v := s.sp - 1) (by have := hs.sp_legal; bv_omega)

theorem State.Inv.setEnables (hs : s.Inv) (v : BitVec 3 × Word16) : (s.setEnables v).Inv :=
  { hs with eir_width := narrowed_lt _ _ }

theorem State.Inv.interruptReturned (hs : s.Inv) (c : Nat) (h : 1 ≤ s.sp.toNat) :
    (s.interruptReturned c).Inv := { (hs.returnTo c h).setEnables _ with }

theorem State.Inv.entered (hs : s.Inv) (q : IntSource) (h : s.sp.toNat ≤ 14) : (s.entered q).Inv :=
  { (hs.pushReturn s.pc h).setEnables (Config.saveIE s.sr s.eir) with
    repeat_runs := .inl rfl
    pending_set := hs.pending_set.filter _ }

/-! ## MOV -/

theorem State.Inv.movFromEffect (hs : s.Inv) (c : CtlReg) (r : GReg) : (movFromEffect c r s).Inv := by
  cases c <;> exact { hs with }

/-- A MOV that passes its checks writes legal values to SP and LSP, and EIR and ESR take the bits of
their widths (R302, R305). -/
theorem State.Inv.movToEffect (hs : s.Inv) {c : CtlReg} {v : Word16} (h : movToStop c v s = none) :
    (movToEffect c v s).Inv := by
  cases c with
  | stk => exact hs.setStackTop v
  | sp =>
    simp only [movToStop, stopIf_eq_none_iff, decide_eq_false_iff_not, Nat.not_lt] at h
    exact hs.withSp h
  | lc => exact hs
  | lsr1 | lsr2 | lsr3 => exact hs.setLoopTop _
  | lsp =>
    simp only [movToStop, stopIf_eq_none_iff, decide_eq_false_iff_not, Nat.not_lt] at h
    exact hs.withLsp h
  | sr => exact { hs with }
  | eir => exact { hs with eir_width := narrowed_lt _ _ }
  | esr => exact { hs with esr_width := narrowed_lt _ _ }

end Sys2Proof.Machine
end

section
/-! What one execution of a word can do, said once over all instructions: `exec_next` is the inversion
lemma from which the facts about every word follow (R151, R158). -/

namespace Sys2Proof.Machine

/-- The effect of a word before it ends as R158 says, and which words have it. An operation sets OV only
where `canSetOv` allows it. -/
inductive Effect (i : Instr) (s : State) : State → Prop
  /-- NOP, and a word whose condition fails. -/
  | keep : Effect i s s
  /-- An operation without transfers. -/
  | alu (rd : GReg) (o : AluOut) (hov : canSetOv i = false → o.overflow = false) :
      Effect i s (s.writeAlu rd o)
  /-- An operation, then the transfers of the word. -/
  | aluTransfers (rd : GReg) (o : AluOut) (q : PartPair) (hov : canSetOv i = false → o.overflow = false)
      (hq : transfersOf i = some q) : Effect i s ((s.writeAlu rd o).transfers q)
  /-- LSPA and LSSE. -/
  | transfers (q : PartPair) (hq : transfersOf i = some q) : Effect i s (s.transfers q)
  | lsda (op : PartOp) (k : GReg) (p : Space) (a : Word16) (hi : i = .lsda op k p a) :
      Effect i s (accessEffect s p a op k s)
  | lsim (op : PartOp) (k : GReg) (n : DReg) (imm : Word16) (hi : i = .lsim op k n imm) :
      Effect i s ((accessEffect s (ptrSpace n) (s.ptr n) op k s).setPtr n (s.ptr n + imm))
  /-- MOV and LDI to an address-unit register. -/
  | setAddr (a : AddrReg) (v : Word16) (hi : setsAddrReg i a = true) : Effect i s (s.setAddrReg a v)
  /-- MOV to another register, with its checks passed. -/
  | setCtl (c : CtlReg) (r : GReg) (hi : i = .mov .toSpecial (.ctl c) r)
      (hstop : movToStop c (partL (s.reg r)) s = none) : Effect i s (movToEffect c (partL (s.reg r)) s)
  /-- LDI to `rl`, and MOV from an address-unit register. -/
  | setLow (r : GReg) (v : Word16) : Effect i s (s.setLow r v)
  /-- MOV from another register. -/
  | readCtl (c : CtlReg) (r : GReg) (hi : i = .mov .fromSpecial (.ctl c) r) :
      Effect i s (movFromEffect c r s)
  /-- FINT. -/
  | dropRequests (hi : i = .fint) : Effect i s { s with pending := [] }

/-- The end of a word that R343 and R349 bar near a loop end, when it was not skipped by its condition. -/
inductive BarredEnd (s : State) : State → Prop
  /-- A jump, and RETI outside interrupt processing. -/
  | jump (a : Word16) (cyc : Nat) : BarredEnd s (s.goTo a {} cyc)
  | call (a : Word16) (cyc : Nat) (hsp : s.sp.toNat ≤ 14) : BarredEnd s (s.callTo a cyc)
  | ret (cyc : Nat) (hsp : 1 ≤ s.sp.toNat) : BarredEnd s (s.returnTo cyc)
  | reti (cyc : Nat) (hsp : 1 ≤ s.sp.toNat) : BarredEnd s (s.interruptReturned cyc)
  /-- HALT and STOP. -/
  | power (m : RunMode) : BarredEnd s ({ s with mode := m }.goTo (s.pc + 1) {} 1)
  | rep (n : Word16) (hn : 1 ≤ n.toNat ∧ n.toNat ≤ 0x7FFF) :
      BarredEnd s ({ s with rc := n, rf := false }.goTo (s.pc + 1) {} 2)
  | loop (first last n : Word16) (hlsp : s.lsp.toNat < 4) :
      BarredEnd s
        ({ s.pushLoop with lsa := first, lea := last, lc := n }.goTo (s.pc + 1) { acceptHold := true } 2)
  | lpop (hlsp : 1 ≤ s.lsp.toNat) : BarredEnd s (s.popLoop.goTo (s.pc + 1) {} 1)

/-- What a completed execution of the word `i` can be: an effect and the next PC of R158, or a barred word
in a place free for it. -/
inductive ExecNext (i : Instr) (s : State) : State → Prop
  | retires (u : State) (m : Marks) (heff : Effect i s u) : ExecNext i s (u.retired m 1)
  | barred (t : State) (hplace : PlaceFree s) (hend : BarredEnd s t) : ExecNext i s t

/-! ## The ends of words -/

variable {i : Instr} {s t u : State}

theorem ExecNext.of_complete {m : Marks} (h : complete m 1 u = .next t) (heff : Effect i s u) :
    ExecNext i s t := by
  obtain ⟨-, rfl⟩ := (complete_eq_next_iff ..).1 h
  exact .retires u m heff

theorem ExecNext.of_aluWord {rd : GReg} {o : AluOut} {p : Par} (h : aluWord rd o p s = .next t)
    (hov : canSetOv i = false → o.overflow = false) (hq : transfersOf i = some p.toPair) :
    ExecNext i s t :=
  .of_complete ((guardStop_eq_next_iff ..).1 h).2 (.aluTransfers rd o _ hov hq)

theorem ExecNext.of_immWord {rd : GReg} {o : AluOut} (h : immWord rd o s = .next t)
    (hov : canSetOv i = false → o.overflow = false) : ExecNext i s t :=
  .of_complete h (.alu rd o hov)

theorem ExecNext.of_transferWord {q : PartPair} (h : transferWord q s = .next t)
    (hq : transfersOf i = some q) : ExecNext i s t :=
  .of_complete ((guardStop_eq_next_iff ..).1 h).2 (.transfers q hq)

theorem ExecNext.of_movAddr {d : MovDir} {a : AddrReg} {r : GReg} (h : movAddr d a r s = .next t)
    (hi : d = .toSpecial → setsAddrReg i a = true) : ExecNext i s t := by
  cases d with
  | toSpecial => exact .of_complete h (.setAddr a _ (hi rfl))
  | fromSpecial => exact .of_complete h (.setLow r _)

theorem ExecNext.of_movCtl {d : MovDir} {c : CtlReg} {r : GReg} (h : movCtl d c r s = .next t) :
    ExecNext (.mov d (.ctl c) r) s t := by
  cases d with
  | toSpecial =>
    obtain ⟨hstop, hend⟩ := (guardStop_eq_next_iff ..).1 h
    exact .of_complete hend (.setCtl c r rfl hstop)
  | fromSpecial => exact .of_complete ((guardStop_eq_next_iff ..).1 h).2 (.readCtl c r rfl)

theorem execLdi_next {d : LdiDest} {imm : Word16} (h : execLdi d imm s = .next t) :
    ExecNext (.ldi d imm) s t := by
  cases d with
  | rl n => exact .of_complete h (.setLow n imm)
  | addr a => exact .of_complete h (.setAddr a imm (beq_self_eq_true a))

/-! ## Branches -/

theorem popStop_eq_none (h : popStop s = none) : 1 ≤ s.sp.toNat := by
  rw [popStop, stopIf_eq_none_iff, Bool.eq_false_iff, ne_eq, State.stackPlace_isNone_iff, not_not] at h
  exact h.1

theorem callAction_end {a : Word16} {cyc : Nat} (h : callAction a cyc s = .next t) : BarredEnd s t := by
  simp only [callAction, guardStop_eq_next_iff, pushStop, stopIf_eq_none_iff, decide_eq_false_iff_not,
    Host.Outcome.next.injEq] at h
  obtain ⟨hsp, rfl⟩ := h
  exact .call a cyc (by omega)

theorem retAction_end {cyc : Nat} (h : retAction cyc s = .next t) : BarredEnd s t := by
  simp only [retAction, guardStop_eq_next_iff, Host.Outcome.next.injEq] at h
  obtain ⟨hpop, rfl⟩ := h
  exact .ret cyc (popStop_eq_none hpop)

theorem retiAction_end {cyc : Nat} (h : retiAction cyc s = .next t) : BarredEnd s t := by
  unfold retiAction at h
  split at h
  · obtain ⟨-, rfl⟩ := (advance_eq_next_iff ..).1 h
    exact .jump _ cyc
  · simp only [guardStop_eq_next_iff, Host.Outcome.next.injEq] at h
    obtain ⟨hpop, rfl⟩ := h
    exact .reti cyc (popStop_eq_none hpop)

/-- A branch under a condition that holds. -/
theorem bodyRun_end {c : Cond} {top : GReg} {b : CondBody} (hb : isBranch (.cond c top b) = true)
    (h : bodyRun b s = .next t) : BarredEnd s t := by
  cases b with
  | mono | mov => exact absurd hb Bool.false_ne_true
  | jmp | jreg =>
    obtain rfl := Host.Outcome.next.inj h
    exact .jump _ 3
  | call | creg => exact callAction_end h
  | ret => exact retAction_end h
  | reti => exact retiAction_end h

/-! ## Hardware loops and power states -/

theorem execRep_end {c : Count} (h : execRep c s = .next t) : BarredEnd s t := by
  simp only [execRep, guardStop_eq_next_iff, Option.or_eq_none_iff, advance_eq_next_iff] at h
  obtain ⟨⟨-, hcount⟩, -, rfl⟩ := h
  exact .rep _ ((countStop_eq_none_iff _).1 hcount)

theorem execLoop_end {c : Count} {rle : Byte} (h : execLoop c rle s = .next t) : BarredEnd s t := by
  simp only [execLoop, loopStop, guardStop_eq_next_iff, Option.or_eq_none_iff, stopIf_eq_none_iff,
    decide_eq_false_iff_not, Nat.not_le, advance_eq_next_iff, State.pushLoop_pc] at h
  obtain ⟨⟨-, hlsp, -⟩, -, rfl⟩ := h
  exact .loop _ _ _ hlsp

theorem execLpop_end (h : execLpop s = .next t) : BarredEnd s t := by
  simp only [execLpop, guardStop_eq_next_iff, Option.or_eq_none_iff, advance_eq_next_iff,
    State.popLoop_pc, stopIf_eq_none_iff, Bool.eq_false_iff, ne_eq, State.loopPlace_isNone_iff,
    not_not] at h
  obtain ⟨⟨-, hlsp, -⟩, -, rfl⟩ := h
  exact .lpop hlsp

theorem powerDown_end {m : RunMode} {o : Option Stop}
    (h : guardStop o (advance {} 1 { s with mode := m }) = .next t) : BarredEnd s t := by
  simp only [guardStop_eq_next_iff, advance_eq_next_iff] at h
  obtain ⟨-, -, rfl⟩ := h
  exact .power m

/-! ## Every instruction -/

theorem expOut_overflow (v : Word40) (n : Nat) : (expOut v n).overflow = false := by
  unfold expOut
  (repeat' split) <;> rfl

/-- A monomial under a condition sets OV only where `canSetOv` allows it (R30). -/
theorem monoOut_overflow {c : Cond} {top a b : GReg} {m : Mono} (v acc : Word40) (n : Nat)
    (h : canSetOv (.cond c top (.mono m a b)) = false) : (monoOut m v acc n).overflow = false := by
  cases m with
  | clr | not | clip | rnd | put => rfl
  | exp => exact expOut_overflow v n
  | inc | dec | abs | neg | aca | acs | div => exact absurd h.symm Bool.false_ne_true

theorem execCond_next {c : Cond} {top : GReg} {b : CondBody} (h : exec (.cond c top b) s = .next t) :
    ExecNext (.cond c top b) s t := by
  obtain ⟨hstop, hrun⟩ := (guardStop_eq_next_iff ..).1 h
  split at hrun
  case isFalse => exact .of_complete hrun .keep
  case isTrue =>
    by_cases hb : isBranch (.cond c top b) = true
    · exact .barred t ((placeStop_eq_none_iff s).1 (cond_placeFree hb h)) (bodyRun_end hb hrun)
    · cases b with
      | mono m x y =>
        exact .of_complete ((guardStop_eq_next_iff ..).1 hrun).2 (.alu y _ (monoOut_overflow _ _ _))
      | mov d a r =>
        exact .of_movAddr hrun (by rintro rfl; exact beq_self_eq_true a)
      | _ => exact absurd rfl hb

/-- A word that completes had an effect and ended as R158 says, or was a barred word. -/
theorem exec_next (h : exec i s = .next t) : ExecNext i s t := by
  have guarded {o : Option Stop} {k : Res} (h : guardStop o k = .next t) : k = .next t :=
    ((guardStop_eq_next_iff ..).1 h).2
  have barred (hb : isBarredNearEnd i = true) (hend : BarredEnd s t) : ExecNext i s t :=
    .barred t (barred_placeFree hb h) hend
  cases i with
  | madd | msub | suma | uuma | add | sub | inc | dec | abs | neg | aca | acs =>
    exact .of_aluWord h nofun rfl
  | mas1 | mas16 | mpy | sra | srl | sll | and | or | xor | lt | clr | not | clip | rnd | put =>
    exact .of_aluWord h (fun _ => rfl) rfl
  | exp => exact .of_aluWord h (fun _ => expOut_overflow _ _) rfl
  | div => exact .of_aluWord (guarded h) nofun rfl
  | iadd | isub => exact .of_immWord h nofun
  | iand | ior | ixor => exact .of_immWord h (fun _ => rfl)
  | isra | isrl | isll => exact .of_immWord (guarded h) (fun _ => rfl)
  | lspa | lsse => exact .of_transferWord h rfl
  | lsda op k p a => exact .of_complete (guarded h) (.lsda op k p a rfl)
  | lsim op k n imm => exact .of_complete (guarded h) (.lsim op k n imm rfl)
  | mov d m r =>
    cases m with
    | addr a => exact .of_movAddr h (by rintro rfl; exact beq_self_eq_true a)
    | ctl c => exact .of_movCtl h
  | ldi => exact execLdi_next h
  | nop => exact .of_complete h .keep
  | fint => exact .of_complete h (.dropRequests rfl)
  | jmp | jreg =>
    obtain rfl := Host.Outcome.next.inj (guarded h)
    exact barred rfl (.jump _ _)
  | call | creg => exact barred rfl (callAction_end (guarded h))
  | ret => exact barred rfl (retAction_end (guarded h))
  | reti => exact barred rfl (retiAction_end (guarded h))
  | rep => exact barred rfl (execRep_end h)
  | loop => exact barred rfl (execLoop_end h)
  | lpop => exact barred rfl (execLpop_end h)
  | halt | stop => exact barred rfl (powerDown_end h)
  | cond => exact execCond_next h

end Sys2Proof.Machine
end

section
/-! The invariant is kept by every step (R36, R38, R40, R45, R341, R343). -/

namespace Sys2Proof.Machine

variable {i : Instr} {s t u : State}

theorem Effect.inv (h : Effect i s u) (hs : s.Inv) : u.Inv := by
  cases h with
  | keep => exact hs
  | alu rd o => exact hs.writeAlu rd o
  | aluTransfers rd o q => exact (hs.writeAlu rd o).transfers q
  | transfers q => exact hs.transfers q
  | lsda op k p a => exact hs.accessEffect s p a op k
  | lsim op k n imm => exact (hs.accessEffect s _ _ op k).setPtr n _
  | setAddr a v => exact hs.setAddrReg a v
  | setCtl c r hi hstop => exact hs.movToEffect hstop
  | setLow r v => exact hs.setReg r _
  | readCtl c r => exact hs.movFromEffect c r
  | dropRequests => exact { hs with pending_set := .nil }

/-- A running machine stays in the invariant through a barred word: only REP starts a repeat, and HALT and
STOP stand in none. -/
theorem BarredEnd.inv (h : BarredEnd s t) (hs : s.Inv) (hrun : s.mode = .running) (hrf : s.rf = true) :
    t.Inv := by
  cases h with
  | jump a cyc => exact hs.goTo a {} cyc
  | call a cyc hsp => exact hs.callTo a cyc hsp
  | ret cyc hsp => exact hs.returnTo cyc hsp
  | reti cyc hsp => exact hs.interruptReturned cyc hsp
  | power m => exact { hs with repeat_runs := .inr hrf }
  | rep n hn => exact { hs with repeat_count := fun _ => hn, repeat_runs := .inl hrun }
  | loop first last n hlsp => exact { hs.pushLoop hlsp with }
  | lpop hlsp => exact (hs.popLoop hlsp).goTo _ _ _

theorem ExecNext.inv (h : ExecNext i s t) (hs : s.Inv) (hrun : s.mode = .running) : t.Inv := by
  cases h with
  | retires u m heff => exact (heff.inv hs).retired m 1
  | barred _ hplace hend => exact hend.inv hs hrun hplace.1

/-! ## Steps -/

theorem runWord_next (h : runWord s = .next t) : ∃ i, exec i s = .next t := by
  unfold runWord at h
  split at h
  · cases h
  · cases h
  · exact ⟨_, h⟩

/-- A step executes a word while running, takes an interrupt, or waits in halt mode; the free bit of
acceptance is the one draw it adds (log 20). -/
theorem step_next_cases (h : step s = .next t) :
    (∃ i d, s.mode = .running ∧ exec i { s with draws := d } = .next t) ∨
      (∃ q d, acceptInterrupt q { s with draws := d } = .next t) ∨ t = s := by
  unfold step at h
  split at h
  case h_1 hmode =>
    unfold stepRunning at h
    split at h
    · split at h
      · obtain ⟨i, hi⟩ := runWord_next h
        exact .inl ⟨i, s.draws, hmode, hi⟩
      · split at h
        · exact .inr (.inl ⟨_, _, h⟩)
        · obtain ⟨i, hi⟩ := runWord_next h
          exact .inl ⟨i, _, hmode, hi⟩
    · obtain ⟨i, hi⟩ := runWord_next h
      exact .inl ⟨i, s.draws, hmode, hi⟩
  case h_2 =>
    unfold stepHalted at h
    split at h
    · exact .inr (.inr (Host.Outcome.next.inj h).symm)
    · exact .inr (.inl ⟨_, s.draws, h⟩)
  case h_3 => cases h

/-- Settles O7: an execution keeps the invariant by `exec_next`, interrupt entry by `State.Inv.entered`. -/
theorem everyStepKeepsTheInvariant : Obligations.EveryStepKeepsTheInvariant := by
  intro s t hs hstep
  rcases step_next_cases hstep with ⟨i, d, hrun, hexec⟩ | ⟨q, d, haccept⟩ | rfl
  · exact (exec_next hexec).inv (hs.withDraws d) hrun
  · obtain ⟨hroom, rfl⟩ := (acceptInterrupt_eq_next_iff ..).1 haccept
    exact (hs.withDraws d).entered q hroom
  · exact hs

end Sys2Proof.Machine
end

section
/-! OV is sticky (R30). -/

namespace Sys2Proof.Machine

variable {i : Instr} {s t u : State}

/-- ESR after a word that is not `ESR = rl`: as it was, or with OV set by an instruction that can. -/
def EsrKeptButOv (i : Instr) (s t : State) : Prop :=
  t.platform = s.platform ∧ ∃ b, (canSetOv i = false → b = false) ∧ t.esr = s.esrAfter b

theorem EsrKeptButOv.of_esr_eq (hp : t.platform = s.platform) (he : t.esr = s.esr) :
    EsrKeptButOv i s t := ⟨hp, false, fun _ => rfl, he⟩

theorem movToEffect_esr {c : CtlReg} (v : Word16) (hc : c ≠ .esr) : (movToEffect c v s).esr = s.esr := by
  cases c with
  | esr => exact absurd rfl hc
  | stk | lsr1 | lsr2 | lsr3 => simp [movToEffect]
  | sp | lc | lsp | sr | eir => rfl

theorem movToEffect_platform (c : CtlReg) (v : Word16) : (movToEffect c v s).platform = s.platform := by
  cases c <;> simp [movToEffect]

theorem Effect.esr (h : Effect i s u) (hi : setsEsr i = false) : EsrKeptButOv i s u := by
  cases h with
  | alu rd o hov => exact ⟨rfl, o.overflow, hov, rfl⟩
  | aluTransfers rd o q hov => exact ⟨by simp, o.overflow, hov, by simp⟩
  | setCtl c r hmov =>
    refine .of_esr_eq (movToEffect_platform c _) (movToEffect_esr _ ?_)
    rintro rfl
    subst hmov
    exact Bool.false_ne_true hi.symm
  | readCtl c r => cases c <;> exact .of_esr_eq rfl rfl
  | transfers | lsda | lsim | setAddr => exact .of_esr_eq (by simp) (by simp)
  | keep | setLow | dropRequests => exact .of_esr_eq rfl rfl

theorem BarredEnd.esr (h : BarredEnd s t) : EsrKeptButOv i s t := by
  cases h <;> exact .of_esr_eq (by simp) (by simp)

theorem ExecNext.esr (h : ExecNext i s t) (hi : setsEsr i = false) : EsrKeptButOv i s t := by
  cases h with
  | retires u m heff => simpa [EsrKeptButOv] using heff.esr hi
  | barred _ _ hend => exact hend.esr

/-- Settles O10: `EsrAfter` says that OV of `esrAfter` is the old OV or the overflow. -/
theorem overflowFlagIsSticky : Obligations.OverflowFlagIsSticky := by
  intro i s t hexec hi
  obtain ⟨hp, b, hov, hesr⟩ := (exec_next hexec).esr hi
  refine ⟨fun hset => ?_, fun hcan => ?_⟩
  · rw [(esrAfter_done s t b hesr hp).1, hset, Bool.true_or]
  · rw [hesr, hov hcan]
    rfl

end Sys2Proof.Machine
end

section
/-! The registers of the address unit have their writers (R33-R35). -/

namespace Sys2Proof.Machine

variable {i : Instr} {s t u : State} {b : AddrReg}

/-! ## One register of the address unit -/

/-- A read of an address-unit register after a write to another one. -/
theorem State.addrReg_setAddrReg_other {a : AddrReg} (v : Word16) (h : b ≠ a) :
    (s.setAddrReg a v).addrReg b = s.addrReg b := by
  cases a with
  | dp n =>
    cases b with
    | dp k => exact State.ptr_setPtr_other s n k v (fun e => h (congrArg _ e))
    | dn | dmx | dmy => rfl
  | dn n =>
    cases b with
    | dn k => exact State.idx_setIdx_other s n k v (fun e => h (congrArg _ e))
    | dp | dmx | dmy => rfl
  | dmx =>
    cases b with
    | dmx => exact absurd rfl h
    | dp | dn | dmy => rfl
  | dmy =>
    cases b with
    | dmy => exact absurd rfl h
    | dp | dn | dmx => rfl

theorem addrReg_congr (hdp : t.dp = s.dp) (hdn : t.dn = s.dn) (hdmx : t.dmx = s.dmx)
    (hdmy : t.dmy = s.dmy) (b : AddrReg) : t.addrReg b = s.addrReg b := by
  cases b with
  | dp n => simp only [State.addrReg, State.ptr, hdp]
  | dn n => simp only [State.addrReg, State.idx, hdn]
  | dmx => exact hdmx
  | dmy => exact hdmy

/-- Transfers write data pointers only (R262). -/
theorem transfers_addrReg (q : PartPair) (h : ∀ n, b ≠ .dp n) :
    (s.transfers q).addrReg b = s.addrReg b := by
  cases b with
  | dp n => exact absurd rfl (h n)
  | dn n => simp only [State.addrReg, State.idx, State.transfers_dn]
  | dmx => exact State.transfers_dmx s q
  | dmy => exact State.transfers_dmy s q

theorem accessEffect_addrReg (p : Space) (a : Word16) (op : PartOp) (k : GReg) (b : AddrReg) :
    (accessEffect s p a op k s).addrReg b = s.addrReg b :=
  addrReg_congr (by simp) (by simp) (by simp) (by simp) b

theorem movToEffect_addrReg (c : CtlReg) (v : Word16) (b : AddrReg) :
    (movToEffect c v s).addrReg b = s.addrReg b := by
  cases c with
  | stk | lsr1 | lsr2 | lsr3 =>
    exact addrReg_congr (by simp [movToEffect]) (by simp [movToEffect]) (by simp [movToEffect])
      (by simp [movToEffect]) b
  | sp | lc | lsp | sr | eir | esr => exact addrReg_congr rfl rfl rfl rfl b

/-! ## Words that spare it -/

/-- The word `i` is no writer of register `b` of the address unit: it is no MOV or LDI to `b`, and where
`b` is a data pointer it has no transfers and is no LSIM through `b`. -/
structure SparesAddrReg (i : Instr) (b : AddrReg) : Prop where
  sets : setsAddrReg i b = false
  transfers : ∀ n, b = .dp n → transfersOf i = none
  lsim : ∀ n, b = .dp n → ∀ o k m, i ≠ .lsim o k n m

/-- Only a data pointer is at stake in a word with transfers. -/
theorem SparesAddrReg.ne_dp {q : PartPair} (h : SparesAddrReg i b) (hq : transfersOf i = some q)
    (n : DReg) : b ≠ .dp n :=
  fun e => Option.some_ne_none q (hq.symm.trans (h.transfers n e))

theorem Effect.addrReg (h : Effect i s u) (hb : SparesAddrReg i b) : u.addrReg b = s.addrReg b := by
  cases h with
  | aluTransfers rd o q hov hq => exact transfers_addrReg q (hb.ne_dp hq)
  | transfers q hq => exact transfers_addrReg q (hb.ne_dp hq)
  | lsda op k p a => exact accessEffect_addrReg p a op k b
  | lsim op k n imm hi =>
    calc ((accessEffect s (ptrSpace n) (s.ptr n) op k s).setPtr n (s.ptr n + imm)).addrReg b
        = (accessEffect s (ptrSpace n) (s.ptr n) op k s).addrReg b :=
          State.addrReg_setAddrReg_other (a := .dp n) _ (fun e => hb.lsim n e op k imm hi)
      _ = s.addrReg b := accessEffect_addrReg _ _ op k b
  | setAddr a v hi =>
    refine State.addrReg_setAddrReg_other v ?_
    rintro rfl
    exact Bool.false_ne_true (hb.sets.symm.trans hi)
  | setCtl c r => exact movToEffect_addrReg c _ b
  | readCtl c r => cases c <;> exact addrReg_congr rfl rfl rfl rfl b
  | keep | alu | setLow | dropRequests => exact addrReg_congr rfl rfl rfl rfl b

theorem BarredEnd.addrReg (h : BarredEnd s t) (b : AddrReg) : t.addrReg b = s.addrReg b := by
  cases h <;> exact addrReg_congr (by simp) (by simp) (by simp) (by simp) b

theorem ExecNext.addrReg (h : ExecNext i s t) (hb : SparesAddrReg i b) :
    t.addrReg b = s.addrReg b := by
  cases h with
  | retires u m heff =>
    calc (u.retired m 1).addrReg b
        = u.addrReg b := addrReg_congr (by simp) (by simp) (by simp) (by simp) b
      _ = s.addrReg b := heff.addrReg hb
  | barred _ _ hend => exact hend.addrReg b

/-- Settles O11: DNn, DMX, DMY and DPn are four cases of `ExecNext.addrReg`. -/
theorem addressRegistersHaveTheirWriters : Obligations.AddressRegistersHaveTheirWriters := by
  intro i s t hexec
  have hnext := exec_next hexec
  refine ⟨fun n hset => ?_, fun hset => ?_, fun hset => ?_, fun n hset htr hlsim => ?_⟩
  · exact hnext.addrReg (b := .dn n) ⟨hset, nofun, nofun⟩
  · exact hnext.addrReg (b := .dmx) ⟨hset, nofun, nofun⟩
  · exact hnext.addrReg (b := .dmy) ⟨hset, nofun, nofun⟩
  · refine hnext.addrReg (b := .dp n) ⟨hset, fun _ _ => htr, ?_⟩
    rintro _ ⟨⟩
    exact hlsim

end Sys2Proof.Machine
end

section
/-! Fetching and stepping (R151), and which statements are refused (R155, R156, R278). -/

namespace Sys2Proof.Machine

variable {i : Instr} {s : State}

/-! ## What a fetch gives -/

theorem fetchAt_noCode {a : Word16} (hcode : s.codeAt a = false) :
    fetchAt s a = .error (.refusal (.codeNotImplemented a)) := by
  simp [fetchAt, hcode]

theorem fetchAt_unwritten {a : Word16} (hcode : s.codeAt a = true) (hread : s.imem.read32 a = none) :
    fetchAt s a = .error (.fault (.uninitialisedRead none a)) := by
  simp [fetchAt, hcode, hread]

theorem fetchAt_undefined {a : Word16} {w : Word32} {e : DecodeError} (hcode : s.codeAt a = true)
    (hread : s.imem.read32 a = some w) (hdec : decode s.platform.codes (bytesOfWord w) = .error e) :
    fetchAt s a = .error (.refusal .undefinedWord) := by
  simp [fetchAt, hcode, hread, hdec]

/-- A word that decodes is fetched exactly where its statement is well-formed. -/
theorem fetchAt_decoded {a : Word16} {w : Word32} (hcode : s.codeAt a = true)
    (hread : s.imem.read32 a = some w) (hdec : decode s.platform.codes (bytesOfWord w) = .ok i) :
    fetchAt s a = if i.wellFormed then .ok i else .error (.refusal .illFormed) := by
  simp [fetchAt, hcode, hread, hdec]

/-! ## A step that takes no interrupt -/

theorem step_eq_runWord (hrun : s.mode = .running)
    (hno : s.acceptAllowed = false ∨ s.readySource = none) : step s = runWord s := by
  have hstep : step s = stepRunning s := by simp only [step, hrun]
  rw [hstep, stepRunning]
  rcases hno with hheld | hquiet
  · simp [hheld]
  · simp [hquiet]

/-- The step stops for the reason the fetch gives. -/
theorem runWord_of_fetch_error {x : Stop} (k : Res) (h : fetchAt s s.pc = .error x) :
    runWord s = guardStop (some x) k := by
  cases x <;> simp only [runWord, h, guardStop]

/-! ## The refused statements -/

/-- The pairs of R278 are those of `LoadPart.mayPair`. -/
theorem mayPair_eq_false_iff (m n : LoadPart) :
    m.mayPair n = false ↔
      (m, n) ∉ [(LoadPart.reh, LoadPart.rl), (.rl, .reh), (.re, .rh), (.rh, .re), (.re, .rl), (.rl, .re),
        (.rh, .rl), (.rl, .rh)] := by
  cases m <;> cases n <;> decide

theorem partsAgree_eq_false_iff (q : PartPair) : q.sidesAgree = false ↔ PartsOverlap q := by
  rcases q with ⟨_ | ⟨ox, px, mx, rx⟩, _ | ⟨oy, py, my, ry⟩⟩
  · simp [PartPair.sidesAgree, PartsOverlap]
  · simp [PartPair.sidesAgree, PartsOverlap]
  · simp [PartPair.sidesAgree, PartsOverlap]
  · cases ox with
    | store m =>
      cases oy with
      | store n => simp [PartPair.sidesAgree, PartsOverlap]
      | load n =>
        simp [PartPair.sidesAgree, PartsOverlap, rangesMeet_comm m.bits, rangesMeet_iff]
    | load m =>
      cases oy with
      | store n => simp [PartPair.sidesAgree, PartsOverlap, rangesMeet_iff]
      | load n =>
        simp [PartPair.sidesAgree, PartsOverlap, mayPair_eq_false_iff]

/-- A word of one operation is refused for its registers only. -/
theorem refused_iff_of_operation {d : GReg} {p : Par} (hop : operationOf i = some (d, p))
    (hwf : i.wellFormed = p.fits d) (hform : ¬ FormOfNoStatement i) :
    i.wellFormed = false ↔ OverlapRefused i ∨ FormOfNoStatement i := by
  rw [hwf, fits_eq_false_iff]
  constructor
  · exact fun h => .inl (.inl ⟨d, p, hop, h⟩)
  · rintro ((⟨_, _, hop', h⟩ | ⟨_, rfl, -⟩ | ⟨_, rfl, -⟩) | h)
    · obtain ⟨rfl, rfl⟩ := Prod.mk.inj (Option.some.inj (hop.symm.trans hop'))
      exact h
    · cases hop
    · cases hop
    · exact absurd h hform

/-- A word without an operation's destination and without transfers has no overlap. -/
theorem refused_iff_of_form (hop : operationOf i = none) (htr : transfersOf i = none)
    (hwf : i.wellFormed = false ↔ FormOfNoStatement i) :
    i.wellFormed = false ↔ OverlapRefused i ∨ FormOfNoStatement i := by
  have hno : ¬ OverlapRefused i := by
    rintro (⟨_, _, hop', -⟩ | ⟨p, rfl, -⟩ | ⟨q, rfl, -⟩)
    · exact Option.some_ne_none _ (hop'.symm.trans hop)
    · cases htr
    · cases htr
  rw [hwf, or_iff_right hno]

theorem lspa_refused_iff (p : Par) : (Instr.lspa p).wellFormed = false ↔
    OverlapRefused (.lspa p) ∨ FormOfNoStatement (.lspa p) := by
  simp [Instr.wellFormed, OverlapRefused, operationOf, FormOfNoStatement, sidesAgree_eq_false_iff,
    imp_iff_not_or]

theorem lsse_refused_iff (q : PartPair) : (Instr.lsse q).wellFormed = false ↔
    OverlapRefused (.lsse q) ∨ FormOfNoStatement (.lsse q) := by
  simp [Instr.wellFormed, OverlapRefused, operationOf, FormOfNoStatement, ← partsAgree_eq_false_iff,
    imp_iff_not_or]

theorem mov_refused_iff (d : MovDir) (m : MovReg) (r : GReg) :
    (Instr.mov d m r).wellFormed = false ↔ FormOfNoStatement (.mov d m r) := by
  cases d with
  | fromSpecial => simp [Instr.wellFormed, FormOfNoStatement]
  | toSpecial =>
    cases m with
    | addr a => simp [Instr.wellFormed, FormOfNoStatement]
    | ctl c => cases c <;> simp [Instr.wellFormed, FormOfNoStatement]

theorem rep_refused_iff (c : Count) :
    (Instr.rep c).wellFormed = false ↔ FormOfNoStatement (.rep c) := by
  cases c <;> simp [Instr.wellFormed, Count.inRange, FormOfNoStatement]

theorem loop_refused_iff (c : Count) (rle : Byte) :
    (Instr.loop c rle).wellFormed = false ↔ FormOfNoStatement (.loop c rle) := by
  cases c <;> simp [Instr.wellFormed, Count.inRange, FormOfNoStatement, imp_iff_not_or]

theorem cond_refused_iff (c : Cond) (top : GReg) (b : CondBody) :
    (Instr.cond c top b).wellFormed = false ↔ FormOfNoStatement (.cond c top b) := by
  cases b with
  | mono m x y => cases m <;> simp [Instr.wellFormed, CondBody.fits, FormOfNoStatement]
  | _ => simp [Instr.wellFormed, CondBody.fits, FormOfNoStatement]

/-- The refused statements: the overlaps of R155, R156 and R278, and the forms of no statement. -/
theorem wellFormed_eq_false_iff (i : Instr) :
    i.wellFormed = false ↔ OverlapRefused i ∨ FormOfNoStatement i := by
  cases i with
  | madd | msub | suma | uuma | mas1 | mas16 | mpy | add | sub | sra | srl | sll | and | or | xor | lt
  | clr | inc | dec | abs | not | neg | clip | rnd | exp | put | aca | acs | div =>
    exact refused_iff_of_operation rfl rfl id
  | lspa p => exact lspa_refused_iff p
  | lsse q => exact lsse_refused_iff q
  | mov d m r => exact refused_iff_of_form rfl rfl (mov_refused_iff d m r)
  | rep c => exact refused_iff_of_form rfl rfl (rep_refused_iff c)
  | loop c rle => exact refused_iff_of_form rfl rfl (loop_refused_iff c rle)
  | cond c top b => exact refused_iff_of_form rfl rfl (cond_refused_iff c top b)
  | iadd | isub | isra | isrl | isll | iand | ior | ixor | lsda | lsim | ldi | jmp | jreg | call | creg
  | ret | reti | lpop | nop | halt | stop | fint =>
    exact refused_iff_of_form rfl rfl (iff_of_false Bool.false_ne_true.symm id)

/-- Settles O5: the step is `runWord`, which stops for the reason of the fetch. -/
theorem stepRefusesWhatIsNoStatement : Obligations.StepRefusesWhatIsNoStatement := by
  refine ⟨fun s hrun hno => ?_, wellFormed_eq_false_iff⟩
  rw [step_eq_runWord hrun hno]
  refine ⟨fun hcode => ?_, fun hcode hread => ?_, fun w e hcode hread hdec => ?_,
    fun w i hcode hread hdec hrefused => ?_⟩
  · exact runWord_of_fetch_error (.next s) (fetchAt_noCode hcode)
  · exact runWord_of_fetch_error (.next s) (fetchAt_unwritten hcode hread)
  · exact runWord_of_fetch_error (.next s) (fetchAt_undefined hcode hread hdec)
  · have hill : i.wellFormed = false := (wellFormed_eq_false_iff i).2 hrefused
    have hfetch := fetchAt_decoded hcode hread hdec
    rw [hill, if_neg Bool.false_ne_true] at hfetch
    exact runWord_of_fetch_error (.next s) hfetch

end Sys2Proof.Machine
end

section
/-! Instruction memory and the platform are no step's to change, and data memory changes only by words
that store (R74, R76, R85). -/

namespace Sys2Proof.Machine

variable {i : Instr} {s t u : State}

/-! ## Instruction memory and the platform -/

/-- Instruction memory and the platform are unchanged. -/
def CodeKept (s t : State) : Prop := t.imem = s.imem ∧ t.platform = s.platform

theorem CodeKept.trans (h : CodeKept s u) (g : CodeKept u t) : CodeKept s t :=
  ⟨g.1.trans h.1, g.2.trans h.2⟩

theorem movToEffect_imem (c : CtlReg) (v : Word16) : (movToEffect c v s).imem = s.imem := by
  cases c <;> simp [movToEffect]

theorem Effect.code (h : Effect i s u) : CodeKept s u := by
  cases h with
  | setCtl c r => exact ⟨movToEffect_imem c _, movToEffect_platform c _⟩
  | readCtl c r => cases c <;> exact ⟨rfl, rfl⟩
  | aluTransfers | transfers | lsda | lsim | setAddr => exact ⟨by simp, by simp⟩
  | keep | alu | setLow | dropRequests => exact ⟨rfl, rfl⟩

theorem BarredEnd.code (h : BarredEnd s t) : CodeKept s t := by
  cases h <;> exact ⟨by simp, by simp⟩

theorem ExecNext.code (h : ExecNext i s t) : CodeKept s t := by
  cases h with
  | retires u m heff => exact heff.code.trans ⟨by simp, by simp⟩
  | barred _ _ hend => exact hend.code

/-- Settles O9: a step executes a word, enters an interrupt, or keeps the state. -/
theorem stepsNeverChangeInstructionMemory : Obligations.StepsNeverChangeInstructionMemory := by
  intro s t hstep
  rcases step_next_cases hstep with ⟨i, d, -, hexec⟩ | ⟨q, d, haccept⟩ | rfl
  · exact (exec_next hexec).code
  · obtain ⟨-, rfl⟩ := (acceptInterrupt_eq_next_iff ..).1 haccept
    exact ⟨by simp, by simp⟩
  · exact ⟨rfl, rfl⟩

/-! ## Data memory -/

/-- Every byte of both data spaces is unchanged. -/
def BytesKept (s t : State) : Prop := ∀ p b, (t.data p).read b = (s.data p).read b

theorem BytesKept.trans (h : BytesKept s u) (g : BytesKept u t) : BytesKept s t :=
  fun p b => (g p b).trans (h p b)

theorem BytesKept.of_data_eq (hx : t.xmem = s.xmem) (hy : t.ymem = s.ymem) : BytesKept s t
  | .x, b => congrArg (Memory.read · b) hx
  | .y, b => congrArg (Memory.read · b) hy

/-- A word with a side that stores is a word that stores. -/
theorem mayStore_of_storesTo {q : PartPair} {p : Space} {a : Word16} (hq : transfersOf i = some q)
    (h : StoresTo s q p a) : mayStore i = true := by
  obtain ⟨d, part, hside, hop, -⟩ := h
  unfold mayStore
  split
  · rfl
  · rfl
  · cases p with
    | x =>
      have hx : q.x = some d := hside
      simp [hq, hx, hop]
    | y =>
      have hy : q.y = some d := hside
      simp [hq, hy, hop]

/-- The transfers of a word that does not store leave every byte. -/
theorem transfers_bytesKept {q : PartPair} (hq : transfersOf i = some q) (hi : mayStore i = false) :
    BytesKept s (s.transfers q) := by
  obtain ⟨-, -, -, hbytes⟩ := State.transfers_done s q
  intro p b
  refine hbytes p b (fun a hstores => ?_)
  exact absurd (hi.symm.trans (mayStore_of_storesTo hq hstores)) Bool.false_ne_true

theorem movToEffect_bytesKept (c : CtlReg) (v : Word16) : BytesKept s (movToEffect c v s) := by
  cases c <;> exact .of_data_eq (by simp [movToEffect]) (by simp [movToEffect])

theorem Effect.bytesKept (h : Effect i s u) (hi : mayStore i = false) : BytesKept s u := by
  cases h with
  | aluTransfers rd o q hov hq =>
    exact (BytesKept.of_data_eq (t := s.writeAlu rd o) rfl rfl).trans (transfers_bytesKept hq hi)
  | transfers q hq => exact transfers_bytesKept hq hi
  | lsda op k p a hlsda =>
    subst hlsda
    cases op with
    | load part => exact .of_data_eq rfl rfl
    | store part => exact absurd hi.symm Bool.false_ne_true
  | lsim op k n imm hlsim =>
    subst hlsim
    cases op with
    | load part => exact .of_data_eq rfl rfl
    | store part => exact absurd hi.symm Bool.false_ne_true
  | setCtl c r => exact movToEffect_bytesKept c _
  | readCtl c r => cases c <;> exact .of_data_eq rfl rfl
  | setAddr => exact .of_data_eq (by simp) (by simp)
  | keep | alu | setLow | dropRequests => exact .of_data_eq rfl rfl

theorem BarredEnd.bytesKept (h : BarredEnd s t) : BytesKept s t := by
  cases h <;> exact .of_data_eq (by simp) (by simp)

/-- Settles O12: the end of a word and the barred words leave data memory alone, and an effect changes it
only by a store. -/
theorem onlyStoresChangeDataMemory : Obligations.OnlyStoresChangeDataMemory := by
  intro i s t hexec hi
  cases exec_next hexec with
  | retires u m heff => exact (heff.bytesKept hi).trans (.of_data_eq (by simp) (by simp))
  | barred _ _ hend => exact hend.bytesKept

end Sys2Proof.Machine
end

section
/-! Accesses that R78 gives no result (R55, R78, R154). -/

namespace Sys2Proof.Machine

variable {i : Instr} {s : State}

/-! ## One access -/

/-- Of two checks the first that fails stops the word. -/
theorem guardStop_or (o p : Option Stop) (k : Res) :
    guardStop (o.or p) k = guardStop o (guardStop p k) := by
  rcases o with _ | _ | _ <;> rfl

/-- A result guarded by the check of an access stops as R78 and R55 ask. -/
theorem accessStops_guardStop (s : State) (p : Space) (a : Word16) (op : PartOp) (k : Res) :
    AccessStops s p a op (guardStop (accessStop s p a op) k) := by
  refine ⟨?_, ?_, ?_⟩
  · rintro hrom ⟨part, rfl⟩
    simp [accessStop, hrom, guardStop]
  · rintro g rfl hram hrom
    cases hg : s.region p a with
    | iram => exact absurd hg hram
    | irom => exact absurd hg hrom
    | ext | periph | absent => cases op <;> simp [accessStop, hg, guardStop]
  · rintro hregion ⟨part, rfl⟩ hread
    rcases hregion with hg | hg <;> simp [accessStop, hg, hread, guardStop]

theorem lsim_accessStops (op : PartOp) (k : GReg) (n : DReg) (imm : Word16)
    (hfresh : s.marks.dpFresh ≠ some n) :
    AccessStops s (ptrSpace n) (s.ptr n) op (exec (.lsim op k n imm) s) := by
  have hptr : pointerStop s n .plain = none := (pointerStop_eq_none_iff s n .plain).2 ⟨hfresh, nofun⟩
  simp only [exec, execLsim, guardStop_or, hptr, guardStop_none]
  exact accessStops_guardStop s _ _ op _

/-- The space of a pointer by its number (R71). -/
theorem eq_ptrSpace {p : Space} {n : DReg} (h : p = .x ↔ n.val ≤ 3) : p = ptrSpace n := by
  unfold ptrSpace
  split
  case isTrue hn => exact h.2 hn
  case isFalse hn =>
    cases p with
    | x => exact absurd (h.1 rfl) hn
    | y => rfl

/-! ## The two sides of a word -/

/-- A word with transfers makes their checks first, but for the check of the operands of DIV (R151). -/
theorem exec_eq_guardStop_pairStop {q : PartPair} (hq : transfersOf i = some q)
    (hdiv : sameDivOperands i = false) (s : State) : ∃ k, exec i s = guardStop (pairStop s q) k := by
  cases i with
  | madd | msub | suma | uuma | mas1 | mas16 | mpy | add | sub | sra | srl | sll | and | or | xor | lt
  | clr | inc | dec | abs | not | neg | clip | rnd | exp | put | aca | acs | lspa | lsse =>
    obtain rfl := Option.some.inj hq
    exact ⟨_, rfl⟩
  | div a b p =>
    obtain rfl := Option.some.inj hq
    have hstop : divStop a b = none := (stopIf_eq_none_iff ..).2 hdiv
    refine ⟨complete {} 1 ((s.writeAlu b (divOut (s.reg a) (s.reg b) s.draws)).transfers p.toPair), ?_⟩
    simp only [exec, execDiv, hstop, guardStop_none, aluWord]
  | _ => cases hq

theorem sidePointerStop_none {p : Space} {o : Option PartSide}
    (h : ∀ d, o = some d → PointerReady s (sidePtr p d.dp) d.modi) : sidePointerStop s p o = none := by
  cases o with
  | none => rfl
  | some d => exact (pointerStop_eq_none_iff ..).2 (h d rfl)

theorem regionPairStop_eq_none_iff (s : State) (q : PartPair) :
    regionPairStop s q = none ↔ ¬ RegionsClash s q := by
  obtain ⟨_ | a, _ | b⟩ := q <;> simp [regionPairStop, RegionsClash]

/-- Where the pointers and the regions of a word pass, its accesses are checked, X before Y (log 30). -/
theorem pairStop_eq_accessStops {q : PartPair}
    (hx : ∀ d, q.x = some d → PointerReady s (sidePtr .x d.dp) d.modi)
    (hy : ∀ d, q.y = some d → PointerReady s (sidePtr .y d.dp) d.modi) (hregions : ¬ RegionsClash s q) :
    pairStop s q = (sideAccessStop s .x q.x).or (sideAccessStop s .y q.y) := by
  rw [pairStop, sidePointerStop_none hx, sidePointerStop_none hy,
    (regionPairStop_eq_none_iff s q).2 hregions]
  rfl

theorem sideAccessStop_none {p : Space} {o : Option PartSide}
    (h : ∀ d, o = some d → AccessReady s p (s.sideAddress p d) d.op) : sideAccessStop s p o = none := by
  cases o with
  | none => rfl
  | some d => exact (accessStop_eq_none_iff ..).2 (h d rfl)

/-- Settles O40: each word is guarded by `accessStop` of the access, with no failing check before it. -/
theorem accessesWithoutAResultStop : Obligations.AccessesWithoutAResultStop := by
  refine ⟨fun op k p a s => ?_, fun op k n imm p s hp hfresh => ?_,
    fun i q s hq hdiv hx hy hregions => ?_⟩
  · exact accessStops_guardStop s p a op _
  · rw [eq_ptrSpace hp]
    exact lsim_accessStops op k n imm hfresh
  · obtain ⟨k, hexec⟩ := exec_eq_guardStop_pairStop hq hdiv s
    rw [hexec, pairStop_eq_accessStops hx hy hregions, guardStop_or]
    refine ⟨fun d hd => ?_, fun d hd hready => ?_⟩
    · rw [hd]
      exact accessStops_guardStop s .x (s.sideAddress .x d) d.op _
    · rw [sideAccessStop_none hready, guardStop_none, hd]
      exact accessStops_guardStop s .y (s.sideAddress .y d) d.op k

end Sys2Proof.Machine
end

section
/-! Leading bits and fields (R101-R118): which row decodes a word, and how its fields are read. -/

namespace Sys2Proof

variable {c : Codes} {w : Word32}

/-! ## Fields -/

/-- A register field that holds the number of a register is read as that register. -/
theorem fldReg_eq {lo : Nat} {a : Fin 8} (h : fld w lo 3 = a.val) : fldReg w lo = a := by
  rw [fldReg, h]
  exact Fin.ofNat_val_eq_self a

/-- An immediate field that holds 16 bits is read as these bits. -/
theorem fldImm_eq {lo : Nat} {v : Word16} (h : fld w lo 16 = v.toNat) : fldImm w lo = v := by
  rw [fldImm, h, BitVec.ofNat_toNat, BitVec.setWidth_eq]

/-- A field inside a field: the inner one is read from the number in the outer one. -/
theorem fld_of_fld_eq {lo len n : Nat} (h : fld w lo len = n) (off : Nat) {len' : Nat}
    (hlen : off + len' ≤ len) : fld w (lo + off) len' = n / 2 ^ off % 2 ^ len' := by
  have hsplit : 2 ^ len = 2 ^ off * 2 ^ (len - off) := by
    rw [← Nat.pow_add, Nat.add_sub_cancel' (by omega)]
  have hdvd : 2 ^ len' ∣ 2 ^ (len - off) := Nat.pow_dvd_pow 2 (by omega)
  rw [← h, fld, fld, hsplit, Nat.mod_mul_right_div_self, Nat.mod_mod_of_dvd _ hdvd,
    Nat.div_div_eq_div_mul, ← Nat.pow_add]

/-- A bit slice has a value exactly where its field has the number of it. -/
theorem extract_eq_iff {lo len : Nat} {v : BitVec len} : w.extractLsb' lo len = v ↔
    fld w lo len = v.toNat := by
  rw [fld_eq_extract, BitVec.toNat_inj]

/-! ## The rows of R101 -/

/-- A word of a row below 32 in the six leading bits starts with 0. -/
theorem lead_of_six {n : Nat} (h : fld w 26 6 = n) (hn : n < 32) : fld w 31 1 ≠ 1 ∧ fld w 26 5 = n := by
  simp only [fld] at *
  omega

/-- Four leading bits below 8 leave four rows in the six leading bits. -/
theorem lead_of_four {n : Nat} (h : fld w 28 4 = n) (hn : n < 8) : fld w 31 1 ≠ 1 ∧
    (fld w 26 5 = 4 * n ∨ fld w 26 5 = 4 * n + 1 ∨ fld w 26 5 = 4 * n + 2 ∨ fld w 26 5 = 4 * n + 3) := by
  simp only [fld] at *
  omega

theorem decodeWord_op3 (h : fld w 31 1 = 1) : decodeWord c w = decodeOp3 c w := if_pos h

theorem decodeWord_op2 (h : fld w 28 4 = 7) : decodeWord c w = decodeOp2 c w := by
  obtain ⟨h0, hrow⟩ := lead_of_four h (by decide)
  rcases hrow with hrow | hrow | hrow | hrow <;> simp only [decodeWord, if_neg h0, hrow]

theorem decodeWord_op2Cond (h : fld w 28 4 = 6) : decodeWord c w = decodeOp2Cond c w := by
  obtain ⟨h0, hrow⟩ := lead_of_four h (by decide)
  rcases hrow with hrow | hrow | hrow | hrow <;> simp only [decodeWord, if_neg h0, hrow]

theorem decodeWord_opImm (h : fld w 28 4 = 5) : decodeWord c w = decodeOpImm c w := by
  obtain ⟨h0, hrow⟩ := lead_of_four h (by decide)
  rcases hrow with hrow | hrow | hrow | hrow <;> simp only [decodeWord, if_neg h0, hrow]

theorem decodeWord_ctrl (h : fld w 28 4 = 0) : decodeWord c w = decodeCtrl c w := by
  obtain ⟨h0, hrow⟩ := lead_of_four h (by decide)
  rcases hrow with hrow | hrow | hrow | hrow <;> simp only [decodeWord, if_neg h0, hrow]

/-- Rows 17 to 20, told apart by bits 27-26. -/
theorem decodeWord_hwLoop {k : Nat} (h : fld w 26 6 = 4 + k) (hk : k < 4) :
    decodeWord c w = decodeHwLoop w ∧ fld w 26 2 = k := by
  obtain ⟨h0, hrow⟩ := lead_of_six h (by omega)
  have hkind : fld w 26 2 = k := by
    simp only [fld] at *
    omega
  refine ⟨?_, hkind⟩
  rw [decodeWord, if_neg h0, hrow]
  interval_cases k <;> rfl

theorem decodeWord_lsse (h : fld w 26 6 = 19) : decodeWord c w = decodeLsse c w := by
  obtain ⟨h0, hrow⟩ := lead_of_six h (by decide)
  simp only [decodeWord, if_neg h0, hrow]

theorem decodeWord_lsda (h : fld w 26 6 = 18) : decodeWord c w = decodeLsda c w := by
  obtain ⟨h0, hrow⟩ := lead_of_six h (by decide)
  simp only [decodeWord, if_neg h0, hrow]

theorem decodeWord_lsim (h : fld w 26 6 = 17) : decodeWord c w = decodeLsim c w := by
  obtain ⟨h0, hrow⟩ := lead_of_six h (by decide)
  simp only [decodeWord, if_neg h0, hrow]

theorem decodeWord_mov (h : fld w 26 6 = 15) : decodeWord c w = decodeMov c w := by
  obtain ⟨h0, hrow⟩ := lead_of_six h (by decide)
  simp only [decodeWord, if_neg h0, hrow]

theorem decodeWord_ldi (h : fld w 26 6 = 14) : decodeWord c w = decodeLdi c w := by
  obtain ⟨h0, hrow⟩ := lead_of_six h (by decide)
  simp only [decodeWord, if_neg h0, hrow]

theorem decodeWord_jmp (h : fld w 26 6 = 11) : decodeWord c w = decodeJmp c w := by
  obtain ⟨h0, hrow⟩ := lead_of_six h (by decide)
  simp only [decodeWord, if_neg h0, hrow]

theorem decodeWord_jreg (h : fld w 26 6 = 10) : decodeWord c w = decodeJreg c w := by
  obtain ⟨h0, hrow⟩ := lead_of_six h (by decide)
  simp only [decodeWord, if_neg h0, hrow]

theorem decodeWord_ret (h : fld w 26 6 = 9) : decodeWord c w = decodeRet c w := by
  obtain ⟨h0, hrow⟩ := lead_of_six h (by decide)
  simp only [decodeWord, if_neg h0, hrow]

/-- The leading patterns 010000, 00110x and 001000 belong to no row. -/
theorem decodeWord_unassigned (h : fld w 26 6 = 16 ∨ fld w 27 5 = 6 ∨ fld w 26 6 = 8) :
    decodeWord c w = .error .leadingBits := by
  have hrow : fld w 31 1 ≠ 1 ∧
      (fld w 26 5 = 16 ∨ fld w 26 5 = 12 ∨ fld w 26 5 = 13 ∨ fld w 26 5 = 8) := by
    simp only [fld] at *
    omega
  obtain ⟨h0, hrow⟩ := hrow
  rcases hrow with hrow | hrow | hrow | hrow <;> simp only [decodeWord, if_neg h0, hrow]

end Sys2Proof
end

section
/-! Decoding what the encoder wrote, row by row (R102-R118, R122): first the groups of fields that rows
share, then each row, then every statement. -/

namespace Sys2Proof

variable {c : Codes} {w : Word32}

/-! ## The transfer fields of rows 1, 2 and 5 -/

/-- Direction, pointer, modification and register of a side fit their bits (R106). -/
def SideFits (f : Nat × Nat × Nat × Nat) : Prop := f.1 < 2 ∧ f.2.1 < 4 ∧ f.2.2.1 < 8 ∧ f.2.2.2 < 8

theorem packSides_lt {x y : Nat × Nat × Nat × Nat} (hx : SideFits x) (hy : SideFits y) :
    packSides x y < 2 ^ 18 := by
  simp only [SideFits, packSides] at *
  omega

/-- The fields of the X side are where R106 reads them. -/
theorem fld_packSides_x {x y : Nat × Nat × Nat × Nat} (h : fld w 0 18 = packSides x y) (hx : SideFits x)
    (hy : SideFits y) :
    fld w 17 1 = x.1 ∧ fld w 14 2 = x.2.1 ∧ fld w 11 3 = x.2.2.1 ∧ fld w 8 3 = x.2.2.2 := by
  simp only [SideFits, packSides, fld] at *
  omega

/-- The fields of the Y side are where R106 reads them. -/
theorem fld_packSides_y {x y : Nat × Nat × Nat × Nat} (h : fld w 0 18 = packSides x y) (hx : SideFits x)
    (hy : SideFits y) :
    fld w 16 1 = y.1 ∧ fld w 6 2 = y.2.1 ∧ fld w 3 3 = y.2.2.1 ∧ fld w 0 3 = y.2.2.2 := by
  simp only [SideFits, packSides, fld] at *
  omega

theorem ParSide.fields_fit (hmodi : soundTable c.modi 7 8 = true) (o : Option ParSide) :
    SideFits (ParSide.fields c o) := by
  cases o with
  | none => exact ⟨Nat.succ_pos _, Nat.succ_pos _, codeAt_lt hmodi (by decide), Nat.succ_pos _⟩
  | some a => exact ⟨bitCode_lt .., a.dp.isLt, codeAt_lt hmodi a.modi.place_bounds.2, a.reg.isLt⟩

theorem decodeParSide_fields (hmodi : soundTable c.modi 7 8 = true) (o : Option ParSide) :
    decodeParSide c (ParSide.fields c o).1 (ParSide.fields c o).2.1 (ParSide.fields c o).2.2.1
      (ParSide.fields c o).2.2.2 = .ok o := by
  cases o with
  | none => simp [decodeParSide, ParSide.fields, placeOf_codeAt hmodi (show 0 < 7 by decide)]
  | some a =>
    obtain ⟨dir, dp, modi, reg⟩ := a
    have hplace := placeOf_codeAt hmodi modi.place_bounds.2
    simp only [decodeParSide, ParSide.fields, hplace, Dir.ofCode_code, Fin.ofNat_val_eq_self]
    cases modi <;> rfl

theorem Par.bits_lt (hmodi : soundTable c.modi 7 8 = true) (p : Par) : p.bits c < 2 ^ 18 :=
  packSides_lt (ParSide.fields_fit hmodi p.x) (ParSide.fields_fit hmodi p.y)

/-- Bits 17-0 of rows 1 and 2 lead back to both transfers (R106). -/
theorem decodePar_bits (hmodi : soundTable c.modi 7 8 = true) {p : Par} (h : fld w 0 18 = p.bits c) :
    decodePar c w = .ok p := by
  have hfx := ParSide.fields_fit hmodi p.x
  have hfy := ParSide.fields_fit hmodi p.y
  obtain ⟨hdx, hpx, hmx, hrx⟩ := fld_packSides_x h hfx hfy
  obtain ⟨hdy, hpy, hmy, hry⟩ := fld_packSides_y h hfx hfy
  simp only [decodePar, hdx, hpx, hmx, hrx, hdy, hpy, hmy, hry, decodeParSide_fields hmodi]

/-- suf and d of a partial transfer fit their bits (R107). -/
theorem PartOp.codes_lt (hsuf : soundTable c.suf 8 16 = true) (o : PartOp) :
    (o.codes c).1 < 8 ∧ (o.codes c).2 < 2 := by
  have := codeAt_lt hsuf o.place_lt
  simp only [PartOp.codes]
  omega

theorem PartSide.fields_fit (hsuf : soundTable c.suf 8 16 = true) (hmodi : soundTable c.modi 7 8 = true)
    (o : Option PartSide) : (PartSide.fields c o).1 < 8 ∧ SideFits (PartSide.fields c o).2 := by
  cases o with
  | none =>
    obtain ⟨hs, hd⟩ := PartOp.codes_lt hsuf (.store .rl)
    exact ⟨hs, hd, Nat.succ_pos _, codeAt_lt hmodi (by decide), Nat.succ_pos _⟩
  | some a =>
    obtain ⟨hs, hd⟩ := PartOp.codes_lt hsuf a.op
    exact ⟨hs, hd, a.dp.isLt, codeAt_lt hmodi a.modi.place_bounds.2, a.reg.isLt⟩

theorem decodePartSide_fields (hsuf : soundTable c.suf 8 16 = true) (hmodi : soundTable c.modi 7 8 = true)
    (o : Option PartSide) :
    decodePartSide c (PartSide.fields c o).1 (PartSide.fields c o).2.1 (PartSide.fields c o).2.2.1
      (PartSide.fields c o).2.2.2.1 (PartSide.fields c o).2.2.2.2 = .ok o := by
  cases o with
  | none =>
    simp [decodePartSide, PartSide.fields, PartOp.ofCodes_codes hsuf,
      placeOf_codeAt hmodi (show 0 < 7 by decide)]
  | some a =>
    obtain ⟨op, dp, modi, reg⟩ := a
    have hplace := placeOf_codeAt hmodi modi.place_bounds.2
    simp only [decodePartSide, PartSide.fields, PartOp.ofCodes_codes hsuf, hplace, Fin.ofNat_val_eq_self]
    cases modi <;> rfl

/-! ## The fields cond and top -/

/-- A statement with the fields cond and top: the plain one under EVER (R118, R365). -/
def underCond (k : Cond) (top : GReg) (plain : Instr) (b : CondBody) : Instr :=
  if k = .ever then plain else .cond k top b

theorem condBits_lt (hcond : soundTable c.cond 9 16 = true) (k : Cond) (top : GReg) :
    condBits c k top < 2 ^ 7 := by
  have := codeAt_lt hcond k.place_lt
  simp only [condBits]
  omega

theorem decodeCond_condBits (hcond : soundTable c.cond 9 16 = true) {k : Cond} {top : GReg}
    (h : fld w 0 7 = condBits c k top) : decodeCond c w = .ok (k, top) := by
  have hk := codeAt_lt hcond k.place_lt
  have hcode : fld w 3 4 = codeAt c.cond k.place := by
    rw [fld_of_fld_eq h 3 (by decide), condBits]
    omega
  have htop : fld w 0 3 = top.val := by
    rw [fld_of_fld_eq h 0 (by decide), condBits]
    omega
  simp only [decodeCond, hcode, placeOf_codeAt hcond k.place_lt, Option.bind_some, Cond.ofPlace_place,
    fldReg_eq htop]

theorem withCond_condBits (hcond : soundTable c.cond 9 16 = true) {k : Cond} {top : GReg}
    (h : fld w 0 7 = condBits c k top) (plain : Instr) (b : CondBody) :
    withCond c w plain b = .ok (underCond k top plain b) := by
  rw [withCond, decodeCond_condBits hcond h]
  cases k <;> rfl

/-! ## Rows 1 to 4 -/

theorem encOp3_fields {k : Nat} (a b d : GReg) {p : Par} (hk : codeAt c.op3 k < 16)
    (hp : p.bits c < 2 ^ 18) :
    fld (encOp3 c k a b d p) 31 1 = 1 ∧ fld (encOp3 c k a b d p) 28 3 = a.val ∧
      fld (encOp3 c k a b d p) 24 4 = codeAt c.op3 k ∧ fld (encOp3 c k a b d p) 21 3 = b.val ∧
      fld (encOp3 c k a b d p) 18 3 = d.val ∧ fld (encOp3 c k a b d p) 0 18 = p.bits c := by
  and_intros <;> rw [encOp3, fld_ofNat _ _ _ (by omega)] <;> omega

theorem decodeWord_encOp3 (hop : soundTable c.op3 16 16 = true) (hmodi : soundTable c.modi 7 8 = true)
    {k : Nat} (hk : k < 16) {a b d : GReg} {p : Par} {i : Instr} (hi : op3Instr k a b d p = some i) :
    decodeWord c (encOp3 c k a b d p) = .ok i := by
  obtain ⟨hlead, ha, hcode, hb, hd, hpar⟩ := encOp3_fields a b d (codeAt_lt hop hk) (p.bits_lt hmodi)
  simp only [decodeWord_op3 hlead, decodeOp3, decodePar_bits hmodi hpar, hcode, placeOf_codeAt hop hk,
    Option.bind_some, fldReg_eq ha, fldReg_eq hb, fldReg_eq hd, hi]

theorem encOp2_fields {k : Nat} (a b : GReg) {p : Par} (hk : codeAt c.op2 k < 16)
    (hp : p.bits c < 2 ^ 18) :
    fld (encOp2 c k a b p) 28 4 = 7 ∧ fld (encOp2 c k a b p) 24 4 = codeAt c.op2 k ∧
      fld (encOp2 c k a b p) 21 3 = a.val ∧ fld (encOp2 c k a b p) 18 3 = b.val ∧
      fld (encOp2 c k a b p) 0 18 = p.bits c := by
  and_intros <;> rw [encOp2, fld_ofNat _ _ _ (by omega)] <;> omega

/-- CLR has one operand, which both fields name (log 11). -/
theorem decodeWord_encOp2 (hop : soundTable c.op2 14 16 = true) (hmodi : soundTable c.modi 7 8 = true)
    (m : Mono) {a b : GReg} (p : Par) (hclr : m = .clr → a = b) :
    decodeWord c (encOp2 c m.place a b p) = .ok (m.instr a b p) := by
  have hk := m.place_bounds.2
  obtain ⟨hlead, hcode, ha, hb, hpar⟩ := encOp2_fields a b (codeAt_lt hop hk) (p.bits_lt hmodi)
  have hsame : ¬(m = .clr ∧ a.val ≠ b.val) := fun ⟨hm, hne⟩ => hne (congrArg Fin.val (hclr hm))
  simp only [decodeWord_op2 hlead, decodeOp2, decodePar_bits hmodi hpar, hcode, placeOf_codeAt hop hk,
    fldReg_eq ha, fldReg_eq hb, ha, hb]
  cases m with
  | clr => exact if_neg hsame
  | _ => rfl

/-- The ALU NOP with a transfer is LSPA (R103). -/
theorem decodeWord_encOp2_nop (hop : soundTable c.op2 14 16 = true) (hmodi : soundTable c.modi 7 8 = true)
    (a b : GReg) {p : Par} (hp : (p.x.isSome || p.y.isSome) = true) :
    decodeWord c (encOp2 c 0 a b p) = .ok (.lspa p) := by
  have hk : 0 < 14 := by decide
  obtain ⟨hlead, hcode, -, -, hpar⟩ := encOp2_fields a b (codeAt_lt hop hk) (p.bits_lt hmodi)
  simp only [decodeWord_op2 hlead, decodeOp2, decodePar_bits hmodi hpar, hcode, placeOf_codeAt hop hk,
    if_pos hp]

theorem encOp2Cond_fields {m : Mono} (a b : GReg) {k : Cond} {top : GReg}
    (hm : codeAt c.op2 m.place < 16) (ht : condBits c k top < 2 ^ 7) :
    fld (encOp2Cond c m a b k top) 28 4 = 6 ∧ fld (encOp2Cond c m a b k top) 24 4 = codeAt c.op2 m.place ∧
      fld (encOp2Cond c m a b k top) 21 3 = a.val ∧ fld (encOp2Cond c m a b k top) 18 3 = b.val ∧
      fld (encOp2Cond c m a b k top) 7 11 = 0 ∧ fld (encOp2Cond c m a b k top) 0 7 = condBits c k top := by
  and_intros <;> rw [encOp2Cond, fld_ofNat _ _ _ (by omega)] <;> omega

theorem decodeWord_encOp2Cond (hop : soundTable c.op2 14 16 = true) (hcond : soundTable c.cond 9 16 = true)
    (m : Mono) {a b : GReg} (k : Cond) (top : GReg) (hclr : m = .clr → a = b) :
    decodeWord c (encOp2Cond c m a b k top) = .ok (.cond k top (.mono m a b)) := by
  have hk := m.place_bounds.2
  obtain ⟨hlead, hcode, ha, hb, hunused, htail⟩ :=
    encOp2Cond_fields a b (codeAt_lt hop hk) (condBits_lt hcond k top)
  have hsame : ¬(m = .clr ∧ a.val ≠ b.val) := fun ⟨hm, hne⟩ => hne (congrArg Fin.val (hclr hm))
  simp only [decodeWord_op2Cond hlead, decodeOp2Cond, hunused, decodeCond_condBits hcond htail, hcode,
    placeOf_codeAt hop hk, fldReg_eq ha, fldReg_eq hb, ha, hb, ne_eq, not_true, if_false]
  cases m with
  | clr => exact if_neg hsame
  | _ => rfl

theorem encOpImm_fields {k : Nat} (a b : GReg) (imm : Word16) (hk : codeAt c.opImm k < 16) :
    fld (encOpImm c k a b imm) 28 4 = 5 ∧ fld (encOpImm c k a b imm) 24 4 = codeAt c.opImm k ∧
      fld (encOpImm c k a b imm) 21 3 = a.val ∧ fld (encOpImm c k a b imm) 18 3 = b.val ∧
      fld (encOpImm c k a b imm) 16 2 = 0 ∧ fld (encOpImm c k a b imm) 0 16 = imm.toNat := by
  and_intros <;> rw [encOpImm, fld_ofNat _ _ _ (by omega)] <;> omega

theorem decodeWord_encOpImm (hop : soundTable c.opImm 8 16 = true) {k : Nat} (hk : k < 8) {a b : GReg}
    {imm : Word16} {i : Instr} (hi : opImmInstr k a b imm = some i) :
    decodeWord c (encOpImm c k a b imm) = .ok i := by
  obtain ⟨hlead, hcode, ha, hb, hunused, himm⟩ := encOpImm_fields a b imm (codeAt_lt hop hk)
  simp only [decodeWord_opImm hlead, decodeOpImm, hunused, hcode, placeOf_codeAt hop hk, Option.bind_some,
    fldReg_eq ha, fldReg_eq hb, fldImm_eq himm, hi, ne_eq, not_true, if_false]

/-! ## Rows 5 to 7 -/

theorem encLsse_fields {q : PartPair} (hx : (PartSide.fields c q.x).1 < 8)
    (hy : (PartSide.fields c q.y).1 < 8)
    (hp : packSides (PartSide.fields c q.x).2 (PartSide.fields c q.y).2 < 2 ^ 18) :
    fld (encLsse c q) 26 6 = 19 ∧ fld (encLsse c q) 23 3 = (PartSide.fields c q.x).1 ∧
      fld (encLsse c q) 20 3 = (PartSide.fields c q.y).1 ∧ fld (encLsse c q) 18 2 = 0 ∧
      fld (encLsse c q) 0 18 = packSides (PartSide.fields c q.x).2 (PartSide.fields c q.y).2 := by
  and_intros <;> rw [encLsse, fld_ofNat _ _ _ (by omega)] <;> omega

theorem decodeWord_encLsse (hsuf : soundTable c.suf 8 16 = true) (hmodi : soundTable c.modi 7 8 = true)
    (q : PartPair) : decodeWord c (encLsse c q) = .ok (.lsse q) := by
  obtain ⟨hsx, hfx⟩ := PartSide.fields_fit hsuf hmodi q.x
  obtain ⟨hsy, hfy⟩ := PartSide.fields_fit hsuf hmodi q.y
  obtain ⟨hlead, hx, hy, hunused, hpack⟩ := encLsse_fields hsx hsy (packSides_lt hfx hfy)
  obtain ⟨hdx, hpx, hmx, hrx⟩ := fld_packSides_x hpack hfx hfy
  obtain ⟨hdy, hpy, hmy, hry⟩ := fld_packSides_y hpack hfx hfy
  simp only [decodeWord_lsse hlead, decodeLsse, hunused, hx, hy, hdx, hpx, hmx, hrx, hdy, hpy, hmy, hry,
    decodePartSide_fields hsuf hmodi, ne_eq, not_true, if_false]

theorem encLsda_fields {op : PartOp} (reg : GReg) (sp : Space) (addr : Word16) (hsuf : (op.codes c).1 < 8)
    (hd : (op.codes c).2 < 2) (hsp : sp.code c < 2) :
    fld (encLsda c op reg sp addr) 26 6 = 18 ∧ fld (encLsda c op reg sp addr) 23 3 = reg.val ∧
      fld (encLsda c op reg sp addr) 20 3 = (op.codes c).1 ∧
      fld (encLsda c op reg sp addr) 19 1 = sp.code c ∧ fld (encLsda c op reg sp addr) 17 2 = 0 ∧
      fld (encLsda c op reg sp addr) 16 1 = (op.codes c).2 ∧
      fld (encLsda c op reg sp addr) 0 16 = addr.toNat := by
  and_intros <;> rw [encLsda, fld_ofNat _ _ _ (by omega)] <;> omega

theorem decodeWord_encLsda (hsuf : soundTable c.suf 8 16 = true) (op : PartOp) (reg : GReg) (sp : Space)
    (addr : Word16) : decodeWord c (encLsda c op reg sp addr) = .ok (.lsda op reg sp addr) := by
  obtain ⟨hs, hd⟩ := op.codes_lt hsuf
  obtain ⟨hlead, hreg, hsufs, hspace, hunused, hdir, haddr⟩ :=
    encLsda_fields reg sp addr hs hd (bitCode_lt ..)
  simp only [decodeWord_lsda hlead, decodeLsda, hunused, hsufs, hdir, PartOp.ofCodes_codes hsuf,
    fldReg_eq hreg, hspace, Space.ofCode_code, fldImm_eq haddr, ne_eq, not_true, if_false]

theorem encLsim_fields {op : PartOp} (reg : GReg) (dp : DReg) (imm : Word16) (hsuf : (op.codes c).1 < 8)
    (hd : (op.codes c).2 < 2) :
    fld (encLsim c op reg dp imm) 26 6 = 17 ∧ fld (encLsim c op reg dp imm) 23 3 = reg.val ∧
      fld (encLsim c op reg dp imm) 20 3 = (op.codes c).1 ∧
      fld (encLsim c op reg dp imm) 17 3 = dp.val ∧ fld (encLsim c op reg dp imm) 16 1 = (op.codes c).2 ∧
      fld (encLsim c op reg dp imm) 0 16 = imm.toNat := by
  and_intros <;> rw [encLsim, fld_ofNat _ _ _ (by omega)] <;> omega

theorem decodeWord_encLsim (hsuf : soundTable c.suf 8 16 = true) (op : PartOp) (reg : GReg) (dp : DReg)
    (imm : Word16) : decodeWord c (encLsim c op reg dp imm) = .ok (.lsim op reg dp imm) := by
  obtain ⟨hs, hd⟩ := op.codes_lt hsuf
  obtain ⟨hlead, hreg, hsufs, hdp, hdir, himm⟩ := encLsim_fields reg dp imm hs hd
  simp only [decodeWord_lsim hlead, decodeLsim, hsufs, hdir, PartOp.ofCodes_codes hsuf, fldReg_eq hreg,
    fldReg_eq hdp, fldImm_eq himm]

/-! ## Rows 8 to 13 -/

theorem MovDir.code_lt (d : MovDir) : d.code < 2 := by cases d <;> decide

/-- The direction bit of MOV leads back to the direction (R110). -/
theorem movDir_of_code (d : MovDir) : (if d.code = 0 then MovDir.toSpecial else .fromSpecial) = d := by
  cases d <;> rfl

theorem encMov_fields {group code tail : Nat} (d : MovDir) (r : GReg) (hg : group < 2) (hcode : code < 32)
    (ht : tail < 2 ^ 16) :
    fld (encMov d group code r tail) 26 6 = 15 ∧ fld (encMov d group code r tail) 23 3 = r.val ∧
      fld (encMov d group code r tail) 22 1 = group ∧ fld (encMov d group code r tail) 17 5 = code ∧
      fld (encMov d group code r tail) 16 1 = d.code ∧ fld (encMov d group code r tail) 0 16 = tail := by
  have := d.code_lt
  and_intros <;> rw [encMov, fld_ofNat _ _ _ (by omega)] <;> omega

theorem decodeWord_encMov_addr (haddr : soundTable c.addrReg 18 32 = true)
    (hcond : soundTable c.cond 9 16 = true) (d : MovDir) (a : AddrReg) (r : GReg) (k : Cond) (top : GReg) :
    decodeWord c (encMov d 0 (codeAt c.addrReg a.place) r (condBits c k top))
      = .ok (underCond k top (.mov d (.addr a) r) (.mov d a r)) := by
  have ht := condBits_lt hcond k top
  obtain ⟨hlead, hr, hgroup, hcode, hdir, htail⟩ :=
    encMov_fields d r (show 0 < 2 by decide) (codeAt_lt haddr a.place_lt)
      (show condBits c k top < 2 ^ 16 by omega)
  have hunused : fld (encMov d 0 (codeAt c.addrReg a.place) r (condBits c k top)) 7 9 = 0 := by
    rw [fld_of_fld_eq htail 7 (by decide)]
    omega
  have hseven : fld (encMov d 0 (codeAt c.addrReg a.place) r (condBits c k top)) 0 7 = condBits c k top := by
    rw [fld_of_fld_eq htail 0 (by decide)]
    omega
  simp only [decodeWord_mov hlead, decodeMov, hgroup, hunused, hcode, placeOf_codeAt haddr a.place_lt,
    Option.bind_some, AddrReg.ofPlace_place, hdir, movDir_of_code, fldReg_eq hr,
    withCond_condBits hcond hseven, ne_eq, not_true, if_true, if_false]

theorem decodeWord_encMov_ctl (hctl : soundTable c.ctlReg 10 32 = true) (d : MovDir) (k : CtlReg)
    (r : GReg) : decodeWord c (encMov d 1 (codeAt c.ctlReg k.place) r 0) = .ok (.mov d (.ctl k) r) := by
  obtain ⟨hlead, hr, hgroup, hcode, hdir, htail⟩ :=
    encMov_fields d r (show 1 < 2 by decide) (codeAt_lt hctl k.place_lt) (show 0 < 2 ^ 16 by decide)
  simp only [decodeWord_mov hlead, decodeMov, hgroup, htail, hcode, placeOf_codeAt hctl k.place_lt,
    Option.bind_some, CtlReg.ofPlace_place, hdir, movDir_of_code, fldReg_eq hr, ne_eq, not_true, if_false,
    Nat.one_ne_zero]

theorem encLdi_addr_fields {a : AddrReg} (imm : Word16) (ha : codeAt c.addrReg a.place < 32) :
    fld (encLdi c (.addr a) imm) 26 6 = 14 ∧ fld (encLdi c (.addr a) imm) 22 4 = 0 ∧
      fld (encLdi c (.addr a) imm) 17 5 = codeAt c.addrReg a.place ∧
      fld (encLdi c (.addr a) imm) 16 1 = 0 ∧ fld (encLdi c (.addr a) imm) 0 16 = imm.toNat := by
  and_intros <;> rw [encLdi, fld_ofNat _ _ _ (by omega)] <;> omega

theorem encLdi_rl_fields (n : GReg) (imm : Word16) :
    fld (encLdi c (.rl n) imm) 26 6 = 14 ∧ fld (encLdi c (.rl n) imm) 23 3 = n.val ∧
      fld (encLdi c (.rl n) imm) 17 6 = 0 ∧ fld (encLdi c (.rl n) imm) 16 1 = 1 ∧
      fld (encLdi c (.rl n) imm) 0 16 = imm.toNat := by
  and_intros <;> rw [encLdi, fld_ofNat _ _ _ (by omega)] <;> omega

theorem decodeWord_encLdi (haddr : soundTable c.addrReg 18 32 = true) (d : LdiDest) (imm : Word16) :
    decodeWord c (encLdi c d imm) = .ok (.ldi d imm) := by
  cases d with
  | addr a =>
    obtain ⟨hlead, hunused, hcode, hkind, himm⟩ := encLdi_addr_fields imm (codeAt_lt haddr a.place_lt)
    simp only [decodeWord_ldi hlead, decodeLdi, hkind, hunused, hcode, placeOf_codeAt haddr a.place_lt,
      Option.bind_some, AddrReg.ofPlace_place, fldImm_eq himm, ne_eq, not_true, if_true, if_false]
  | rl n =>
    obtain ⟨hlead, hn, hunused, hkind, himm⟩ := encLdi_rl_fields (c := c) n imm
    simp only [decodeWord_ldi hlead, decodeLdi, hkind, hunused, fldReg_eq hn, fldImm_eq himm, ne_eq,
      not_true, if_false, Nat.one_ne_zero]

/-! ## Rows 14 to 16 -/

theorem encJmp_fields {tail : Nat} (call : Bool) (rel : Word16) (ht : tail < 2 ^ 7) :
    fld (encJmp c call rel tail) 26 6 = 11 ∧
      fld (encJmp c call rel tail) 25 1 = bitCode c.callIsOne call ∧
      fld (encJmp c call rel tail) 23 2 = 0 ∧ fld (encJmp c call rel tail) 7 16 = rel.toNat ∧
      fld (encJmp c call rel tail) 0 7 = tail := by
  have := bitCode_lt c.callIsOne call
  and_intros <;> rw [encJmp, fld_ofNat _ _ _ (by omega)] <;> omega

theorem decodeWord_encJmp (hcond : soundTable c.cond 9 16 = true) (call : Bool) (rel : Word16) (k : Cond)
    (top : GReg) : decodeWord c (encJmp c call rel (condBits c k top))
      = .ok (if call then underCond k top (.call rel) (.call rel)
          else underCond k top (.jmp rel) (.jmp rel)) := by
  obtain ⟨hlead, hcall, hunused, hrel, htail⟩ :=
    encJmp_fields (c := c) call rel (condBits_lt hcond k top)
  simp only [decodeWord_jmp hlead, decodeJmp, hunused, hcall, bitMeans_bitCode, fldImm_eq hrel,
    withCond_condBits hcond htail, ne_eq, not_true, if_false]
  cases call <;> rfl

theorem encJreg_fields {tail : Nat} (call : Bool) (dp : DReg) (ht : tail < 2 ^ 7) :
    fld (encJreg c call dp tail) 26 6 = 10 ∧
      fld (encJreg c call dp tail) 25 1 = bitCode c.callIsOne call ∧
      fld (encJreg c call dp tail) 20 5 = 0 ∧ fld (encJreg c call dp tail) 17 3 = dp.val ∧
      fld (encJreg c call dp tail) 7 10 = 0 ∧ fld (encJreg c call dp tail) 0 7 = tail := by
  have := bitCode_lt c.callIsOne call
  and_intros <;> rw [encJreg, fld_ofNat _ _ _ (by omega)] <;> omega

theorem decodeWord_encJreg (hcond : soundTable c.cond 9 16 = true) (call : Bool) (dp : DReg) (k : Cond)
    (top : GReg) : decodeWord c (encJreg c call dp (condBits c k top))
      = .ok (if call then underCond k top (.creg dp) (.creg dp)
          else underCond k top (.jreg dp) (.jreg dp)) := by
  obtain ⟨hlead, hcall, hhigh, hdp, hlow, htail⟩ :=
    encJreg_fields (c := c) call dp (condBits_lt hcond k top)
  simp only [decodeWord_jreg hlead, decodeJreg, hhigh, hlow, hcall, bitMeans_bitCode, fldReg_eq hdp,
    withCond_condBits hcond htail, ne_eq, not_true, or_false, if_false]
  cases call <;> rfl

theorem encRet_fields {tail : Nat} (reti : Bool) (ht : tail < 2 ^ 7) :
    fld (encRet c reti tail) 26 6 = 9 ∧ fld (encRet c reti tail) 25 1 = bitCode c.retiIsOne reti ∧
      fld (encRet c reti tail) 7 18 = 0 ∧ fld (encRet c reti tail) 0 7 = tail := by
  have := bitCode_lt c.retiIsOne reti
  and_intros <;> rw [encRet, fld_ofNat _ _ _ (by omega)] <;> omega

theorem decodeWord_encRet (hcond : soundTable c.cond 9 16 = true) (reti : Bool) (k : Cond) (top : GReg) :
    decodeWord c (encRet c reti (condBits c k top))
      = .ok (if reti then underCond k top .reti .reti else underCond k top .ret .ret) := by
  obtain ⟨hlead, hreti, hunused, htail⟩ :=
    encRet_fields (c := c) reti (condBits_lt hcond k top)
  simp only [decodeWord_ret hlead, decodeRet, hunused, hreti, bitMeans_bitCode,
    withCond_condBits hcond htail, ne_eq, not_true, if_false]
  cases reti <;> rfl

/-! ## Rows 17 to 21 -/

theorem encRep_imm_fields (n : BitVec 15) :
    fld (encRep (.imm n)) 26 6 = 7 ∧ fld (encRep (.imm n)) 15 11 = 0 ∧
      fld (encRep (.imm n)) 0 15 = n.toNat := by
  and_intros <;> rw [encRep, fld_ofNat _ _ _ (by omega)] <;> omega

theorem encRep_reg_fields (r : GReg) :
    fld (encRep (.reg r)) 26 6 = 6 ∧ fld (encRep (.reg r)) 3 23 = 0 ∧ fld (encRep (.reg r)) 0 3 = r.val := by
  and_intros <;> rw [encRep, fld_ofNat _ _ _ (by omega)] <;> omega

theorem decodeWord_encRep (n : Count) : decodeWord c (encRep n) = .ok (.rep n) := by
  cases n with
  | imm n =>
    obtain ⟨hlead, hunused, hn⟩ := encRep_imm_fields n
    obtain ⟨hrow, hkind⟩ := decodeWord_hwLoop (c := c) (k := 3) hlead (by decide)
    simp only [hrow, decodeHwLoop, hkind, hunused, hn, BitVec.ofNat_toNat, BitVec.setWidth_eq, ne_eq,
      not_true, if_false]
  | reg r =>
    obtain ⟨hlead, hunused, hr⟩ := encRep_reg_fields r
    obtain ⟨hrow, hkind⟩ := decodeWord_hwLoop (c := c) (k := 2) hlead (by decide)
    simp only [hrow, decodeHwLoop, hkind, hunused, fldReg_eq hr, ne_eq, not_true, if_false]

theorem encLoop_imm_fields (n : BitVec 15) (rle : Byte) :
    fld (encLoop (.imm n) rle) 26 6 = 5 ∧ fld (encLoop (.imm n) rle) 24 2 = 0 ∧
      fld (encLoop (.imm n) rle) 16 8 = rle.toNat ∧ fld (encLoop (.imm n) rle) 15 1 = 0 ∧
      fld (encLoop (.imm n) rle) 0 15 = n.toNat := by
  and_intros <;> rw [encLoop, fld_ofNat _ _ _ (by omega)] <;> omega

theorem encLoop_reg_fields (r : GReg) (rle : Byte) :
    fld (encLoop (.reg r) rle) 26 6 = 4 ∧ fld (encLoop (.reg r) rle) 24 2 = 0 ∧
      fld (encLoop (.reg r) rle) 16 8 = rle.toNat ∧ fld (encLoop (.reg r) rle) 3 13 = 0 ∧
      fld (encLoop (.reg r) rle) 0 3 = r.val := by
  and_intros <;> rw [encLoop, fld_ofNat _ _ _ (by omega)] <;> omega

theorem decodeWord_encLoop (n : Count) (rle : Byte) :
    decodeWord c (encLoop n rle) = .ok (.loop n rle) := by
  cases n with
  | imm n =>
    obtain ⟨hlead, hhigh, hrle, hmarker, hn⟩ := encLoop_imm_fields n rle
    obtain ⟨hrow, hkind⟩ := decodeWord_hwLoop (c := c) (k := 1) hlead (by decide)
    simp only [hrow, decodeHwLoop, hkind, hhigh, hmarker, hrle, hn, BitVec.ofNat_toNat,
      BitVec.setWidth_eq, ne_eq, not_true, or_false, if_false]
  | reg r =>
    obtain ⟨hlead, hhigh, hrle, hunused, hr⟩ := encLoop_reg_fields r rle
    obtain ⟨hrow, hkind⟩ := decodeWord_hwLoop (c := c) (k := 0) hlead (by decide)
    simp only [hrow, decodeHwLoop, hkind, hhigh, hunused, hrle, fldReg_eq hr, BitVec.ofNat_toNat,
      BitVec.setWidth_eq, ne_eq, not_true, or_false, if_false]

/-- A word of row 21 is all selector (R117, log 5). -/
theorem decodeWord_encCtrl (hctrl : soundTable c.ctrl 5 (2 ^ 28) = true) {k : Nat} {i : Instr}
    (hi : [Instr.nop, .halt, .stop, .fint, .lpop][k]? = some i) : decodeWord c (encCtrl c k) = .ok i := by
  obtain ⟨hk : k < 5, rfl⟩ := List.getElem?_eq_some_iff.1 hi
  have hcode := codeAt_lt hctrl hk
  have hlead : fld (encCtrl c k) 28 4 = 0 := by
    rw [encCtrl, fld_ofNat _ _ _ (by omega)]
    omega
  have hsel : fld (encCtrl c k) 0 28 = codeAt c.ctrl k := by
    rw [encCtrl, fld_ofNat _ _ _ (by omega)]
    omega
  rw [decodeWord_ctrl hlead, decodeCtrl, hsel, placeOf_codeAt hctrl hk]
  interval_cases k <;> rfl

/-! ## Every statement -/

theorem underCond_of_ne {k : Cond} (h : k ≠ .ever) (top : GReg) (plain : Instr) (b : CondBody) :
    underCond k top plain b = .cond k top b := if_neg h

/-- A conditional statement that exists: CLR names one register, and only a monomial stands under EVER
(R310, R366). -/
theorem decodeWord_encCond (hop : soundTable c.op2 14 16 = true)
    (haddr : soundTable c.addrReg 18 32 = true) (hcond : soundTable c.cond 9 16 = true) {k : Cond}
    (top : GReg) {b : CondBody} (hfits : b.fits k = true) :
    decodeWord c (encCond c k top b) = .ok (.cond k top b) := by
  cases b with
  | mono m x y =>
    refine decodeWord_encOp2Cond hop hcond m k top ?_
    rintro rfl
    exact eq_of_beq hfits
  | mov d a r =>
    rw [← underCond_of_ne (bne_iff_ne.1 hfits) top (.mov d (.addr a) r)]
    exact decodeWord_encMov_addr haddr hcond d a r k top
  | jmp rel =>
    rw [← underCond_of_ne (bne_iff_ne.1 hfits) top (.jmp rel)]
    exact decodeWord_encJmp hcond false rel k top
  | call rel =>
    rw [← underCond_of_ne (bne_iff_ne.1 hfits) top (.call rel)]
    exact decodeWord_encJmp hcond true rel k top
  | jreg dp =>
    rw [← underCond_of_ne (bne_iff_ne.1 hfits) top (.jreg dp)]
    exact decodeWord_encJreg hcond false dp k top
  | creg dp =>
    rw [← underCond_of_ne (bne_iff_ne.1 hfits) top (.creg dp)]
    exact decodeWord_encJreg hcond true dp k top
  | ret =>
    rw [← underCond_of_ne (bne_iff_ne.1 hfits) top .ret]
    exact decodeWord_encRet hcond false k top
  | reti =>
    rw [← underCond_of_ne (bne_iff_ne.1 hfits) top .reti]
    exact decodeWord_encRet hcond true k top

theorem decodeWord_encode {i : Instr} (hc : c.sound = true) (hwf : i.wellFormed = true) :
    decodeWord c (encode c i) = .ok i := by
  obtain ⟨hop3, hop2, himm, hctrl, haddr, hctl, hsuf, hmodi, hcond⟩ := c.sound_iff.1 hc
  cases i with
  | madd | msub | suma | uuma | mas1 | mas16 | mpy | add | sub | sra | srl | sll | and | or | xor | lt =>
    exact decodeWord_encOp3 hop3 hmodi (by decide) rfl
  | iadd | isub | isra | isrl | isll | iand | ior | ixor =>
    exact decodeWord_encOpImm himm (by decide) rfl
  | clr r p => exact decodeWord_encOp2 hop2 hmodi .clr p fun _ => rfl
  | inc | dec | abs | not | neg | clip | rnd | exp | put | aca | acs | div =>
    exact decodeWord_encOp2 hop2 hmodi _ _ nofun
  | lspa p =>
    obtain ⟨-, hsome⟩ := Bool.and_eq_true_iff.1 hwf
    exact decodeWord_encOp2_nop hop2 hmodi 0 0 hsome
  | lsse q => exact decodeWord_encLsse hsuf hmodi q
  | lsda op r sp a => exact decodeWord_encLsda hsuf op r sp a
  | lsim op r dp n => exact decodeWord_encLsim hsuf op r dp n
  | mov d m r =>
    cases m with
    | addr a => exact decodeWord_encMov_addr haddr hcond d a r .ever 0
    | ctl k => exact decodeWord_encMov_ctl hctl d k r
  | ldi d n => exact decodeWord_encLdi haddr d n
  | jmp rel => exact decodeWord_encJmp hcond false rel .ever 0
  | jreg dp => exact decodeWord_encJreg hcond false dp .ever 0
  | call rel => exact decodeWord_encJmp hcond true rel .ever 0
  | creg dp => exact decodeWord_encJreg hcond true dp .ever 0
  | ret => exact decodeWord_encRet hcond false .ever 0
  | reti => exact decodeWord_encRet hcond true .ever 0
  | rep n => exact decodeWord_encRep n
  | loop n rle => exact decodeWord_encLoop n rle
  | nop | halt | stop | fint | lpop =>
    exact decodeWord_encCtrl hctrl rfl
  | cond k top b => exact decodeWord_encCond hop2 haddr hcond top hwf

/-- Settles O1, row by row. -/
theorem decodeInvertsEncode : Obligations.DecodeInvertsEncode := by
  intro c i hc hwf
  rw [decode_bytesOfWord]
  exact decodeWord_encode hc hwf

end Sys2Proof
end

section
/-! Words outside the formats (R101, R123, R366): what each row asks of a word it decodes. -/

namespace Sys2Proof.Machine

variable {c : Codes} {w : Word32}

/-! ## Answers -/

/-- A decoder that gives no statement gives an error. -/
theorem exists_error_of_not_ok {α : Type} {r : Except DecodeError α} (h : ∀ i, r ≠ .ok i) :
    ∃ e, r = .error e := by
  cases r with
  | error e => exact ⟨e, rfl⟩
  | ok i => exact absurd rfl (h i)

/-- A value with a place stands in its table. -/
theorem mem_of_placeOf {t : List Nat} {x k : Nat} (h : placeOf t x = some k) : x ∈ t := by
  by_contra hx
  rw [(placeOf_eq_none_iff t x).2 hx] at h
  cases h

theorem mem_of_placeOf_bind {α : Type} {t : List Nat} {x : Nat} {f : Nat → Option α} {b : α}
    (h : (placeOf t x).bind f = some b) : x ∈ t := by
  obtain ⟨k, hk, -⟩ := Option.bind_eq_some_iff.1 h
  exact mem_of_placeOf hk

theorem placeOf_head {t : List Nat} {x : Nat} (h : t.head? = some x) : placeOf t x = some 0 := by
  obtain ⟨rest, rfl⟩ := List.head?_eq_some_iff.1 h
  exact if_pos rfl

/-! ## What the shared fields hold where they decode -/

theorem mem_of_decodeParSide {d dp modi reg : Nat} {o : Option ParSide}
    (h : decodeParSide c d dp modi reg = .ok o) : modi ∈ c.modi := by
  unfold decodeParSide at h
  split at h
  · cases h
  · exact mem_of_placeOf ‹_›
  · exact mem_of_placeOf ‹_›

theorem mem_of_decodePar {p : Par} (h : decodePar c w = .ok p) :
    fld w 11 3 ∈ c.modi ∧ fld w 3 3 ∈ c.modi := by
  unfold decodePar at h
  split at h
  · exact ⟨mem_of_decodeParSide ‹_›, mem_of_decodeParSide ‹_›⟩
  · cases h
  · cases h

theorem mem_of_ofCodes {suf d : Nat} {o : PartOp} (h : PartOp.ofCodes c suf d = some o) :
    2 * suf + d ∈ c.suf := mem_of_placeOf_bind h

theorem mem_of_decodePartSide {suf d dp modi reg : Nat} {o : Option PartSide}
    (h : decodePartSide c suf d dp modi reg = .ok o) : 2 * suf + d ∈ c.suf ∧ modi ∈ c.modi := by
  unfold decodePartSide at h
  split at h
  · cases h
  · cases h
  · exact ⟨mem_of_ofCodes ‹_›, mem_of_placeOf ‹_›⟩
  · exact ⟨mem_of_ofCodes ‹_›, mem_of_placeOf ‹_›⟩

theorem mem_of_decodeCond {r : Cond × GReg} (h : decodeCond c w = .ok r) : fld w 3 4 ∈ c.cond := by
  unfold decodeCond at h
  split at h
  case h_1 k hk => exact mem_of_placeOf_bind hk
  case h_2 => cases h

theorem mem_of_withCond {plain i : Instr} {b : CondBody} (h : withCond c w plain b = .ok i) :
    fld w 3 4 ∈ c.cond := by
  unfold withCond at h
  split at h
  · cases h
  · exact mem_of_decodeCond ‹_›
  · exact mem_of_decodeCond ‹_›

/-- A branch row checks its unused bits, chooses between two statements by a bit, and reads cond for both. -/
theorem mem_of_branchRow {unused second : Prop} [Decidable unused] [Decidable second] {e : DecodeError}
    {i plain plain' : Instr} {b b' : CondBody}
    (h : (if unused then .error e else if second then withCond c w plain' b' else withCond c w plain b)
      = .ok i) : fld w 3 4 ∈ c.cond := by
  split at h
  · cases h
  · split at h
    · exact mem_of_withCond h
    · exact mem_of_withCond h

/-! ## What each row holds where it decodes -/

theorem mem_of_decodeOp3 {i : Instr} (h : decodeOp3 c w = .ok i) :
    fld w 24 4 ∈ c.op3 ∧ fld w 11 3 ∈ c.modi ∧ fld w 3 3 ∈ c.modi := by
  unfold decodeOp3 at h
  split at h
  · cases h
  · split at h
    case h_1 j hj => exact ⟨mem_of_placeOf_bind hj, mem_of_decodePar ‹_›⟩
    case h_2 => cases h

/-- CLR, at place 1 of the table, names one register (log 11). -/
theorem place_of_decodeOp2 {i : Instr} (h : decodeOp2 c w = .ok i) :
    fld w 11 3 ∈ c.modi ∧ fld w 3 3 ∈ c.modi ∧
      ∃ k, placeOf c.op2 (fld w 24 4) = some k ∧ (k = 1 → fld w 21 3 = fld w 18 3) := by
  unfold decodeOp2 at h
  split at h
  · cases h
  case h_2 p hp =>
    obtain ⟨hx, hy⟩ := mem_of_decodePar hp
    refine ⟨hx, hy, ?_⟩
    split at h
    case h_1 => cases h
    case h_2 hk => exact ⟨0, hk, nofun⟩
    case h_3 k hne hk =>
      refine ⟨k, hk, ?_⟩
      rintro rfl
      by_contra hdiff
      simp [Mono.ofPlace, hdiff] at h

/-- Under a condition the ALU NOP, at place 0, is no statement (R366). -/
theorem place_of_decodeOp2Cond {i : Instr} (h : decodeOp2Cond c w = .ok i) :
    fld w 3 4 ∈ c.cond ∧
      ∃ k, placeOf c.op2 (fld w 24 4) = some k ∧ k ≠ 0 ∧ (k = 1 → fld w 21 3 = fld w 18 3) := by
  unfold decodeOp2Cond at h
  split at h
  · cases h
  · split at h
    · cases h
    case h_2 hcond =>
      refine ⟨mem_of_decodeCond hcond, ?_⟩
      split at h
      case h_1 => cases h
      case h_2 => cases h
      case h_3 k hne hk =>
        refine ⟨k, hk, hne, ?_⟩
        rintro rfl
        by_contra hdiff
        simp [Mono.ofPlace, hdiff] at h

theorem mem_of_decodeOpImm {i : Instr} (h : decodeOpImm c w = .ok i) : fld w 24 4 ∈ c.opImm := by
  unfold decodeOpImm at h
  split at h
  · cases h
  · split at h
    case h_1 j hj => exact mem_of_placeOf_bind hj
    case h_2 => cases h

theorem mem_of_decodeLsse {i : Instr} (h : decodeLsse c w = .ok i) :
    (2 * fld w 23 3 + fld w 17 1 ∈ c.suf ∧ fld w 11 3 ∈ c.modi) ∧
      2 * fld w 20 3 + fld w 16 1 ∈ c.suf ∧ fld w 3 3 ∈ c.modi := by
  unfold decodeLsse at h
  split at h
  · cases h
  · split at h
    · exact ⟨mem_of_decodePartSide ‹_›, mem_of_decodePartSide ‹_›⟩
    · cases h
    · cases h

theorem mem_of_decodeLsda {i : Instr} (h : decodeLsda c w = .ok i) :
    2 * fld w 20 3 + fld w 16 1 ∈ c.suf := by
  unfold decodeLsda at h
  split at h
  · cases h
  · split at h
    · cases h
    · exact mem_of_ofCodes ‹_›

theorem mem_of_decodeLsim {i : Instr} (h : decodeLsim c w = .ok i) :
    2 * fld w 20 3 + fld w 16 1 ∈ c.suf := by
  unfold decodeLsim at h
  split at h
  · cases h
  · exact mem_of_ofCodes ‹_›

/-- MOV of an address-unit register has its code and a condition, MOV of another its code (R110). -/
theorem mem_of_decodeMov {i : Instr} (h : decodeMov c w = .ok i) :
    (fld w 22 1 = 0 → fld w 17 5 ∈ c.addrReg ∧ fld w 3 4 ∈ c.cond) ∧
      (fld w 22 1 = 1 → fld w 17 5 ∈ c.ctlReg) := by
  by_cases hgroup : fld w 22 1 = 0
  · refine ⟨fun _ => ?_, fun hone => absurd (hgroup.symm.trans hone) (by decide)⟩
    simp only [decodeMov, if_pos hgroup] at h
    split at h
    · cases h
    · split at h
      · cases h
      case h_2 a ha => exact ⟨mem_of_placeOf_bind ha, mem_of_withCond h⟩
  · refine ⟨fun hzero => absurd hzero hgroup, fun _ => ?_⟩
    simp only [decodeMov, if_neg hgroup] at h
    split at h
    · cases h
    · split at h
      · cases h
      case h_2 r hr => exact mem_of_placeOf_bind hr

theorem mem_of_decodeLdi {i : Instr} (h : decodeLdi c w = .ok i) (haddr : fld w 16 1 = 0) :
    fld w 17 5 ∈ c.addrReg := by
  simp only [decodeLdi, if_pos haddr] at h
  split at h
  · cases h
  · split at h
    · cases h
    case h_2 a ha => exact mem_of_placeOf_bind ha

theorem mem_of_decodeJmp {i : Instr} (h : decodeJmp c w = .ok i) : fld w 3 4 ∈ c.cond :=
  mem_of_branchRow h

theorem mem_of_decodeJreg {i : Instr} (h : decodeJreg c w = .ok i) : fld w 3 4 ∈ c.cond :=
  mem_of_branchRow h

theorem mem_of_decodeRet {i : Instr} (h : decodeRet c w = .ok i) : fld w 3 4 ∈ c.cond :=
  mem_of_branchRow h

theorem mem_of_decodeCtrl {i : Instr} (h : decodeCtrl c w = .ok i) : fld w 0 28 ∈ c.ctrl := by
  by_contra hno
  rw [decodeCtrl, (placeOf_eq_none_iff ..).2 hno] at h
  cases h

/-! ## The refusals -/

theorem unassigned_iff (t : List Nat) (w : Word32) (lo len : Nat) :
    Unassigned t w lo len ↔ fld w lo len ∉ t := by
  rw [Unassigned, fld_eq_extract]

theorem unassignedPair_iff (c : Codes) (w : Word32) (suf d : Nat) :
    UnassignedPair c w suf d ↔ 2 * fld w suf 3 + fld w d 1 ∉ c.suf := by
  rw [UnassignedPair, fld_eq_extract, fld_eq_extract]

/-- Every row of R104-R116 looks at its unused bits before its other fields. -/
theorem decodeWord_of_setsUnusedBit (h : SetsUnusedBit w) : decodeWord c w = .error .unusedBit := by
  simp only [SetsUnusedBit, ne_eq, extract_eq_iff] at h
  rcases h with ⟨hl, h⟩ | ⟨hl, h⟩ | ⟨hl, h⟩ | ⟨hl, h⟩ | ⟨hl, hg, h⟩ | ⟨hl, hg, h⟩ | ⟨hl, hk, h⟩ |
    ⟨hl, hk, h⟩ | ⟨hl, h⟩ | ⟨hl, h⟩ | ⟨hl, h⟩ | ⟨hl, h⟩ | ⟨hl, h⟩ | ⟨hl, h⟩ | ⟨hl, h⟩
  · exact (decodeWord_op2Cond hl).trans (if_pos h)
  · exact (decodeWord_opImm hl).trans (if_pos h)
  · exact (decodeWord_lsse hl).trans (if_pos h)
  · exact (decodeWord_lsda hl).trans (if_pos h)
  · exact (decodeWord_mov hl).trans ((if_pos hg).trans (if_pos h))
  · exact (decodeWord_mov hl).trans ((if_neg (by rw [hg]; decide)).trans (if_pos h))
  · exact (decodeWord_ldi hl).trans ((if_pos hk).trans (if_pos h))
  · exact (decodeWord_ldi hl).trans ((if_neg (by rw [hk]; decide)).trans (if_pos h))
  · exact (decodeWord_jmp hl).trans (if_pos h)
  · exact (decodeWord_jreg hl).trans (if_pos h)
  · exact (decodeWord_ret hl).trans (if_pos h)
  · obtain ⟨hrow, hkind⟩ := decodeWord_hwLoop (c := c) (k := 3) hl (by decide)
    rw [hrow, decodeHwLoop, hkind]
    exact if_pos h
  · obtain ⟨hrow, hkind⟩ := decodeWord_hwLoop (c := c) (k := 2) hl (by decide)
    rw [hrow, decodeHwLoop, hkind]
    exact if_pos h
  · obtain ⟨hrow, hkind⟩ := decodeWord_hwLoop (c := c) (k := 1) hl (by decide)
    rw [hrow, decodeHwLoop, hkind]
    exact if_pos h
  · obtain ⟨hrow, hkind⟩ := decodeWord_hwLoop (c := c) (k := 0) hl (by decide)
    rw [hrow, decodeHwLoop, hkind]
    exact if_pos h

theorem decodeWord_ne_ok_of_operation (h : UnassignedInOperation c w) (i : Instr) :
    decodeWord c w ≠ .ok i := by
  intro hok
  simp only [UnassignedInOperation, unassigned_iff, extract_eq_iff, ← fld_eq_extract] at h
  rcases h with ⟨hl, h⟩ | ⟨hl, h⟩ | ⟨hl, h⟩ | ⟨hl, h⟩
  · obtain ⟨hop, hx, hy⟩ := mem_of_decodeOp3 ((decodeWord_op3 hl).symm.trans hok)
    exact h.elim (absurd hop) (fun h => h.elim (absurd hx) (absurd hy))
  · obtain ⟨hx, hy, k, hk, -⟩ := place_of_decodeOp2 ((decodeWord_op2 hl).symm.trans hok)
    exact h.elim (absurd (mem_of_placeOf hk)) (fun h => h.elim (absurd hx) (absurd hy))
  · obtain ⟨hcond, k, hk, hne, -⟩ := place_of_decodeOp2Cond ((decodeWord_op2Cond hl).symm.trans hok)
    rcases h with h | h | h
    · exact h (mem_of_placeOf hk)
    · exact hne (Option.some.inj (hk.symm.trans (placeOf_head h)))
    · exact h hcond
  · exact h (mem_of_decodeOpImm ((decodeWord_opImm hl).symm.trans hok))

theorem decodeWord_ne_ok_of_transfer (h : UnassignedInTransfer c w) (i : Instr) :
    decodeWord c w ≠ .ok i := by
  intro hok
  simp only [UnassignedInTransfer, unassigned_iff, unassignedPair_iff, extract_eq_iff] at h
  rcases h with ⟨hl, h⟩ | ⟨hl | hl, h⟩ | ⟨hl, hg, h⟩ | ⟨hl, hg, h⟩ | ⟨hl, hk, h⟩
  · obtain ⟨⟨hsx, hx⟩, hsy, hy⟩ := mem_of_decodeLsse ((decodeWord_lsse hl).symm.trans hok)
    rcases h with h | h | h | h
    · exact h hx
    · exact h hy
    · exact h hsx
    · exact h hsy
  · exact h (mem_of_decodeLsda ((decodeWord_lsda hl).symm.trans hok))
  · exact h (mem_of_decodeLsim ((decodeWord_lsim hl).symm.trans hok))
  · obtain ⟨haddr, -⟩ := mem_of_decodeMov ((decodeWord_mov hl).symm.trans hok)
    obtain ⟨hreg, hcond⟩ := haddr hg
    exact h.elim (absurd hreg) (absurd hcond)
  · obtain ⟨-, hctl⟩ := mem_of_decodeMov ((decodeWord_mov hl).symm.trans hok)
    exact h (hctl hg)
  · exact h (mem_of_decodeLdi ((decodeWord_ldi hl).symm.trans hok) hk)

theorem decodeWord_ne_ok_of_control (h : UnassignedInControl c w) (i : Instr) :
    decodeWord c w ≠ .ok i := by
  intro hok
  simp only [UnassignedInControl, unassigned_iff, extract_eq_iff] at h
  rcases h with ⟨hl | hl | hl, h⟩ | ⟨hl, h⟩
  · exact h (mem_of_decodeJmp ((decodeWord_jmp hl).symm.trans hok))
  · exact h (mem_of_decodeJreg ((decodeWord_jreg hl).symm.trans hok))
  · exact h (mem_of_decodeRet ((decodeWord_ret hl).symm.trans hok))
  · exact h (mem_of_decodeCtrl ((decodeWord_ctrl hl).symm.trans hok))

/-- CLR with two registers, with or without a condition (log 11). -/
theorem decodeWord_ne_ok_of_clr (hop : soundTable c.op2 14 16 = true) (hl : fld w 29 3 = 3)
    (hclr : fld w 24 4 = codeAt c.op2 1) (hdiff : fld w 21 3 ≠ fld w 18 3) (i : Instr) :
    decodeWord c w ≠ .ok i := by
  intro hok
  have hplace : placeOf c.op2 (fld w 24 4) = some 1 := hclr ▸ placeOf_codeAt hop (by decide)
  have hrow : fld w 28 4 = 6 ∨ fld w 28 4 = 7 := by
    simp only [fld] at *
    omega
  rcases hrow with hrow | hrow
  · obtain ⟨-, k, hk, -, heq⟩ := place_of_decodeOp2Cond ((decodeWord_op2Cond hrow).symm.trans hok)
    exact hdiff (heq (Option.some.inj (hk.symm.trans hplace)))
  · obtain ⟨-, -, k, hk, heq⟩ := place_of_decodeOp2 ((decodeWord_op2 hrow).symm.trans hok)
    exact hdiff (heq (Option.some.inj (hk.symm.trans hplace)))

/-- Settles O2: no row gives a statement for such a word. -/
theorem wordsOutsideTheFormatsRefused : Obligations.WordsOutsideTheFormatsRefused := by
  refine fun c w => ⟨fun h => ?_, decodeWord_of_setsUnusedBit, fun h => ?_, fun hc hl hclr hdiff => ?_⟩
  · simp only [extract_eq_iff] at h
    exact decodeWord_unassigned h
  · apply exists_error_of_not_ok
    rcases h with h | h | h
    · exact decodeWord_ne_ok_of_operation h
    · exact decodeWord_ne_ok_of_transfer h
    · exact decodeWord_ne_ok_of_control h
  · obtain ⟨-, hop, -⟩ := c.sound_iff.1 hc
    apply exists_error_of_not_ok
    rw [← fld_eq_extract] at hclr
    rw [ne_eq, extract_eq_iff, ← fld_eq_extract] at hdiff
    exact decodeWord_ne_ok_of_clr hop (extract_eq_iff.1 hl) hclr hdiff

end Sys2Proof.Machine
end

section
/-! Words written out from the formats (R101-R118), and a placed word run by the next step (R151). -/

namespace Sys2Proof.Machine

/-! ## Words in listing order -/

/-- A word decodes to the well-formed statement it is the word of, with the values of D25. -/
theorem decodeWord_listing {w : Word32} {i : Instr} (henc : encode Codes.listing i = w)
    (hwf : i.wellFormed = true) : decodeWord Codes.listing w = .ok i :=
  henc ▸ decodeWord_encode (by decide) hwf

/-- Settles O3: each word is the encoding of its statement, and `decodeWord_encode` reads it back. -/
theorem wordsDecodeToTheirStatements : Obligations.WordsDecodeToTheirStatements := by
  unfold Obligations.WordsDecodeToTheirStatements
  and_intros
  all_goals exact decodeWord_listing rfl rfl

/-! ## A placed word -/

variable {i : Instr} {s : State}

theorem withFetchWord_codes (s : State) (n w : Nat) :
    (s.withFetchWord n w).platform.codes = s.platform.codes := by
  rw [State.withFetchWord]
  split <;> rfl

/-- The address of a placed word holds code (R78 d). -/
theorem withFetchWord_codeAt (s : State) (n w : Nat) : (s.withFetchWord n w).codeAt s.pc = true := by
  rw [State.codeAt, State.withFetchWord]
  split
  · assumption
  · simp

theorem withFetchWord_read32 (s : State) (w : Word32) :
    (s.withFetchWord 32 w.toNat).imem.read32 s.pc = some w := by
  simp only [State.withFetchWord, Memory.read32_write32_same, Nat.mod_eq_of_lt w.isLt,
    BitVec.ofNat_toNat, BitVec.setWidth_eq]

/-- No request is taken before a placed word: a pending one is held off (R390). -/
theorem withFetchWord_quiet (s : State) (n w : Nat) :
    (s.withFetchWord n w).acceptAllowed = false ∨ (s.withFetchWord n w).readySource = none := by
  cases h : s.pending with
  | nil => exact .inr (by simp [State.readySource, h])
  | cons q rest => exact .inl (by simp [State.acceptAllowed, State.withFetchWord, h])

/-- Where no interrupt is taken, the step is `exec` of the well-formed statement at PC (R151). -/
theorem step_eq_exec {w : Word32} (hrun : s.mode = .running)
    (hno : s.acceptAllowed = false ∨ s.readySource = none) (hcode : s.codeAt s.pc = true)
    (hread : s.imem.read32 s.pc = some w) (hdec : decode s.platform.codes (bytesOfWord w) = .ok i)
    (hwf : i.wellFormed = true) : step s = exec i s := by
  have hfetch : fetchAt s s.pc = .ok i := by rw [fetchAt_decoded hcode hread hdec, if_pos hwf]
  simp only [step_eq_runWord hrun hno, runWord, hfetch]

/-- Settles O6: the fetch of the placed word reads the encoding, which decodes to its statement. -/
theorem placedWordIsTheNextOneRun : Obligations.PlacedWordIsTheNextOneRun := by
  intro i s hc hwf
  refine step_eq_exec rfl (withFetchWord_quiet ..) (withFetchWord_codeAt ..) (withFetchWord_read32 ..) ?_ hwf
  rw [withFetchWord_codes]
  exact decodeInvertsEncode _ i hc hwf

end Sys2Proof.Machine
end

section
/-! The statement at PC (R151), and a statement under a condition (R152, R310, R321, R366). -/

namespace Sys2Proof.Machine

variable {c : Cond} {top : GReg} {b : CondBody} {s : State}

/-- Settles O4: the statement is the one that `step_eq_exec` runs. -/
theorem stepRunsTheDecodedWord : Obligations.StepRunsTheDecodedWord :=
  fun _ _ _ hrun hno hcode hread hdec hwf => step_eq_exec hrun hno hcode hread hdec hwf

/-! ## The checks before a condition -/

theorem plainReturnAt_eq_false_iff (s : State) (a : Word16) :
    plainReturnAt s a = false ↔ fetchAt s a ≠ .ok .ret ∧ fetchAt s a ≠ .ok .reti := by
  unfold plainReturnAt
  split
  next h => simp [h]
  next h => simp [h]
  next hret hreti => exact iff_of_true rfl ⟨hret, hreti⟩

/-- A conditional call may stand where a branch may and no return follows it (R323, R432). -/
theorem condCallStop_eq_none_iff (s : State) : condCallStop s = none ↔
    PlaceFree s ∧ fetchAt s (s.pc + 1) ≠ .ok .ret ∧ fetchAt s (s.pc + 1) ≠ .ok .reti := by
  rw [condCallStop, Option.or_eq_none_iff, placeStop_eq_none_iff, stopIf_eq_none_iff,
    plainReturnAt_eq_false_iff]

/-- A return may stand where a branch may and no MOV of STK or SP precedes it (R323, R431). -/
theorem returnPlaceStop_eq_none_iff (s : State) :
    returnPlaceStop s = none ↔ PlaceFree s ∧ s.marks.stackMoved = false := by
  rw [returnPlaceStop, Option.or_eq_none_iff, placeStop_eq_none_iff, stopIf_eq_none_iff]

/-- RETI may stand where a return may, but not before a vector entry (R334). -/
theorem retiPlaceStop_eq_none_iff (s : State) : retiPlaceStop s = none ↔
    (PlaceFree s ∧ s.marks.stackMoved = false) ∧
      ∀ q ∈ s.platform.intSources, s.pc.toNat + 1 ≠ q.vector.toNat := by
  rw [retiPlaceStop, Option.or_eq_none_iff, returnPlaceStop_eq_none_iff, stopIf_eq_none_iff,
    beforeVectorEntry_eq_false_iff]

/-- A condition adds no check to those of its function; EVER drops one (R329). -/
theorem condPlaceStop_eq_none (c : Cond) (h : bodyPlaceStop b s = none) : condPlaceStop c b s = none := by
  unfold condPlaceStop
  split
  · exact (Option.or_eq_none_iff.1 h).1
  · exact (Option.or_eq_none_iff.1 h).1
  · exact h

/-- Past its checks a conditional statement is its function or only the word end (R152). -/
theorem exec_cond_of_place (hstop : bodyPlaceStop b s = none) :
    exec (.cond c top b) s = if c.holds (s.reg top) then bodyRun b s else complete {} 1 s := by
  have hexec : exec (.cond c top b) s = execCond c top b s := rfl
  rw [hexec, execCond, condPlaceStop_eq_none c hstop, guardStop_none]

/-! ## A condition that fails -/

theorem exec_cond_of_not_holds (hc : c.holds (s.reg top) = false) (hstop : bodyPlaceStop b s = none) :
    exec (.cond c top b) s = complete {} 1 s := by
  rw [exec_cond_of_place hstop, hc, if_neg Bool.false_ne_true]

/-- Settles O58: where the checks of its function pass, a failed condition leaves only the word end. -/
theorem failedConditionOnlyEndsTheWord : Obligations.FailedConditionOnlyEndsTheWord := by
  intro c top b s hc hretire hplace hmoved hvector hfollow
  refine completes_of_complete (exec_cond_of_not_holds hc ?_) hretire
  cases b with
  | mono | mov => rfl
  | jmp | jreg => exact placeStop_none (hplace rfl)
  | call rel => exact (condCallStop_eq_none_iff s).2 ⟨hplace rfl, hfollow (.inl ⟨rel, rfl⟩)⟩
  | creg dp => exact (condCallStop_eq_none_iff s).2 ⟨hplace rfl, hfollow (.inr ⟨dp, rfl⟩)⟩
  | ret => exact (returnPlaceStop_eq_none_iff s).2 ⟨hplace rfl, hmoved (.inl rfl)⟩
  | reti => exact (retiPlaceStop_eq_none_iff s).2 ⟨⟨hplace rfl, hmoved (.inr rfl)⟩, hvector rfl⟩

/-! ## A condition that holds -/

theorem exec_cond_of_holds (hc : c.holds (s.reg top) = true) (hstop : bodyPlaceStop b s = none) :
    exec (.cond c top b) s = bodyRun b s := by
  rw [exec_cond_of_place hstop, if_pos hc]

/-- The plain monomial gives the result that `monoOut` gives the conditional one (R230). -/
theorem exec_mono_instr (m : Mono) (x y : GReg) (p : Par) (s : State) :
    exec (m.instr x y p) s =
      guardStop (monoStop m x y) (aluWord y (monoOut m (s.reg x) (s.reg y) s.draws) p s) := by
  cases m <;> rfl

/-- A word without a transfer has only its operation. -/
theorem aluWord_noTransfers (rd : GReg) (o : AluOut) (s : State) :
    aluWord rd o ⟨none, none⟩ s = complete {} 1 (s.writeAlu rd o) := rfl

/-- Settles O59: both sides are the function's operation and the word end. -/
theorem holdingConditionRunsTheFunction : Obligations.HoldingConditionRunsTheFunction := by
  intro c top s hc
  refine ⟨fun m x y => ?_, fun d a r => ?_⟩
  · rw [exec_cond_of_holds hc rfl, exec_mono_instr, aluWord_noTransfers, bodyRun]
  · rw [exec_cond_of_holds hc rfl, bodyRun]
    rfl

end Sys2Proof.Machine
end

section
/-! The trinomials (41_trinomial.md): a word whose meaning is one operation with transfers, the value of
each of the six, and why a shifted accumulator leaves room for a product. -/

namespace Sys2Proof.Machine

variable {i : Instr} {rd : GReg} {p : Par} {s : State}

/-! ## Words that are one operation with transfers -/

/-- A word that gives its operation's result to `aluWord` does what that result says (R151, R153). -/
theorem aluWordDrawing_of_exec_eq (out : State → AluOut)
    (hexec : ∀ s, exec i s = aluWord rd (out s) p s) :
    AluWordDrawing i rd p (fun s => (out s).value) (fun s => (out s).overflow)
      (fun s => (out s).drawn) := by
  intro hfits s hready hretire
  rw [hexec]
  exact aluWord_next rd (out s) p s hfits hready hretire

/-- A word of an exact sum stores its low 40 bits and sets OV where it does not fit (R170, D27). -/
theorem aluWord_of_exec_eq_exactOut (n : State → Int)
    (hexec : ∀ s, exec i s = aluWord rd (exactOut (n s)) p s) :
    AluWord i rd p (fun s => BitVec.ofInt 40 (n s)) (fun s => outside40 (n s)) :=
  aluWordDrawing_of_exec_eq (fun s => exactOut (n s)) hexec

/-- A word of a value alone leaves OV as it is. -/
theorem aluWord_of_exec_eq_value (value : State → Word40)
    (hexec : ∀ s, exec i s = aluWord rd { value := value s } p s) :
    AluWord i rd p value (fun _ => false) :=
  aluWordDrawing_of_exec_eq (fun s => { value := value s }) hexec

/-! ## The operation of each trinomial -/

theorem exec_madd (a b c : GReg) : exec (.madd a b c p) s =
    aluWord c (exactOut (regInt s c + 2 * (highInt s a * highInt s b))) p s := rfl

theorem exec_msub (a b c : GReg) : exec (.msub a b c p) s =
    aluWord c (exactOut (regInt s c - 2 * (highInt s a * highInt s b))) p s := rfl

theorem exec_suma (a b c : GReg) : exec (.suma a b c p) s =
    aluWord c (exactOut (regInt s c + 2 * (highInt s a * (lowNat s b : Int)))) p s := rfl

/-- UUMA takes the model's own reading of the open products (D28, log 17). -/
theorem exec_uuma (a b c : GReg) : exec (.uuma a b c p) s =
    aluWord c (exactOut (regInt s c + uumaTerm Config.uumaWideExact (lowNat s a * lowNat s b))) p s := by
  have hexec : exec (.uuma a b c p) s = execUuma a b c p s := rfl
  rw [hexec, execUuma, prodUU_eq]
  rfl

theorem exec_mas1 (a b c : GReg) : exec (.mas1 a b c p) s =
    aluWord c { value := BitVec.ofInt 40 (regInt s c / 2 + 2 * (highInt s a * highInt s b)) } p s := by
  have hexec : exec (.mas1 a b c p) s = execMas1 a b c p s := rfl
  rw [hexec, execMas1, shiftedSum, pow_one]
  rfl

theorem exec_mas16 (a b c : GReg) : exec (.mas16 a b c p) s =
    aluWord c { value := BitVec.ofInt 40 (regInt s c / 65536 + 2 * (highInt s a * highInt s b)) }
      p s := by
  have hexec : exec (.mas16 a b c p) s = execMas16 a b c p s := rfl
  have hpow : (2 : Int) ^ 16 = 65536 := by norm_num
  rw [hexec, execMas16, shiftedSum, hpow]
  rfl

/-! ## Ranges -/

/-- Twice the product of two signed 16-bit inputs needs 33 bits: `0x8000 * 0x8000` gives `2 ^ 31` (D26). -/
theorem prodSS_range (a b : Word16) : -2 ^ 31 ≤ prodSS a b ∧ prodSS a b ≤ 2 ^ 31 := by
  have habs (v : Word16) : |v.toInt| ≤ 2 ^ 15 := abs_le.2 ⟨v.le_toInt, v.toInt_lt.le⟩
  have hprod : |a.toInt * b.toInt| ≤ 2 ^ 15 * 2 ^ 15 := by
    rw [abs_mul]
    exact mul_le_mul (habs a) (habs b) (abs_nonneg _) (by norm_num)
  obtain ⟨hlow, hhigh⟩ := abs_le.1 hprod
  unfold prodSS
  omega

/-- An accumulator divided by 2 or more lies in the half of the 40-bit range around 0. -/
theorem toInt40_ediv_range (v : Word40) {d : Int} (hd : 2 ≤ d) :
    -2 ^ 38 ≤ v.toInt / d ∧ v.toInt / d < 2 ^ 38 := by
  obtain ⟨hlow, hhigh⟩ := toInt40_range v
  exact ⟨(Int.le_ediv_iff_mul_le (by omega)).2 (by omega),
    (Int.ediv_lt_iff_lt_mul (by omega)).2 (by omega)⟩

/-- The half range leaves room for a product, so the sum of MAS1 and MAS16 fits (R175, R176). -/
theorem outside40_ediv_add_prodSS (v : Word40) (a b : Word16) {d : Int} (hd : 2 ≤ d) :
    outside40 (v.toInt / d + prodSS a b) = false := by
  obtain ⟨hquotLow, hquotHigh⟩ := toInt40_ediv_range v hd
  obtain ⟨hprodLow, hprodHigh⟩ := prodSS_range a b
  rw [← Bool.not_eq_true, outside40_iff]
  omega

/-! ## The statements -/

/-- Settles O18: both sums are exact, so each word is a use of `aluWord_of_exec_eq_exactOut`. -/
theorem maddMsubWords : Obligations.MaddMsubWords := fun a b c _ =>
  ⟨aluWord_of_exec_eq_exactOut _ fun _ => exec_madd a b c,
    aluWord_of_exec_eq_exactOut _ fun _ => exec_msub a b c⟩

/-- Settles O19: the reading of the open products is the model's, `Config.uumaWideExact`. -/
theorem sumaUumaWords : Obligations.SumaUumaWords :=
  ⟨fun a b c _ => aluWord_of_exec_eq_exactOut _ fun _ => exec_suma a b c,
    Config.uumaWideExact, fun a b c _ => aluWord_of_exec_eq_exactOut _ fun _ => exec_uuma a b c⟩

/-- Settles O20: the words set no OV, and by `outside40_ediv_add_prodSS` none is due. -/
theorem shiftedMultiplyAddWords : Obligations.ShiftedMultiplyAddWords := fun a b c _ =>
  ⟨aluWord_of_exec_eq_value _ fun _ => exec_mas1 a b c,
    aluWord_of_exec_eq_value _ fun _ => exec_mas16 a b c,
    fun s => ⟨outside40_ediv_add_prodSS (s.reg c) (partH (s.reg a)) (partH (s.reg b)) (by norm_num),
      outside40_ediv_add_prodSS (s.reg c) (partH (s.reg a)) (partH (s.reg b)) (by norm_num)⟩⟩

end Sys2Proof.Machine
end

section
/-! The binomials (42_binomial.md): a word whose meaning is one operation and nothing else, shifts as
floor division and multiplication, a zero-extended immediate, and the value of each of the eighteen. -/

namespace Sys2Proof.Machine

variable {i : Instr} {rd : GReg} {p : Par} {s : State} {imm : Word16}

/-! ## Words that are one operation and nothing else -/

/-- A word that gives its operation's result to `immWord` does what that result says (R190). -/
theorem registerWord_of_exec_eq (value : State → Word40) (overflow : State → Bool)
    (hexec : ∀ s, exec i s = immWord rd { value := value s, overflow := overflow s } s) :
    RegisterWord i rd value overflow := by
  intro s hretire
  rw [hexec]
  exact writeAlu_next rd _ s hretire rfl

/-! ## Sums with an immediate -/

/-- Adding what is not negative can leave the range upward only (R193). -/
theorem outside40_toInt_add_natCast (v : Word40) (n : Nat) :
    outside40 (v.toInt + n) = decide (2 ^ 39 - 1 < v.toInt + n) := by
  have hrange := toInt40_range v
  rw [Bool.eq_iff_iff, outside40_iff, decide_eq_true_iff]
  omega

/-- Subtracting what is not negative can leave the range downward only (R195). -/
theorem outside40_toInt_sub_natCast (v : Word40) (n : Nat) :
    outside40 (v.toInt - n) = decide (v.toInt - n < -2 ^ 39) := by
  have hrange := toInt40_range v
  rw [Bool.eq_iff_iff, outside40_iff, decide_eq_true_iff]
  omega

/-! ## Shifts -/

/-- Bits 5-0 of a register are its remainder by 64 (R209). -/
theorem shiftAmount_reg (s : State) (k : GReg) : shiftAmount (s.reg k) = amountIn s k :=
  BitVec.extractLsb'_toNat 0 6 (s.reg k)

/-- Bits 5-0 of an immediate are its remainder by 64 (R209). -/
theorem immShift_eq (imm : Word16) : immShift imm = imm.toNat % 64 :=
  BitVec.extractLsb'_toNat 0 6 imm

/-- The arithmetic right shift divides rounding down (R196). -/
theorem sshiftRight_eq_ofInt (v : Word40) (n : Nat) :
    v.sshiftRight n = BitVec.ofInt 40 (v.toInt / 2 ^ n) := by
  rw [BitVec.sshiftRight_eq, Int.shiftRight_eq_div_pow, Nat.cast_pow, Nat.cast_ofNat]

/-- The logical right shift divides the unsigned value (R199). -/
theorem ushiftRight_eq_ofNat (v : Word40) (n : Nat) :
    v >>> n = BitVec.ofNat 40 (v.toNat / 2 ^ n) := by
  rw [← Nat.shiftRight_eq_div_pow, ← BitVec.toNat_ushiftRight, BitVec.ofNat_toNat,
    BitVec.setWidth_eq]

/-- The logical left shift keeps the low 40 bits of the multiple (R201). -/
theorem shiftLeft_eq_ofNat (v : Word40) (n : Nat) :
    v <<< n = BitVec.ofNat 40 (v.toNat * 2 ^ n) := by
  apply BitVec.eq_of_toNat_eq
  rw [BitVec.toNat_shiftLeft, Nat.shiftLeft_eq, BitVec.toNat_ofNat]

/-- The logical right shift by an amount of a register, 40 and more included (R198). -/
theorem ushiftRight_eq_ite (v : Word40) (n : Nat) :
    v >>> n = if 40 ≤ n then 0 else BitVec.ofNat 40 (v.toNat / 2 ^ n) := by
  split
  case isTrue hn => exact BitVec.ushiftRight_eq_zero hn
  case isFalse => exact ushiftRight_eq_ofNat v n

/-- The logical left shift by an amount of a register, 40 and more included (R200). -/
theorem shiftLeft_eq_ite (v : Word40) (n : Nat) :
    v <<< n = if 40 ≤ n then 0 else BitVec.ofNat 40 (v.toNat * 2 ^ n) := by
  split
  case isTrue hn => exact BitVec.shiftLeft_eq_zero hn
  case isFalse => exact shiftLeft_eq_ofNat v n

theorem immShiftStop_of_lt (h : imm.toNat % 64 < 40) : immShiftStop imm = none := by
  rw [immShiftStop, immShift_eq, stopIf_eq_none_iff, decide_eq_false_iff_not]
  omega

theorem immShiftStop_of_le (h : 40 ≤ imm.toNat % 64) :
    immShiftStop imm = some (.refusal .immediateShiftRange) := by
  rw [immShiftStop, immShift_eq, decide_eq_true h, stopIf_true]

/-! ## A register and a zero-extended immediate -/

/-- A register is its bits 39-16 above its L part. -/
theorem append_partL (v : Word40) : v.extractLsb' 16 24 ++ partL v = v :=
  (BitVec.extractLsb'_append_extractLsb'_eq_extractLsb' rfl).trans BitVec.extractLsb'_eq_self

theorem zeroExtend40_eq_append (imm : Word16) : imm.zeroExtend 40 = (0 : BitVec 24) ++ imm :=
  BitVec.setWidth_eq_append (by decide)

/-- The upper 24 bits of the immediate are 0, so AND clears those of the result (R203). -/
theorem and_zeroExtend40 (v : Word40) (imm : Word16) :
    v &&& imm.zeroExtend 40 = (0 : BitVec 24) ++ (partL v &&& imm) :=
  calc v &&& imm.zeroExtend 40
      = (v.extractLsb' 16 24 ++ partL v) &&& ((0 : BitVec 24) ++ imm) := by
        rw [append_partL, zeroExtend40_eq_append]
    _ = (v.extractLsb' 16 24 &&& 0) ++ (partL v &&& imm) := BitVec.and_append
    _ = (0 : BitVec 24) ++ (partL v &&& imm) := by
        simp only [BitVec.ofNat_eq_ofNat, BitVec.and_zero]

/-- OR with 0 keeps the upper 24 bits (R205). -/
theorem or_zeroExtend40 (v : Word40) (imm : Word16) :
    v ||| imm.zeroExtend 40 = v.extractLsb' 16 24 ++ (partL v ||| imm) :=
  calc v ||| imm.zeroExtend 40
      = (v.extractLsb' 16 24 ++ partL v) ||| ((0 : BitVec 24) ++ imm) := by
        rw [append_partL, zeroExtend40_eq_append]
    _ = (v.extractLsb' 16 24 ||| 0) ++ (partL v ||| imm) := BitVec.or_append
    _ = v.extractLsb' 16 24 ++ (partL v ||| imm) := by
        simp only [BitVec.ofNat_eq_ofNat, BitVec.or_zero]

/-- Exclusive OR with 0 keeps the upper 24 bits (R207). -/
theorem xor_zeroExtend40 (v : Word40) (imm : Word16) :
    v ^^^ imm.zeroExtend 40 = v.extractLsb' 16 24 ++ (partL v ^^^ imm) :=
  calc v ^^^ imm.zeroExtend 40
      = (v.extractLsb' 16 24 ++ partL v) ^^^ ((0 : BitVec 24) ++ imm) := by
        rw [append_partL, zeroExtend40_eq_append]
    _ = (v.extractLsb' 16 24 ^^^ 0) ++ (partL v ^^^ imm) := BitVec.xor_append
    _ = v.extractLsb' 16 24 ++ (partL v ^^^ imm) := by
        simp only [BitVec.ofNat_eq_ofNat, BitVec.xor_zero]

/-! ## The operation of each binomial of two registers -/

theorem exec_mpy (a b c : GReg) : exec (.mpy a b c p) s =
    aluWord c { value := BitVec.ofInt 40 (2 * (highInt s a * highInt s b)) } p s := rfl

theorem exec_add (a b c : GReg) : exec (.add a b c p) s =
    aluWord c (exactOut (regInt s a + regInt s b)) p s := rfl

theorem exec_sub (a b c : GReg) : exec (.sub a b c p) s =
    aluWord c (exactOut (regInt s a - regInt s b)) p s := rfl

theorem exec_sra (a b c : GReg) : exec (.sra a b c p) s =
    aluWord c { value := BitVec.ofInt 40 (regInt s a / 2 ^ amountIn s b) } p s := by
  have hexec : exec (.sra a b c p) s = execSra a b c p s := rfl
  rw [hexec, execSra, shiftAmount_reg, sshiftRight_eq_ofInt, regInt]

theorem exec_srl (a b c : GReg) : exec (.srl a b c p) s =
    aluWord c { value := if 40 ≤ amountIn s b then 0
      else BitVec.ofNat 40 ((s.reg a).toNat / 2 ^ amountIn s b) } p s := by
  have hexec : exec (.srl a b c p) s = execSrl a b c p s := rfl
  rw [hexec, execSrl, shiftAmount_reg, ushiftRight_eq_ite]

theorem exec_sll (a b c : GReg) : exec (.sll a b c p) s =
    aluWord c { value := if 40 ≤ amountIn s b then 0
      else BitVec.ofNat 40 ((s.reg a).toNat * 2 ^ amountIn s b) } p s := by
  have hexec : exec (.sll a b c p) s = execSll a b c p s := rfl
  rw [hexec, execSll, shiftAmount_reg, shiftLeft_eq_ite]

theorem exec_and (a b c : GReg) : exec (.and a b c p) s =
    aluWord c { value := s.reg a &&& s.reg b } p s := rfl

theorem exec_or (a b c : GReg) : exec (.or a b c p) s =
    aluWord c { value := s.reg a ||| s.reg b } p s := rfl

theorem exec_xor (a b c : GReg) : exec (.xor a b c p) s =
    aluWord c { value := s.reg a ^^^ s.reg b } p s := rfl

theorem exec_lt (a b c : GReg) : exec (.lt a b c p) s =
    aluWord c { value := if regInt s a < regInt s b then 1 else 0 } p s := rfl

/-! ## The operation of each binomial of a register and an immediate -/

theorem exec_iadd (a b : GReg) : exec (.iadd a b imm) s =
    immWord b { value := BitVec.ofInt 40 (regInt s a + imm.toNat),
                overflow := decide (2 ^ 39 - 1 < regInt s a + (imm.toNat : Int)) } s := by
  have hexec : exec (.iadd a b imm) s = execIadd a b imm s := rfl
  rw [hexec, execIadd, exactOut, outOf40_eq, outside40_toInt_add_natCast, regInt]

theorem exec_isub (a b : GReg) : exec (.isub a b imm) s =
    immWord b { value := BitVec.ofInt 40 (regInt s a - imm.toNat),
                overflow := decide (regInt s a - (imm.toNat : Int) < -2 ^ 39) } s := by
  have hexec : exec (.isub a b imm) s = execIsub a b imm s := rfl
  rw [hexec, execIsub, exactOut, outOf40_eq, outside40_toInt_sub_natCast, regInt]

theorem exec_isra (a b : GReg) (h : imm.toNat % 64 < 40) : exec (.isra a b imm) s =
    immWord b { value := BitVec.ofInt 40 (regInt s a / 2 ^ (imm.toNat % 64)) } s := by
  have hexec : exec (.isra a b imm) s = execIsra a b imm s := rfl
  rw [hexec, execIsra, immShiftStop_of_lt h, guardStop_none, immShift_eq,
    sshiftRight_eq_ofInt, regInt]

theorem exec_isrl (a b : GReg) (h : imm.toNat % 64 < 40) : exec (.isrl a b imm) s =
    immWord b { value := BitVec.ofNat 40 ((s.reg a).toNat / 2 ^ (imm.toNat % 64)) } s := by
  have hexec : exec (.isrl a b imm) s = execIsrl a b imm s := rfl
  rw [hexec, execIsrl, immShiftStop_of_lt h, guardStop_none, immShift_eq, ushiftRight_eq_ofNat]

theorem exec_isll (a b : GReg) (h : imm.toNat % 64 < 40) : exec (.isll a b imm) s =
    immWord b { value := BitVec.ofNat 40 ((s.reg a).toNat * 2 ^ (imm.toNat % 64)) } s := by
  have hexec : exec (.isll a b imm) s = execIsll a b imm s := rfl
  rw [hexec, execIsll, immShiftStop_of_lt h, guardStop_none, immShift_eq, shiftLeft_eq_ofNat]

/-- A shift whose check is `immShiftStop` refuses the amounts 40-63 (R209, D19). -/
theorem guardStop_immShiftStop_of_le (k : Res) (h : 40 ≤ imm.toNat % 64) :
    guardStop (immShiftStop imm) k = .refused .immediateShiftRange := by
  rw [immShiftStop_of_le h]
  rfl

theorem exec_iand (a b : GReg) : exec (.iand a b imm) s =
    immWord b { value := (0 : BitVec 24) ++ (partL (s.reg a) &&& imm) } s := by
  have hexec : exec (.iand a b imm) s = execIand a b imm s := rfl
  rw [hexec, execIand, and_zeroExtend40]

theorem exec_ior (a b : GReg) : exec (.ior a b imm) s =
    immWord b { value := (s.reg a).extractLsb' 16 24 ++ (partL (s.reg a) ||| imm) } s := by
  have hexec : exec (.ior a b imm) s = execIor a b imm s := rfl
  rw [hexec, execIor, or_zeroExtend40]

theorem exec_ixor (a b : GReg) : exec (.ixor a b imm) s =
    immWord b { value := (s.reg a).extractLsb' 16 24 ++ (partL (s.reg a) ^^^ imm) } s := by
  have hexec : exec (.ixor a b imm) s = execIxor a b imm s := rfl
  rw [hexec, execIxor, xor_zeroExtend40]

/-! ## The statements -/

/-- Settles O21: MPY gives a value alone, ADD and SUB an exact sum. -/
theorem multiplyAddSubtractWords : Obligations.MultiplyAddSubtractWords := fun a b c _ =>
  ⟨aluWord_of_exec_eq_value _ fun _ => exec_mpy a b c,
    aluWord_of_exec_eq_exactOut _ fun _ => exec_add a b c,
    aluWord_of_exec_eq_exactOut _ fun _ => exec_sub a b c⟩

/-- Settles O22: a shift is a division or a multiplication for every amount, and sets no OV. -/
theorem registerShiftWords : Obligations.RegisterShiftWords := fun a b c _ =>
  ⟨aluWord_of_exec_eq_value _ fun _ => exec_sra a b c,
    aluWord_of_exec_eq_value _ fun _ => exec_srl a b c,
    aluWord_of_exec_eq_value _ fun _ => exec_sll a b c⟩

/-- Settles O23: the four words give a value alone. -/
theorem logicAndCompareWords : Obligations.LogicAndCompareWords := fun a b c _ =>
  ⟨aluWord_of_exec_eq_value _ fun _ => exec_and a b c,
    aluWord_of_exec_eq_value _ fun _ => exec_or a b c,
    aluWord_of_exec_eq_value _ fun _ => exec_xor a b c,
    aluWord_of_exec_eq_value _ fun _ => exec_lt a b c⟩

/-- Settles O24: of the two bounds of `outside40` a zero-extended immediate leaves one. -/
theorem immediateAddSubtractWords : Obligations.ImmediateAddSubtractWords := fun a b _ =>
  ⟨registerWord_of_exec_eq _ _ fun _ => exec_iadd a b,
    registerWord_of_exec_eq _ _ fun _ => exec_isub a b⟩

/-- Settles O25: the amount decides `immShiftStop`, which is the only stop before the operation. -/
theorem immediateShiftWords : Obligations.ImmediateShiftWords := fun a b _ =>
  ⟨fun hamount =>
    ⟨registerWord_of_exec_eq _ _ fun _ => exec_isra a b hamount,
      registerWord_of_exec_eq _ _ fun _ => exec_isrl a b hamount,
      registerWord_of_exec_eq _ _ fun _ => exec_isll a b hamount⟩,
    fun hamount _ =>
      have hrefused k := guardStop_immShiftStop_of_le k hamount
      ⟨hrefused _, hrefused _, hrefused _⟩⟩

/-- Settles O26: the immediate is 24 zeros above its 16 bits, and the operation acts on each half. -/
theorem immediateLogicWords : Obligations.ImmediateLogicWords := fun a b _ =>
  ⟨registerWord_of_exec_eq _ _ fun _ => exec_iand a b,
    registerWord_of_exec_eq _ _ fun _ => exec_ior a b,
    registerWord_of_exec_eq _ _ fun _ => exec_ixor a b⟩

end Sys2Proof.Machine
end

section
/-! The monomials (43_monomial.md): the one value at which a step by 1 or a change of sign wraps,
clamping and rounding, the run of sign bits, and the division step. -/

namespace Sys2Proof.Machine

variable {i : Instr} {rd : GReg} {p : Par} {s : State}

/-! ## Words that are one operation and no free value -/

/-- A word of a value and a flag that are no free values does what both say (R151, R153). -/
theorem aluWord_of_exec_eq (value : State → Word40) (overflow : State → Bool)
    (hexec : ∀ s, exec i s = aluWord rd { value := value s, overflow := overflow s } p s) :
    AluWord i rd p value overflow :=
  aluWordDrawing_of_exec_eq (fun s => { value := value s, overflow := overflow s }) hexec

/-! ## Where one operand wraps -/

theorem outside40_eq_decide {n : Int} {q : Prop} [Decidable q]
    (h : (n < -2 ^ 39 ∨ 2 ^ 39 - 1 < n) ↔ q) : outside40 n = decide q := by
  rw [Bool.eq_iff_iff, outside40_iff, decide_eq_true_iff, h]

/-- Adding 1 leaves the range at the greatest value only (R231). -/
theorem outside40_toInt_add_one (v : Word40) :
    outside40 (v.toInt + 1) = decide (v.toInt = 2 ^ 39 - 1) := by
  have hrange := toInt40_range v
  exact outside40_eq_decide (by omega)

/-- Subtracting 1 leaves the range at the least value only (R232). -/
theorem outside40_toInt_sub_one (v : Word40) :
    outside40 (v.toInt - 1) = decide (v.toInt = -2 ^ 39) := by
  have hrange := toInt40_range v
  exact outside40_eq_decide (by omega)

/-- The least value has no negative in the range (R236). -/
theorem outside40_neg_toInt (v : Word40) :
    outside40 (-v.toInt) = decide (v.toInt = -2 ^ 39) := by
  have hrange := toInt40_range v
  exact outside40_eq_decide (by omega)

/-- The least value has no absolute value in the range (R234). -/
theorem outside40_natAbs_toInt (v : Word40) :
    outside40 v.toInt.natAbs = decide (v.toInt = -2 ^ 39) := by
  have hrange := toInt40_range v
  exact outside40_eq_decide (by omega)

theorem incOut_eq (v : Word40) : incOut v =
    { value := BitVec.ofInt 40 (v.toInt + 1), overflow := decide (v.toInt = 2 ^ 39 - 1) } := by
  rw [incOut, exactOut, outOf40_eq, outside40_toInt_add_one]

theorem decOut_eq (v : Word40) : decOut v =
    { value := BitVec.ofInt 40 (v.toInt - 1), overflow := decide (v.toInt = -2 ^ 39) } := by
  rw [decOut, exactOut, outOf40_eq, outside40_toInt_sub_one]

theorem negOut_eq (v : Word40) : negOut v =
    { value := BitVec.ofInt 40 (-v.toInt), overflow := decide (v.toInt = -2 ^ 39) } := by
  rw [negOut, exactOut, outOf40_eq, outside40_neg_toInt]

theorem absOut_eq (v : Word40) : absOut v =
    { value := BitVec.ofInt 40 v.toInt.natAbs, overflow := decide (v.toInt = -2 ^ 39) } := by
  have habs : (if v.toInt < 0 then -v.toInt else v.toInt) = v.toInt.natAbs := by
    split <;> omega
  rw [absOut, habs, exactOut, outOf40_eq, outside40_natAbs_toInt]

/-! ## Clamping and rounding -/

theorem clipOut_eq (v : Word40) :
    clipOut v = { value := BitVec.ofInt 40 (max (-2 ^ 31) (min v.toInt (2 ^ 31 - 1))) } := by
  unfold clipOut
  congr 1
  split
  case isTrue habove =>
    have hclamp : max (-2 ^ 31) (min v.toInt (2 ^ 31 - 1)) = 2 ^ 31 - 1 := by omega
    rw [hclamp]
    rfl
  case isFalse hnotAbove =>
    split
    case isTrue hbelow =>
      have hclamp : max (-2 ^ 31) (min v.toInt (2 ^ 31 - 1)) = -2 ^ 31 := by omega
      rw [hclamp]
      rfl
    case isFalse hnotBelow =>
      have hclamp : max (-2 ^ 31) (min v.toInt (2 ^ 31 - 1)) = v.toInt := by omega
      rw [hclamp, BitVec.ofInt_toInt]

/-- Clearing bits 15-0 is a shift right by 16 and back. -/
theorem and_highMask_eq_shifts (v : Word40) :
    v &&& (0xFFFFFF0000 : Word40) = v.sshiftRight 16 <<< 16 := by
  have hmask : (0xFFFFFF0000 : Word40) = BitVec.allOnes 40 <<< 16 := rfl
  rw [hmask]
  ext k hk
  rw [BitVec.getElem_and, BitVec.getElem_shiftLeft, BitVec.getElem_shiftLeft, BitVec.getElem_allOnes]
  by_cases hlow : k < 16
  · simp [hlow]
  · have hindex : 16 + (k - 16) = k := by omega
    simp [hlow, BitVec.getElem_sshiftRight, hindex, hk]

/-- Clearing bits 15-0 rounds down to a multiple of 65536, for both signs (R238). -/
theorem and_highMask_eq_ofInt (v : Word40) :
    v &&& 0xFFFFFF0000 = BitVec.ofInt 40 (v.toInt / 0x10000 * 0x10000) :=
  calc v &&& 0xFFFFFF0000
      = v.sshiftRight 16 <<< 16 := and_highMask_eq_shifts v
    _ = BitVec.ofInt 40 (v.toInt / 2 ^ 16) * BitVec.ofInt 40 0x10000 := by
        rw [BitVec.shiftLeft_eq_mul_twoPow, sshiftRight_eq_ofInt]
        rfl
    _ = BitVec.ofInt 40 (v.toInt / 0x10000 * 0x10000) := (BitVec.ofInt_mul ..).symm

/-- Below the clamp the 40-bit sum of rounding does not wrap. -/
theorem toInt_add_half (v : Word40) (h : v.toInt ≤ 0x7FFF0000) :
    (v + 0x8000).toInt = v.toInt + 0x8000 := by
  have hrange := toInt40_range v
  have hhalf : (0x8000 : Word40).toInt = 0x8000 := by decide
  rw [BitVec.toInt_add, hhalf]
  exact Int.bmod_eq_of_le (by omega) (by omega)

theorem rndOut_eq (v : Word40) : rndOut v =
    { value :=
        if 0x7FFF0000 < v.toInt then 0x007FFF0000
        else if v.toInt < -2 ^ 31 then 0xFF80000000
        else BitVec.ofInt 40 ((v.toInt + 0x8000) / 0x10000 * 0x10000) } := by
  unfold rndOut
  congr 1
  split
  case isTrue => rfl
  case isFalse hnotAbove => rw [and_highMask_eq_ofInt, toInt_add_half v (by omega)]

/-! ## The run of sign bits -/

theorem signRun_le (w : BitVec 32) (n : Nat) : signRun w n ≤ n := by
  induction n with
  | zero => exact Nat.le_refl 0
  | succ n ih =>
    rw [signRun]
    split <;> omega

/-- The bits of the run from bit `n` downward are equal to bit 31 (R239). -/
theorem getLsbD_of_lt_signRun {w : BitVec 32} {n j : Nat} (h : j < signRun w (n + 1)) :
    w.getLsbD (n - j) = w.getLsbD 31 := by
  induction n generalizing j with
  | zero =>
    rw [signRun] at h
    split at h
    case isTrue heq =>
      rw [Nat.zero_sub]
      exact heq
    case isFalse => omega
  | succ n ih =>
    rw [signRun] at h
    split at h
    case isTrue heq =>
      cases j with
      | zero => exact heq
      | succ j =>
        rw [Nat.add_sub_add_right]
        exact ih (by omega)
    case isFalse => omega

/-- The bit below a run that ends is not equal to bit 31 (R239). -/
theorem getLsbD_signRun_ne {w : BitVec 32} {n : Nat} (h : signRun w (n + 1) ≤ n) :
    w.getLsbD (n - signRun w (n + 1)) ≠ w.getLsbD 31 := by
  induction n with
  | zero =>
    rw [signRun] at h ⊢
    split at h
    case isTrue => omega
    case isFalse hne => simpa [hne] using hne
  | succ n ih =>
    rw [signRun] at h ⊢
    split at h
    case isTrue heq =>
      rw [if_pos heq, show n + 1 - (1 + signRun w (n + 1)) = n - signRun w (n + 1) by omega]
      exact ih (by omega)
    case isFalse hne =>
      rw [if_neg hne]
      exact hne

/-- A run of all 31 bits belongs to 0 and to -1. -/
theorem eq_zero_or_allOnes_of_signRun {w : BitVec 32} (h : signRun w 31 = 31) :
    w = 0 ∨ w = BitVec.allOnes 32 := by
  have hbit (k : Nat) (hk : k < 32) : w.getLsbD k = w.getLsbD 31 := by
    by_cases htop : k = 31
    · rw [htop]
    · have hinside : 30 - k < signRun w (30 + 1) := by rw [h]; omega
      have hindex : 30 - (30 - k) = k := by omega
      rw [← getLsbD_of_lt_signRun hinside, hindex]
  cases hsign : w.getLsbD 31 with
  | false =>
    exact .inl (BitVec.eq_of_getLsbD_eq fun k hk => by
      rw [hbit k hk, hsign, BitVec.ofNat_eq_ofNat, BitVec.getLsbD_zero])
  | true =>
    exact .inr (BitVec.eq_of_getLsbD_eq fun k hk => by
      rw [hbit k hk, hsign, BitVec.getLsbD_allOnes, decide_eq_true hk])

/-- A value that fits in 32 bits is its bits 31-0 with the sign extended. -/
theorem signExtend_low32 {v : Word40} (h : outside32 v.toInt = false) :
    (v.extractLsb' 0 32).signExtend 40 = v := by
  rw [← Bool.not_eq_true, outside32_iff] at h
  have hlow : (v.extractLsb' 0 32).toInt = v.toInt :=
    calc (v.extractLsb' 0 32).toInt
        = Int.bmod v.toNat (2 ^ 32) := by
          rw [← BitVec.setWidth_eq_extractLsb' (by decide), BitVec.toInt_setWidth]
      _ = Int.bmod v.toInt (2 ^ 32) := by
          rw [BitVec.toInt_eq_toNat_bmod, Int.bmod_bmod_of_dvd (Nat.pow_dvd_pow 2 (by decide))]
      _ = v.toInt := Int.bmod_eq_of_le (by omega) (by omega)
  apply BitVec.eq_of_toInt_eq
  rw [BitVec.toInt_signExtend_of_le (by decide), hlow]

/-- The value of EXP where the manual states one (R239). -/
def normalisingShift (v : Word40) : Word40 :=
  if v = 0 then 0
  else if v = 0xFFFFFFFFFF then 0x1F
  else BitVec.ofNat 40 (signRun (v.extractLsb' 0 32) 31)

theorem signRun_low32_lt {v : Word40} (hfits : outside32 v.toInt = false) (hzero : v ≠ 0)
    (hones : v ≠ 0xFFFFFFFFFF) : signRun (v.extractLsb' 0 32) 31 ≤ 30 := by
  by_contra hlong
  have hall : signRun (v.extractLsb' 0 32) 31 = 31 := by
    have := signRun_le (v.extractLsb' 0 32) 31
    omega
  have hv := signExtend_low32 hfits
  rcases eq_zero_or_allOnes_of_signRun hall with hw | hw
  · rw [hw] at hv
    exact hzero hv.symm
  · rw [hw] at hv
    exact hones hv.symm

/-- The stated values of EXP count the bits from bit 30 downward that are equal to bit 31 (R239). -/
theorem normalisingShift_counts {v : Word40} (hzero : v ≠ 0) (hones : v ≠ 0xFFFFFFFFFF)
    (hfits : outside32 v.toInt = false) :
    ∃ n : Nat, n ≤ 30 ∧ normalisingShift v = BitVec.ofNat 40 n ∧
      (∀ j, j < n → v.getLsbD (30 - j) = v.getLsbD 31) ∧ v.getLsbD (30 - n) ≠ v.getLsbD 31 := by
  have hlow (k : Nat) (hk : k < 32) : (v.extractLsb' 0 32).getLsbD k = v.getLsbD k := by
    rw [BitVec.getLsbD_extractLsb', Nat.zero_add, decide_eq_true hk, Bool.true_and]
  have hle := signRun_low32_lt hfits hzero hones
  refine ⟨signRun (v.extractLsb' 0 32) 31, hle, ?_, fun j hj => ?_, ?_⟩
  · rw [normalisingShift, if_neg hzero, if_neg hones]
  · rw [← hlow _ (by omega), ← hlow 31 (by decide)]
    exact getLsbD_of_lt_signRun hj
  · rw [← hlow _ (by omega), ← hlow 31 (by decide)]
    exact getLsbD_signRun_ne hle

theorem expOut_eq (v : Word40) (n : Nat) : expOut v n =
    { value := if outside32 v.toInt then Config.freeExp n else normalisingShift v,
      drawn := outside32 v.toInt } := by
  unfold expOut normalisingShift
  split
  case isTrue hout =>
    have hfree : outside32 v.toInt = true := (outside32_iff _).2 (by omega)
    rw [hfree, if_pos rfl]
  case isFalse hin =>
    have hfits : outside32 v.toInt = false := by
      rw [← Bool.not_eq_true, outside32_iff]
      omega
    rw [hfits, if_neg Bool.false_ne_true]
    split
    · rfl
    · split <;> rfl

/-! ## The division step -/

theorem divPartial_eq (d a : Word40) : divPartial d a = divRemainder d a := by
  have hsub : BitVec.ofInt 40 (a.toInt - d.toInt) = a - d := by
    rw [Int.sub_eq_add_neg, BitVec.ofInt_add, BitVec.ofInt_neg, BitVec.ofInt_toInt,
      BitVec.ofInt_toInt, BitVec.sub_eq_add_neg]
  have hadd : BitVec.ofInt 40 (a.toInt + d.toInt) = a + d := by
    rw [BitVec.ofInt_add, BitVec.ofInt_toInt, BitVec.ofInt_toInt]
  rw [divPartial, divRemainder, BitVec.msb_eq_toInt, BitVec.msb_eq_toInt, hsub, hadd]

/-- The left shift of a DIV step with the quotient bit in place (R243). -/
theorem shiftLeft_add_quotient (t : Word40) : t <<< 1 + (if t.msb then 0 else 1) =
    if t.getLsbD 39 then BitVec.ofNat 40 (2 * t.toNat) else BitVec.ofNat 40 (2 * t.toNat + 1) := by
  have hshift : t <<< 1 = BitVec.ofNat 40 (2 * t.toNat) := by
    rw [shiftLeft_eq_ofNat, pow_one, Nat.mul_comm]
  rw [hshift, BitVec.msb_eq_getLsbD_last]
  split
  · exact BitVec.add_zero _
  · exact (BitVec.ofNat_add ..).symm

theorem divOut_eq (d a : Word40) (n : Nat) : divOut d a n =
    { value :=
        if (divRemainder d a).getLsbD 39 then BitVec.ofNat 40 (2 * (divRemainder d a).toNat)
        else BitVec.ofNat 40 (2 * (divRemainder d a).toNat + 1),
      overflow :=
        (divRemainder d a).getLsbD 39 != (divRemainder d a).getLsbD 38 && Config.freeDivOv n,
      drawn := (divRemainder d a).getLsbD 39 != (divRemainder d a).getLsbD 38 } := by
  rw [divOut, divPartial_eq, shiftLeft_add_quotient]

theorem divStop_self (a : GReg) : divStop a a = some (.fault .divSameRegister) := by
  rw [divStop, beq_self_eq_true, stopIf_true]

theorem divStop_of_ne {a b : GReg} (h : a ≠ b) : divStop a b = none := by
  rw [divStop, stopIf_eq_none_iff, beq_eq_false_iff_ne]
  exact h

/-! ## The operation of each monomial -/

theorem exec_clr (b : GReg) : exec (.clr b p) s = aluWord b { value := 0 } p s := rfl

theorem exec_not (a b : GReg) : exec (.not a b p) s =
    aluWord b { value := s.reg a ^^^ 0xFFFFFFFFFF } p s := by
  have hexec : exec (.not a b p) s = execNot a b p s := rfl
  rw [hexec, execNot, ← BitVec.xor_allOnes]
  rfl

theorem exec_put (a b : GReg) : exec (.put a b p) s = aluWord b { value := s.reg a } p s := rfl

theorem exec_inc (a b : GReg) : exec (.inc a b p) s =
    aluWord b { value := BitVec.ofInt 40 (regInt s a + 1),
                overflow := decide (regInt s a = 2 ^ 39 - 1) } p s := by
  have hexec : exec (.inc a b p) s = execInc a b p s := rfl
  rw [hexec, execInc, incOut_eq, regInt]

theorem exec_dec (a b : GReg) : exec (.dec a b p) s =
    aluWord b { value := BitVec.ofInt 40 (regInt s a - 1),
                overflow := decide (regInt s a = -2 ^ 39) } p s := by
  have hexec : exec (.dec a b p) s = execDec a b p s := rfl
  rw [hexec, execDec, decOut_eq, regInt]

theorem exec_abs (a b : GReg) : exec (.abs a b p) s =
    aluWord b { value := BitVec.ofInt 40 (regInt s a).natAbs,
                overflow := decide (regInt s a = -2 ^ 39) } p s := by
  have hexec : exec (.abs a b p) s = execAbs a b p s := rfl
  rw [hexec, execAbs, absOut_eq, regInt]

theorem exec_neg (a b : GReg) : exec (.neg a b p) s =
    aluWord b { value := BitVec.ofInt 40 (-regInt s a),
                overflow := decide (regInt s a = -2 ^ 39) } p s := by
  have hexec : exec (.neg a b p) s = execNeg a b p s := rfl
  rw [hexec, execNeg, negOut_eq, regInt]

theorem exec_clip (a b : GReg) : exec (.clip a b p) s =
    aluWord b { value := BitVec.ofInt 40 (max (-2 ^ 31) (min (regInt s a) (2 ^ 31 - 1))) } p s := by
  have hexec : exec (.clip a b p) s = execClip a b p s := rfl
  rw [hexec, execClip, clipOut_eq, regInt]

theorem exec_rnd (a b : GReg) : exec (.rnd a b p) s =
    aluWord b { value :=
      if 0x7FFF0000 < regInt s a then 0x007FFF0000
      else if regInt s a < -2 ^ 31 then 0xFF80000000
      else BitVec.ofInt 40 ((regInt s a + 0x8000) / 0x10000 * 0x10000) } p s := by
  have hexec : exec (.rnd a b p) s = execRnd a b p s := rfl
  rw [hexec, execRnd, rndOut_eq, regInt]

/-- EXP takes the model's own free value outside 32 bits (log 14). -/
theorem exec_exp (a b : GReg) : exec (.exp a b p) s =
    aluWord b { value :=
                  if outside32 (regInt s a) then Config.freeExp s.draws
                  else normalisingShift (s.reg a),
                drawn := outside32 (regInt s a) } p s := by
  have hexec : exec (.exp a b p) s = execExp a b p s := rfl
  rw [hexec, execExp, expOut_eq, regInt]

theorem exec_aca (a b : GReg) : exec (.aca a b p) s =
    aluWord b (exactOut (regInt s b + regInt s a)) p s := rfl

theorem exec_acs (a b : GReg) : exec (.acs a b p) s =
    aluWord b (exactOut (regInt s b - regInt s a)) p s := rfl

/-- Two different registers pass the check of DIV. -/
theorem exec_div_of_ne {a b : GReg} (h : a ≠ b) : exec (.div a b p) s =
    aluWord b (divOut (s.reg a) (s.reg b) s.draws) p s := by
  have hexec : exec (.div a b p) s = execDiv a b p s := rfl
  rw [hexec, execDiv, divStop_of_ne h, guardStop_none]

/-- One register as both operands stops DIV before its transfers are looked at (R243, log 30). -/
theorem exec_div_self (a : GReg) : exec (.div a a p) s = .fault .divSameRegister := by
  have hexec : exec (.div a a p) s = execDiv a a p s := rfl
  rw [hexec, execDiv, divStop_self]
  rfl

/-! ## The statements -/

/-- Settles O27: the three words give a value alone. -/
theorem clrNotPutWords : Obligations.ClrNotPutWords := fun a b _ =>
  ⟨aluWord_of_exec_eq_value _ fun _ => exec_clr b,
    aluWord_of_exec_eq_value _ fun _ => exec_not a b,
    aluWord_of_exec_eq_value _ fun _ => exec_put a b⟩

/-- Settles O28: of the values of one operand a single one has a result outside the range. -/
theorem incDecAbsNegWords : Obligations.IncDecAbsNegWords := fun a b _ =>
  ⟨aluWord_of_exec_eq _ _ fun _ => exec_inc a b,
    aluWord_of_exec_eq _ _ fun _ => exec_dec a b,
    aluWord_of_exec_eq _ _ fun _ => exec_abs a b,
    aluWord_of_exec_eq _ _ fun _ => exec_neg a b⟩

/-- Settles O29: CLIP is a clamp by `clipOut_eq`, and below its clamp RND rounds down after adding half
of 65536 by `rndOut_eq`. -/
theorem clipRndWords : Obligations.ClipRndWords := fun a b _ =>
  ⟨aluWord_of_exec_eq_value _ fun _ => exec_clip a b,
    aluWord_of_exec_eq_value _ fun _ => exec_rnd a b⟩

/-- Settles O30: the stated values are `normalisingShift`, the free ones the model's `Config.freeExp`. -/
theorem exponentWords : Obligations.ExponentWords :=
  ⟨normalisingShift, Config.freeExp, by decide, by decide,
    fun _ hzero hones hfits => normalisingShift_counts hzero hones hfits,
    fun a b _ => aluWordDrawing_of_exec_eq _ fun _ => exec_exp a b⟩

/-- Settles O31: both sums are exact, with the old destination as the first operand. -/
theorem accumulateWords : Obligations.AccumulateWords := fun a b _ =>
  ⟨aluWord_of_exec_eq_exactOut _ fun _ => exec_aca a b,
    aluWord_of_exec_eq_exactOut _ fun _ => exec_acs a b⟩

/-- Settles O32: the open OV is the model's own choice, `Config.freeDivOv`. -/
theorem divideStepWords : Obligations.DivideStepWords :=
  ⟨⟨Config.freeDivOv, fun _ _ _ hne =>
      aluWordDrawing_of_exec_eq _ fun _ => by rw [exec_div_of_ne hne, divOut_eq]⟩,
    fun a _ _ => exec_div_self a⟩

end Sys2Proof.Machine
end

section
/-! The load/store words (44_load_store.md): the register parts moved, the pointer forms, a word of one
access, and a forbidden pair of regions. -/

namespace Sys2Proof.Machine

variable {i : Instr} {s : State}

/-! ## Register parts -/

theorem partE_toNat (v : Word40) : (partE v).toNat = v.toNat / 2 ^ 32 := by
  rw [partE, BitVec.extractLsb'_toNat, Nat.shiftRight_eq_div_pow, Nat.mod_eq_of_lt]
  have hv := v.isLt
  omega

theorem partH_toNat (v : Word40) : (partH v).toNat = v.toNat / 2 ^ 16 % 2 ^ 16 := by
  rw [partH, BitVec.extractLsb'_toNat, Nat.shiftRight_eq_div_pow]

theorem partL_toNat (v : Word40) : (partL v).toNat = v.toNat % 2 ^ 16 := by
  rw [partL, BitVec.extractLsb'_toNat, Nat.shiftRight_zero]

/-- A store of `re` extends the byte with zeros (R272). -/
theorem storedPart_re_toNat (v : Word40) : (storedPart .re v).toNat = v.toNat / 2 ^ 32 := by
  have hbyte := (partE v).isLt
  rw [storedPart, BitVec.zeroExtend, BitVec.toNat_setWidth, Nat.mod_eq_of_lt (by omega), partE_toNat]

/-- A load of `re` takes the low byte of the word (R271). -/
theorem partE_loadedPart_re_toNat (v : Word40) (m : Word16) :
    (partE (loadedPart .re v m)).toNat = m.toNat % 256 := by
  rw [loadedPart, partE_joinParts, BitVec.extractLsb'_toNat, Nat.shiftRight_zero]

/-- Settles O37: each load is a `joinParts`, whose parts are read off one by one. -/
theorem registerPartsMoved : Obligations.RegisterPartsMoved := by
  refine ⟨fun v => ⟨partE_toNat v, partH_toNat v, partL_toNat v⟩,
    fun v m => ⟨?ro, ?reh, ?rh, ?re, ?rl⟩, fun v => ⟨storedPart_re_toNat v, rfl, rfl⟩⟩
  case ro => simp [loadedPart, signByte]
  case reh => simp [loadedPart, signByte]
  case rh => simp [loadedPart]
  case re => exact ⟨partE_loadedPart_re_toNat v m, by simp [loadedPart]⟩
  case rl => simp [loadedPart]

/-! ## Pointer forms -/

theorem pointerAddress_of_ne_bitRev {m : Modi} (d : Word16) (h : m ≠ .bitRev) : pointerAddress m d = d := by
  cases m with
  | bitRev => exact absurd rfl h
  | _ => rfl

theorem pointerAddress_bitRev_getLsbD (d : Word16) {k : Nat} (h : k < 16) :
    (pointerAddress .bitRev d).getLsbD k = d.getLsbD (15 - k) := by
  rw [pointerAddress, BitVec.getLsbD_reverse, BitVec.getMsbD_eq_getLsbD]
  simp [h]

/-- The modulo register of a pointer by its number (R35). -/
theorem State.moduloReg_eq_ite (s : State) (n : DReg) :
    s.moduloReg n = if n.val ≤ 3 then s.dmx else s.dmy := by
  unfold State.moduloReg ptrSpace
  split_ifs <;> rfl

theorem State.nextPointer_inc_toNat (s : State) (n : DReg) :
    (s.nextPointer n .inc).toNat = ((s.ptr n).toNat + 1) % 65536 :=
  BitVec.toNat_add (s.ptr n) 1

/-- A step down is a step up by 65535 modulo 2^16 (D13). -/
theorem State.nextPointer_dec_toNat (s : State) (n : DReg) :
    (s.nextPointer n .dec).toNat = ((s.ptr n).toNat + 65535) % 65536 := by
  rw [Nat.add_comm]
  exact BitVec.toNat_sub (s.ptr n) 1

/-- The ring sum, with the cut that the model's free value gives for the modulo register (R266, log 18). -/
theorem State.nextPointer_modulo_toNat (s : State) (n : DReg) {dm : Word16}
    (hdm : dm = if n.val ≤ 3 then s.dmx else s.dmy) :
    (s.nextPointer n .modulo).toNat =
      ((s.ptr n).toNat - (s.ptr n).toNat % 2 ^ (Config.modSplit dm).val +
        ((s.ptr n).toNat % 2 ^ (Config.modSplit dm).val + (s.idx n).toNat) % (dm.toNat + 1)) % 65536 := by
  rw [State.nextPointer, modifiedPointer, moduloNext, State.moduloReg_eq_ite, ← hdm, BitVec.toNat_ofNat]

/-- Settles O36: the open cut is the model's own choice, `Config.modSplit`. -/
theorem pointerFormsAndModification : Obligations.PointerFormsAndModification := by
  refine ⟨fun _ d hm => pointerAddress_of_ne_bitRev d hm,
    fun d _ hk => pointerAddress_bitRev_getLsbD d hk,
    fun s n => ⟨rfl, s.nextPointer_inc_toNat n, s.nextPointer_dec_toNat n, ?addDn, ?bitRev⟩,
    fun dm => (Config.modSplit dm).val, fun dm => Nat.le_of_lt_succ (Config.modSplit dm).isLt,
    fun s n _ hdm => s.nextPointer_modulo_toNat n hdm⟩
  case addDn => exact BitVec.toNat_add (s.ptr n) (s.idx n)
  case bitRev => exact BitVec.toNat_add (s.ptr n) (s.idx n)

/-! ## Words of one access -/

/-- What one access does to the registers and the data memories (R268-R275). -/
theorem accessEffect_done (s : State) (p : Space) (a : Word16) (op : PartOp) (k : GReg) :
    AccessDone s (accessEffect s p a op k s) p a op k := by
  cases op with
  | load part =>
    exact ⟨State.reg_setReg_same .., fun j hj => State.reg_setReg_other _ _ _ _ hj, rfl, rfl⟩
  | store part =>
    refine ⟨State.setData_r .., ?_, fun r b hb => ?_⟩
    · rw [accessEffect, State.data_setData_same, Memory.read16_write16_same]
    · rw [accessEffect, State.data_setData]
      split_ifs with hr
      · obtain ⟨hlow, hhigh⟩ := not_or.1 fun h => hb ⟨hr, h⟩
        rw [Memory.read_write16, if_neg hhigh, if_neg hlow, hr]
      · rfl

/-- `AccessDone` reads of the state after only the registers and the data memories. -/
theorem AccessDone.congr {u t : State} {p : Space} {a : Word16} {op : PartOp} {k : GReg}
    (h : AccessDone s u p a op k) (hr : t.r = u.r) (hx : t.xmem = u.xmem) (hy : t.ymem = u.ymem) :
    AccessDone s t p a op k := by
  have hreg : ∀ j, t.reg j = u.reg j := fun j => by rw [State.reg, State.reg, hr]
  have hdata : ∀ q, t.data q = u.data q := fun q => by cases q <;> assumption
  cases op <;> simpa only [AccessDone, hreg, hdata, hr, hx, hy] using h

/-- The pointers after an access and the write of one are those before with that one written. -/
theorem accessEffect_setPtr (s : State) (p : Space) (a : Word16) (op : PartOp) (k : GReg) (n : DReg)
    (v : Word16) : (accessEffect s p a op k s).setPtr n v =
      { accessEffect s p a op k s with dp := (s.setPtr n v).dp } := by
  rw [State.setPtr, State.accessEffect_dp, State.setPtr_dp]

/-- A word whose effect is one access and new values of the pointers completes with that effect. -/
theorem accessWord_next (p : Space) (a : Word16) (op : PartOp) (k : GReg) (d : Vector Word16 8)
    (hexec : exec i s = complete {} 1 { accessEffect s p a op k s with dp := d }) (hr : CanRetire s) :
    ∃ t, exec i s = .next t ∧ AccessDone s t p a op k ∧ t.dp = d ∧ t.esr = s.esr ∧ t.draws = s.draws ∧
      OthersKept s t ∧ Retires {} s t := by
  have hcontrol : SameControl s { accessEffect s p a op k s with dp := d } := by constructor <;> simp
  obtain ⟨t, ht, hretires, ⟨hreg, hdp, hesr, hdraws, hx, hy⟩, hothers⟩ :=
    completes_of_complete hexec (hcontrol.canRetire.2 hr)
  refine ⟨t, ht, (accessEffect_done s p a op k).congr hreg hx hy, hdp, ?_, ?_, ?_,
    (hcontrol.retires {} t).1 hretires⟩
  · simpa using hesr
  · simpa using hdraws
  · simpa [OthersKept] using hothers

theorem exec_lsda_of_ready {op : PartOp} {k : GReg} {p : Space} {a : Word16} (h : AccessReady s p a op) :
    exec (.lsda op k p a) s = complete {} 1 (accessEffect s p a op k s) := by
  have hexec : exec (.lsda op k p a) s = execLsda op k p a s := rfl
  rw [hexec, execLsda, (accessStop_eq_none_iff ..).2 h, guardStop_none]

theorem exec_lsim_of_ready {op : PartOp} {k : GReg} {n : DReg} {imm : Word16}
    (hfresh : s.marks.dpFresh ≠ some n) (h : AccessReady s (ptrSpace n) (s.ptr n) op) :
    exec (.lsim op k n imm) s =
      complete {} 1 ((accessEffect s (ptrSpace n) (s.ptr n) op k s).setPtr n (s.ptr n + imm)) := by
  have hexec : exec (.lsim op k n imm) s = execLsim op k n imm s := rfl
  have hptr : pointerStop s n .plain = none := (pointerStop_eq_none_iff ..).2 ⟨hfresh, nofun⟩
  rw [hexec, execLsim, hptr, Option.none_or, (accessStop_eq_none_iff ..).2 h, guardStop_none]

/-- Settles O34: one access, and the pointers are those before the word. -/
theorem directAddressTransfer : Obligations.DirectAddressTransfer := fun op k p a s hready hr =>
  accessWord_next p a op k s.dp
    (by rw [exec_lsda_of_ready hready, ← State.accessEffect_dp s s p a op k]) hr

/-- Settles O35: one access, and of the pointers only DPn is written. -/
theorem immediateIndexTransfer : Obligations.ImmediateIndexTransfer := by
  intro op k n imm p s hp hfresh hready hr
  obtain rfl := eq_ptrSpace hp
  obtain ⟨t, ht, hdone, hdp, hkept⟩ :=
    accessWord_next (ptrSpace n) (s.ptr n) op k (s.setPtr n (s.ptr n + imm)).dp
      ((exec_lsim_of_ready hfresh hready).trans (congrArg _ (accessEffect_setPtr ..))) hr
  have hptr : ∀ j, t.ptr j = (s.setPtr n (s.ptr n + imm)).ptr j := fun j => by
    rw [State.ptr, State.ptr, hdp]
  refine ⟨t, ht, hdone, ?_, fun j hj => ?_, hkept⟩
  · rw [hptr, State.ptr_setPtr_same, BitVec.toNat_add]
  · rw [hptr, State.ptr_setPtr_other _ _ _ _ hj]

/-! ## Words of transfers -/

/-- An LSPA side loads the whole register or stores the H part (R276). -/
theorem pairSide_toPair_op {p : Par} {sp : Space} {d : PartSide} (h : pairSide p.toPair sp = some d) :
    d.op = .load .ro ∨ d.op = .store .rh := by
  have hside : ∃ a : ParSide, a.toPart = d := by
    cases sp with
    | x => obtain ⟨a, -, ha⟩ := Option.map_eq_some_iff.1 h; exact ⟨a, ha⟩
    | y => obtain ⟨a, -, ha⟩ := Option.map_eq_some_iff.1 h; exact ⟨a, ha⟩
  obtain ⟨⟨dir, n, m, r⟩, rfl⟩ := hside
  cases dir with
  | load => exact .inl rfl
  | store => exact .inr rfl

/-- Settles O33: both words are a `transferWord`, LSPA of the pair its sides make. -/
theorem parallelAndPartialTransfers : Obligations.ParallelAndPartialTransfers :=
  ⟨fun q s => transferWord_next q s, fun p s => transferWord_next p.toPair s,
    fun _ _ _ => pairSide_toPair_op⟩

/-! ## Forbidden pairs of regions -/

/-- ESR in the fault: the flag is recorded on a member that has it (R31). -/
theorem State.esrAfterBusError_getLsbD (s : State) (k : Nat) :
    s.esrAfterBusError.getLsbD k =
      (s.esr.getLsbD k ||
        (s.platform.member.hasBusErrFlag && decide (k = s.platform.esrBusErrBit.val))) := by
  unfold State.esrAfterBusError
  cases s.platform.member.hasBusErrFlag with
  | true => rw [if_pos rfl, BitVec.getLsbD_or, bitAt_getLsbD, Bool.true_and]
  | false => rw [if_neg Bool.false_ne_true, Bool.false_and, Bool.or_false]

theorem regionPairStop_of_clash {q : PartPair} (h : RegionsClash s q) :
    regionPairStop s q = some (.fault (.forbiddenRegionPair s.esrAfterBusError)) := by
  obtain ⟨a, b, hx, hy, hforbids⟩ := h
  simp only [regionPairStop, hx, hy, hforbids, stopIf_true]

/-- Where the pointers of a word pass, the pair of its regions is checked next (log 30). -/
theorem pairStop_of_clash {q : PartPair} (h : RegionsClash s q)
    (hx : ∀ d, q.x = some d → PointerReady s (sidePtr .x d.dp) d.modi)
    (hy : ∀ d, q.y = some d → PointerReady s (sidePtr .y d.dp) d.modi) :
    pairStop s q = some (.fault (.forbiddenRegionPair s.esrAfterBusError)) := by
  rw [pairStop, sidePointerStop_none hx, sidePointerStop_none hy, regionPairStop_of_clash h]
  rfl

/-- Settles O39: the check of the pair is the first that fails, and its fault carries ESR (log 29). -/
theorem forbiddenRegionPairsFault : Obligations.ForbiddenRegionPairsFault := by
  intro i q s hq hdiv hclash hx hy
  obtain ⟨k, hexec⟩ := exec_eq_guardStop_pairStop hq hdiv s
  refine ⟨s.esrAfterBusError, ?_, s.esrAfterBusError_getLsbD⟩
  rw [hexec, pairStop_of_clash hclash hx hy]
  rfl

end Sys2Proof.Machine
end

section
/-! The register transfers (45_register_transfer.md): MOV of the address-unit registers, and MOV of the
control registers in both directions, with the stacks' entries, the narrow registers and the loop flag. -/

namespace Sys2Proof.Machine

variable {s u : State} {d : MovDir} {a : AddrReg} {c : CtlReg} {r : GReg}

/-! ## The L part of a general register -/

theorem State.setLow_eq (s : State) (r : GReg) (v : Word16) :
    s.setLow r v = { s with r := s.r.set r (withLow (s.reg r) v) } := by
  rw [State.setLow, ← withLow_eq, State.setReg]

/-! ## The address unit -/

/-- `dest = rl` of the address unit (R302). -/
theorem completes_movAddr_to (a : AddrReg) (r : GReg) (hr : CanRetire s) :
    Completes (.mov .toSpecial (.addr a) r) s (freshMark a) (s.setAddrReg a (partL (s.reg r))) :=
  completes_of_complete rfl (by cases a <;> exact hr)

/-- `rl = source` of the address unit (R303). -/
theorem completes_movAddr_from (a : AddrReg) (r : GReg) (hr : CanRetire s) :
    Completes (.mov .fromSpecial (.addr a) r) s {}
      { s with r := s.r.set r (withLow (s.reg r) (s.addrReg a)) } :=
  completes_of_complete (congrArg (complete {} 1) (s.setLow_eq r _)) hr

/-- Settles O41: each is one of the two directions at one register. -/
theorem movesOfAddressRegisters : Obligations.MovesOfAddressRegisters := fun r n _ hr =>
  ⟨completes_movAddr_to (.dp n) r hr, completes_movAddr_to (.dn n) r hr,
    completes_movAddr_to .dmx r hr, completes_movAddr_to .dmy r hr,
    completes_movAddr_from (.dp n) r hr, completes_movAddr_from (.dn n) r hr,
    completes_movAddr_from .dmx r hr, completes_movAddr_from .dmy r hr⟩

/-! ## Words of the control registers -/

theorem exec_movCtl_to (c : CtlReg) (r : GReg) (s : State) :
    exec (.mov .toSpecial (.ctl c) r) s =
      guardStop (movToStop c (partL (s.reg r)) s)
        (complete (stackMark c) 1 (movToEffect c (partL (s.reg r)) s)) := rfl

theorem exec_movCtl_from (c : CtlReg) (r : GReg) (s : State) :
    exec (.mov .fromSpecial (.ctl c) r) s =
      guardStop (movFromStop c s) (complete (stackMark c) 1 (movFromEffect c r s)) := rfl

/-- `dest = rl` that passes its check completes with its effect `u` (R302). -/
theorem completes_movCtl_to (hstop : movToStop c (partL (s.reg r)) s = none)
    (heff : movToEffect c (partL (s.reg r)) s = u) (hr : CanRetire u) :
    Completes (.mov .toSpecial (.ctl c) r) s (stackMark c) u :=
  completes_of_complete (by rw [exec_movCtl_to, hstop, guardStop_none, heff]) hr

/-- `rl = source` that passes its check changes the L part only (R303). -/
theorem completes_movCtl_from {l : Word16} (hstop : movFromStop c s = none)
    (heff : movFromEffect c r s = s.setLow r l) (hr : CanRetire s) :
    Completes (.mov .fromSpecial (.ctl c) r) s (stackMark c)
      { s with r := s.r.set r (withLow (s.reg r) l) } :=
  completes_of_complete (by rw [exec_movCtl_from, hstop, guardStop_none, heff, State.setLow_eq]) hr

/-- A MOV with one reason to be refused in both directions. -/
theorem exec_movCtl_refused {x : Refusal} (hto : ∀ v, movToStop c v s = some (.refusal x))
    (hfrom : movFromStop c s = some (.refusal x)) : exec (.mov d (.ctl c) r) s = .refused x := by
  cases d with
  | toSpecial => rw [exec_movCtl_to, hto]; rfl
  | fromSpecial => rw [exec_movCtl_from, hfrom]; rfl

/-! ## Entries of the stacks -/

theorem State.stackPlace_isNone_eq_false (s : State) (h : 1 ≤ s.sp.toNat ∧ s.sp.toNat ≤ 15) :
    s.stackPlace.isNone = false := by
  rw [State.stackPlace_eq_some s h, Option.isNone_some]

/-- A write of STK changes the entry SP points at (R304). -/
theorem State.setStackTop_eq (s : State) (v : Word16) (h : 1 ≤ s.sp.toNat ∧ s.sp.toNat ≤ 15) :
    s.setStackTop v = { s with stk := s.stk.setIfInBounds (s.sp.toNat - 1) v } := by
  simp only [State.setStackTop, State.stackPlace_eq_some s h]
  congr 1
  apply Vector.toArray_inj.mp
  simp [Array.setIfInBounds, show s.sp.toNat - 1 < 15 by omega]

theorem State.loopPlace_of_lsp {k : Fin 4} (h : s.lsp.toNat = k.val + 1) : s.loopPlace = some k := by
  rw [State.loopPlace_eq_some s (by omega)]
  exact congrArg some (Fin.ext (by simp [h]))

theorem State.loopTop_of_lsp {k : Fin 4} (h : s.lsp.toNat = k.val + 1) : s.loopTop = s.lstk[k] := by
  rw [State.loopTop, State.loopPlace_of_lsp h]

/-- A write of LSR1-3 changes the entry LSP points at (R306). -/
theorem State.setLoopTop_of_lsp {k : Fin 4} (e : LoopEntry) (h : s.lsp.toNat = k.val + 1) :
    s.setLoopTop e = { s with lstk := s.lstk.set k e } := by
  rw [State.setLoopTop, State.loopPlace_of_lsp h]

theorem State.loopPlace_isNone_eq_false {k : Fin 4} (h : s.lsp.toNat = k.val + 1) :
    s.loopPlace.isNone = false := by
  rw [State.loopPlace_of_lsp h, Option.isNone_some]

/-- Settles O46: where a pointer addresses no entry both directions have the same refusal. -/
theorem movesWithoutAnEntryRefused : Obligations.MovesWithoutAnEntryRefused := by
  refine fun r s d => ⟨fun hsp => ?_, fun hlsp c hc => ?_, rfl⟩
  · have hnone : s.stackPlace.isNone = true := (State.stackPlace_isNone_iff s).2 (by omega)
    exact exec_movCtl_refused (fun v => by rw [movToStop, hnone, stopIf_true])
      (by rw [movFromStop, hnone, stopIf_true])
  · have hnone : s.loopPlace.isNone = true := (State.loopPlace_isNone_iff s).2 (by omega)
    have hfrom : movFromStop c s = some (.refusal .noLoopEntry) := by
      obtain rfl | rfl | rfl := hc <;> rw [movFromStop, hnone, stopIf_true]
    have hto : ∀ v, movToStop c v s = some (.refusal .noLoopEntry) := fun v => by
      obtain rfl | rfl | rfl := hc
      case inl => rw [movToStop, hnone, stopIf_true]
      case inr.inl => rw [movToStop, hnone, stopIf_true]
      case inr.inr => rw [movToStop, hnone, stopIf_true, Option.some_or]
    exact exec_movCtl_refused hto hfrom

/-! ## Narrow registers -/

theorem narrowed_toNat {w : Nat} (v : Word16) (hw : w ≤ 16) : (narrowed w v).toNat = v.toNat % 2 ^ w := by
  rw [narrowed_eq w v hw, BitVec.toNat_ofNat, Nat.mod_eq_of_lt]
  exact Nat.lt_of_le_of_lt (Nat.mod_le _ _) v.isLt

theorem lowMask_getLsbD (w : Nat) {k : Nat} (hk : k < 16) : (lowMask w).getLsbD k = decide (k < w) := by
  rw [lowMask, BitVec.getLsbD_ofNat, Nat.testBit_two_pow_sub_one, decide_eq_true hk, Bool.true_and]

/-- The free bits stand above the register's own (R303). -/
theorem widened_getLsbD {w k : Nat} (free v : Word16) (hw : w ≤ 16) (hk : k < w) :
    (widened w free v).getLsbD k = v.getLsbD k := by
  have hmask : (lowMask w).getLsbD k = true := by rw [lowMask_getLsbD w (by omega), decide_eq_true hk]
  simp [widened, hmask]

/-- The value that `SP = rl` would write is checked against 0xF (R305). -/
theorem movToStop_sp (v : Word16) (hw : s.platform.spWidth ≤ 16) :
    movToStop .sp v s =
      stopIf (decide (15 < v.toNat % 2 ^ s.platform.spWidth)) (.fault .badPointerValue) := by
  rw [movToStop, narrowed_toNat v hw]

/-- The value that `LSP = rl` would write is checked against 4 (R305). -/
theorem movToStop_lsp (v : Word16) (hw : s.platform.lspWidth ≤ 16) :
    movToStop .lsp v s =
      stopIf (decide (4 < v.toNat % 2 ^ s.platform.lspWidth)) (.fault .badPointerValue) := by
  rw [movToStop, narrowed_toNat v hw]

/-- `rl = source` of a register of `w` bits (R303). -/
theorem completes_movCtl_from_narrow {w : Nat} {v : Word16} (hstop : movFromStop c s = none)
    (heff : movFromEffect c r s = s.setLowFrom r w v) (hw : w ≤ 16) (hr : CanRetire s) :
    ∃ l : Word16, (∀ k, k < w → l.getLsbD k = v.getLsbD k) ∧
      Completes (.mov .fromSpecial (.ctl c) r) s (stackMark c)
        { s with r := s.r.set r (withLow (s.reg r) l), draws := s.draws + (if w < 16 then 1 else 0) } := by
  refine ⟨widened w (Config.freeUpper s.draws) v, fun k hk => widened_getLsbD _ v hw hk,
    completes_of_complete ?_ hr⟩
  rw [exec_movCtl_from, hstop, guardStop_none, heff, State.setLowFrom, State.setLow_eq]

/-! ## The statements of the control registers -/

/-- Settles O43: for `LSP = rl` the word ends with the LSP it wrote (D14). -/
theorem movesToControlRegisters : Obligations.MovesToControlRegisters := by
  rintro r s _ rfl
  refine ⟨fun hr => ⟨?sr, fun hw => ?eir, fun hw => ?esr, fun hw hv => ?sp, fun hlow hhigh => ?stk⟩,
    fun hw hv hr => ?lsp, ?lsr, fun hw hv => ?spFault, fun hw hv => ?lspFault⟩
  case sr => exact completes_movCtl_to rfl rfl hr
  case eir => exact completes_movCtl_to rfl (by rw [movToEffect, narrowed_eq _ _ hw]) hr
  case esr => exact completes_movCtl_to rfl (by rw [movToEffect, narrowed_eq _ _ hw]) hr
  case sp =>
    exact completes_movCtl_to (by rw [movToStop_sp _ hw, decide_eq_false (by omega), stopIf_false])
      (by rw [movToEffect, narrowed_eq _ _ hw]) hr
  case stk =>
    exact completes_movCtl_to
      (by rw [movToStop, s.stackPlace_isNone_eq_false ⟨hlow, hhigh⟩, stopIf_false])
      (s.setStackTop_eq _ ⟨hlow, hhigh⟩) hr
  case lsp =>
    exact completes_movCtl_to (by rw [movToStop_lsp _ hw, decide_eq_false (by omega), stopIf_false])
      (by rw [movToEffect, narrowed_eq _ _ hw]) hr
  case lsr =>
    rintro hr k _ hk rfl
    have hnone := State.loopPlace_isNone_eq_false hk
    constructor
    · exact completes_movCtl_to (by rw [movToStop, hnone, stopIf_false])
        (by rw [movToEffect, State.setLoopTop_of_lsp _ hk, State.loopTop_of_lsp hk]) hr
    · exact completes_movCtl_to (by rw [movToStop, hnone, stopIf_false])
        (by rw [movToEffect, State.setLoopTop_of_lsp _ hk, State.loopTop_of_lsp hk]) hr
  case spFault =>
    rw [exec_movCtl_to, movToStop_sp _ hw, decide_eq_true hv]
    rfl
  case lspFault =>
    rw [exec_movCtl_to, movToStop_lsp _ hw, decide_eq_true hv]
    rfl

/-- Settles O44: the bits above a narrow register are the model's own choice, `Config.freeUpper`. -/
theorem movesFromControlRegisters : Obligations.MovesFromControlRegisters := by
  refine fun r s hr => ⟨completes_movCtl_from rfl rfl hr, fun k hk => ?stk, fun k hk => ?lsr, ?narrow⟩
  case stk =>
    have hsp : 1 ≤ s.sp.toNat ∧ s.sp.toNat ≤ 15 := by omega
    have htop : s.stackTop = s.stk[k] := by simp [s.stackTop_eq hsp, hk]
    exact completes_movCtl_from (by rw [movFromStop, s.stackPlace_isNone_eq_false hsp, stopIf_false])
      (by rw [movFromEffect, htop]) hr
  case lsr =>
    have hnone := State.loopPlace_isNone_eq_false hk
    constructor
    · exact completes_movCtl_from (by rw [movFromStop, hnone, stopIf_false])
        (by rw [movFromEffect, State.loopTop_of_lsp hk]) hr
    · exact completes_movCtl_from (by rw [movFromStop, hnone, stopIf_false])
        (by rw [movFromEffect, State.loopTop_of_lsp hk]) hr
  case narrow =>
    rintro c w v m (⟨rfl, rfl, rfl, rfl⟩ | ⟨rfl, rfl, rfl, rfl⟩ | ⟨rfl, rfl, rfl, rfl⟩ |
      ⟨rfl, rfl, rfl, rfl⟩) hw <;>
    exact completes_movCtl_from_narrow rfl rfl hw hr

/-! ## The loop flag -/

theorem State.loopActive_of_lsp {k : Fin 4} (h : s.lsp.toNat = k.val + 1) : s.loopActive = true :=
  bne_iff_ne.2 ((lsp_ne_zero_iff s).2 (by omega))

/-- A saved LC as read while a loop is active (R306, R353). -/
theorem State.flagged_of_lsp {k : Fin 4} (w : Word16) (h : s.lsp.toNat = k.val + 1) :
    s.flagged w = BitVec.ofBool (Config.loopFlagValue true) ++ w.extractLsb' 0 15 := by
  rw [State.flagged, State.loopActive_of_lsp h]

/-- Bit 15 of LC as read is the flag (R353). -/
theorem State.flagged_msb (s : State) (w : Word16) :
    (s.flagged w).msb = Config.loopFlagValue s.loopActive :=
  BitVec.msb_append.trans (by simp)

/-- Where `rl = LC` may not stand (R349 c). -/
theorem lcRead_barred_iff (s : State) :
    (s.nearLoopEnd || (s.loopActive && s.pc == s.lsa)) = true ↔
      InLastThree s ∨ s.lsp ≠ 0 ∧ s.pc = s.lsa := by
  rw [Bool.or_eq_true, nearLoopEnd_eq_true_iff, Bool.and_eq_true, State.loopActive, bne_iff_ne, beq_iff_eq]

theorem lcReadStop_eq_none_iff (s : State) :
    lcReadStop s = none ↔ ¬ (InLastThree s ∨ s.lsp ≠ 0 ∧ s.pc = s.lsa) := by
  rw [lcReadStop, stopIf_eq_none_iff, ← lcRead_barred_iff, Bool.not_eq_true]

theorem lcReadStop_barred (h : InLastThree s ∨ s.lsp ≠ 0 ∧ s.pc = s.lsa) :
    lcReadStop s = some (.fault .forbiddenNearLoopEnd) := by
  rw [lcReadStop, (lcRead_barred_iff s).2 h, stopIf_true]

/-- With an entry the one check of `LSR3 = rl` is that it keeps the flag (R305). -/
theorem movToStop_lsr3 {k : Fin 4} (v : Word16) (h : s.lsp.toNat = k.val + 1) :
    movToStop .lsr3 v s =
      stopIf (v.msb != Config.loopFlagValue true) (.fault .badPointerValue) := by
  rw [movToStop, State.loopPlace_isNone_eq_false h, stopIf_false, Option.none_or, State.flagged_msb,
    State.loopActive_of_lsp h]

/-- Settles O45: the open flag is the model's own choice, `Config.loopFlagValue`. -/
theorem loopCounterMoves : Obligations.LoopCounterMoves := by
  refine ⟨Config.loopFlagValue, fun r s => ⟨fun hr hlast hhead => ?lc, fun hbarred => ?lcBarred,
    fun k hk => ⟨fun hr => ?fromLsr3, ?toLsr3⟩⟩⟩
  case lc => exact completes_movCtl_from ((lcReadStop_eq_none_iff s).2 (not_or.2 ⟨hlast, hhead⟩)) rfl hr
  case lcBarred =>
    rw [exec_movCtl_from, movFromStop, lcReadStop_barred hbarred]
    rfl
  case fromLsr3 =>
    exact completes_movCtl_from
      (by rw [movFromStop, State.loopPlace_isNone_eq_false hk, stopIf_false])
      (by rw [movFromEffect, State.loopTop_of_lsp hk, State.flagged_of_lsp _ hk]) hr
  case toLsr3 =>
    split
    case isTrue hflag =>
      exact fun hr => completes_movCtl_to
        (by rw [movToStop_lsr3 _ hk, hflag, bne_self_eq_false, stopIf_false])
        (by rw [movToEffect, State.setLoopTop_of_lsp _ hk, State.loopTop_of_lsp hk]) hr
    case isFalse hflag =>
      rw [exec_movCtl_to, movToStop_lsr3 _ hk, bne_iff_ne.2 hflag]
      rfl

end Sys2Proof.Machine
end

section
/-! The immediate sets (46_immediate_set.md): LDI of the L part of a general register, and of the
registers of the address unit. -/

namespace Sys2Proof.Machine

variable {s : State}

/-- A write of an address-unit register leaves all that decides the next PC alone (R158). -/
theorem SameControl.setAddrReg (s : State) (a : AddrReg) (v : Word16) :
    SameControl s (s.setAddrReg a v) := by
  constructor <;> simp

/-- `rL <- imm`: E and H are kept (R316). -/
theorem completes_ldi_low (r : GReg) (imm : Word16) (hr : CanRetire s) :
    Completes (.ldi (.rl r) imm) s {} { s with r := s.r.set r (withLow (s.reg r) imm) } :=
  completes_of_complete (congrArg (complete {} 1) (s.setLow_eq r imm)) hr

/-- `imm` to the address unit (R317); DPn alone is marked (R430). -/
theorem completes_ldi_addr (a : AddrReg) (imm : Word16) (hr : CanRetire s) :
    Completes (.ldi (.addr a) imm) s (freshMark a) (s.setAddrReg a imm) :=
  completes_of_complete rfl ((SameControl.setAddrReg s a imm).canRetire.2 hr)

/-- Settles O42: the L part, then the four kinds of register of the address unit. -/
theorem immediateSets : Obligations.ImmediateSets := fun imm r n _ hr =>
  ⟨completes_ldi_low r imm hr, completes_ldi_addr (.dp n) imm hr, completes_ldi_addr (.dn n) imm hr,
    completes_ldi_addr .dmx imm hr, completes_ldi_addr .dmy imm hr⟩

end Sys2Proof.Machine
end

section
/-! The branches (47_branch.md): the jumps, calls and returns with and without a condition, the words barred
from a repeat and a loop end, and RETI against interrupt entry (60_exceptions.md). The actions of
Machine/Branch.lean serve both forms, so each is described once, for any number of cycles. -/

namespace Sys2Proof.Machine

variable {c : Cond} {top : GReg} {b : CondBody} {i : Instr} {f : Fault} {k : Fin 15} {s : State}

/-! ## Faults of a check -/

theorem guardStop_fault {o : Option Stop} (r : Res) (h : o = some (.fault f)) : guardStop o r = .fault f := by
  rw [h]
  rfl

/-- A list of checks stops with the fault of its first. -/
theorem guardStop_or_fault {o : Option Stop} (p : Option Stop) (r : Res) (h : o = some (.fault f)) :
    guardStop (o.or p) r = .fault f :=
  guardStop_fault r (by rw [h, Option.some_or])

/-! ## Words barred near a repeat and a loop end -/

theorem hasStop_of_ne_upd77016 {m : Member} (h : m ≠ .upd77016) : m.hasStop = true := by
  cases m with
  | upd77016 => exact absurd rfl h
  | _ => rfl

/-- The placement check is the first of those on a branch under a condition, EVER or not (R323). -/
theorem condPlaceStop_fault (hb : isBranch (.cond c top b) = true) (h : placeStop s = some (.fault f)) :
    condPlaceStop c b s = some (.fault f) := by
  have first (p : Option Stop) : (placeStop s).or p = some (.fault f) := by rw [h, Option.some_or]
  have hbody : bodyPlaceStop b s = some (.fault f) := by
    cases b with
    | mono | mov => exact absurd hb Bool.false_ne_true
    | jmp | jreg => exact h
    | call | creg | ret => exact first _
    | reti => rw [bodyPlaceStop, retiPlaceStop, returnPlaceStop, first, Option.some_or]
  unfold condPlaceStop
  split
  · exact h
  · exact h
  · exact hbody

/-- The placement check comes first in a barred word; before it only STOP looks at the member (R363). -/
theorem exec_barred_fault (hb : isBarredNearEnd i = true) (hm : i = .stop → s.platform.member ≠ .upd77016)
    (h : placeStop s = some (.fault f)) : exec i s = .fault f := by
  cases i with
  | jmp | jreg | call | creg | halt => exact guardStop_fault _ h
  | ret | rep | loop | lpop => exact guardStop_or_fault _ _ h
  | reti => exact guardStop_or_fault _ _ (by rw [returnPlaceStop, h, Option.some_or])
  | stop =>
    exact guardStop_fault _
      (by rw [hasStop_of_ne_upd77016 (hm rfl), Bool.not_true, stopIf_false, Option.none_or, h])
  | cond c top b => exact guardStop_fault _ (condPlaceStop_fault (top := top) hb h)
  | _ => exact absurd hb Bool.false_ne_true

/-- Settles O51: the two faults are those of the placement check, the repeat before the loop end. -/
theorem barredWordsFaultNearRepeatAndLoopEnd : Obligations.BarredWordsFaultNearRepeatAndLoopEnd :=
  fun _ _ hb hm => ⟨fun hrf => exec_barred_fault hb hm (placeStop_repeat hrf),
    fun hrf hnear => exec_barred_fault hb hm (placeStop_nearEnd hrf hnear)⟩

/-! ## Jumps -/

/-- The sum of R331 wraps modulo 2^16. -/
theorem State.relTarget_eq (s : State) (rel : Word16) :
    s.relTarget rel = BitVec.ofNat 16 (s.pc.toNat + rel.toNat) := by
  rw [State.relTarget, BitVec.ofNat_add, BitVec.ofNat_toNat, BitVec.ofNat_toNat, BitVec.setWidth_eq,
    BitVec.setWidth_eq]

theorem exec_jmp (rel : Word16) (hp : PlaceFree s) :
    exec (.jmp rel) s = .next (s.goTo (BitVec.ofNat 16 (s.pc.toNat + rel.toNat)) {} 2) := by
  rw [exec, execJmp, placeStop_none hp, guardStop_none, s.relTarget_eq]

theorem exec_jreg (n : DReg) (hp : PlaceFree s) : exec (.jreg n) s = .next (s.goTo (s.ptr n) {} 3) := by
  rw [exec, execJreg, placeStop_none hp, guardStop_none]

/-- Settles O47: `goTo` changes PC, the marks and the cycles only. -/
theorem jumpsSetOnlyThePc : Obligations.JumpsSetOnlyThePc :=
  fun rel n _ hp => ⟨exec_jmp rel hp, exec_jreg n hp⟩

/-! ## The call stack -/

theorem State.stackPlace_of_sp (h : s.sp.toNat = k.val + 1) : s.stackPlace = some k := by
  rw [State.stackPlace_eq_some s (by omega)]
  exact congrArg some (Fin.ext (by simp [h]))

theorem State.stackTop_of_sp (h : s.sp.toNat = k.val + 1) : s.stackTop = s.stk[k] := by
  rw [State.stackTop, State.stackPlace_of_sp h]

theorem add_one_eq_ofNat {v : Word16} {n : Nat} (h : v.toNat = n) : v + 1 = BitVec.ofNat 16 (n + 1) := by
  subst h
  simp [BitVec.ofNat_add]

theorem sub_one_eq_ofNat {v : Word16} {n : Nat} (h : v.toNat = n + 1) : v - 1 = BitVec.ofNat 16 n := by
  bv_omega

/-- A push below 0xF writes the entry above SP (R326). -/
theorem State.pushReturn_of_sp (a : Word16) (h : s.sp.toNat = k.val) :
    s.pushReturn a = { s with sp := BitVec.ofNat 16 (k.val + 1), stk := s.stk.set k a } := by
  have hplace : ({ s with sp := s.sp + 1 } : State).stackPlace = some k :=
    State.stackPlace_of_sp (by show (s.sp + 1).toNat = k.val + 1; bv_omega)
  rw [State.pushReturn, State.setStackTop, hplace, ← add_one_eq_ofNat h]

/-- RET pops the entry SP points at and leaves it in the stack (R330). -/
theorem State.returnTo_of_sp (cyc : Nat) (h : s.sp.toNat = k.val + 1) :
    s.returnTo cyc = { s with pc := s.stk[k], sp := BitVec.ofNat 16 k.val, marks := {},
                              cycles := s.cycles + cyc } := by
  rw [State.returnTo, State.stackTop_of_sp h, sub_one_eq_ofNat h]
  rfl

/-- RETI is RET with SR bits 15-13 and EIR as `RestoreIE` gives them (R333, R389). -/
theorem State.interruptReturned_of_sp (cyc : Nat) (h : s.sp.toNat = k.val + 1)
    (hw : s.platform.eirWidth ≤ 16) :
    s.interruptReturned cyc = { s with
      pc := s.stk[k], sp := BitVec.ofNat 16 k.val, intDepth := s.intDepth - 1
      sr := (Config.restoreIE s.sr s.eir).1 ++ s.sr.extractLsb' 0 13
      eir := BitVec.ofNat 16 ((Config.restoreIE s.sr s.eir).2.toNat % 2 ^ s.platform.eirWidth)
      marks := {}, cycles := s.cycles + cyc } := by
  rw [State.interruptReturned, State.returnTo_of_sp cyc h, State.setEnables, narrowed_eq _ _ hw]
  rfl

/-! ## The checks of the call stack -/

theorem pushStop_none (h : s.sp.toNat ≤ 14) : pushStop s = none := by
  rw [pushStop, decide_eq_false (by omega), stopIf_false]

theorem pushStop_full (h : 15 ≤ s.sp.toNat) : pushStop s = some (.fault .stackOverflow) := by
  rw [pushStop, decide_eq_true h, stopIf_true]

theorem popStop_none (h : s.sp.toNat = k.val + 1) : popStop s = none := by
  rw [popStop, s.stackPlace_isNone_eq_false (by omega), stopIf_false]

theorem popStop_empty (h : s.sp.toNat = 0 ∨ 16 ≤ s.sp.toNat) :
    popStop s = some (.fault .stackUnderflow) := by
  rw [popStop, (State.stackPlace_isNone_iff s).2 (by omega), stopIf_true]

/-! ## The actions of calls and returns -/

theorem callAction_next (a : Word16) (cyc : Nat) (h : s.sp.toNat = k.val) :
    callAction a cyc s = .next { s with
      sp := BitVec.ofNat 16 (k.val + 1), stk := s.stk.set k (s.pc + 1), pc := a, marks := {}
      cycles := s.cycles + cyc } := by
  rw [callAction, pushStop_none (by omega), guardStop_none, State.callTo, State.pushReturn_of_sp _ h]
  rfl

theorem callAction_full (a : Word16) (cyc : Nat) (h : 15 ≤ s.sp.toNat) :
    callAction a cyc s = .fault .stackOverflow :=
  guardStop_fault _ (pushStop_full h)

theorem retAction_next (cyc : Nat) (h : s.sp.toNat = k.val + 1) :
    retAction cyc s = .next { s with pc := s.stk[k], sp := BitVec.ofNat 16 k.val, marks := {},
                                     cycles := s.cycles + cyc } := by
  rw [retAction, popStop_none h, guardStop_none, State.returnTo_of_sp cyc h]

theorem retAction_empty (cyc : Nat) (h : s.sp.toNat = 0 ∨ 16 ≤ s.sp.toNat) :
    retAction cyc s = .fault .stackUnderflow :=
  guardStop_fault _ (popStop_empty h)

/-- Outside interrupt processing RETI is no return (R334, D32). -/
theorem retiAction_outside (cyc : Nat) (hd : s.intDepth = 0) (hpc : s.pc ≠ 0xFFFF) :
    retiAction cyc s = .next { s with pc := s.pc + 1, marks := {}, cycles := s.cycles + cyc } := by
  rw [retiAction, if_pos hd, advance, advanceStop_none hpc, guardStop_none]
  rfl

theorem retiAction_inside (cyc : Nat) (hd : s.intDepth ≠ 0) (h : s.sp.toNat = k.val + 1) :
    retiAction cyc s = .next (s.interruptReturned cyc) := by
  rw [retiAction, if_neg hd, popStop_none h, guardStop_none]

theorem retiAction_empty (cyc : Nat) (hd : s.intDepth ≠ 0) (h : s.sp.toNat = 0 ∨ 16 ≤ s.sp.toNat) :
    retiAction cyc s = .fault .stackUnderflow := by
  rw [retiAction, if_neg hd]
  exact guardStop_fault _ (popStop_empty h)

/-! ## Calls and returns in a free place -/

theorem exec_call (rel : Word16) (hp : PlaceFree s) :
    exec (.call rel) s = callAction (BitVec.ofNat 16 (s.pc.toNat + rel.toNat)) 2 s := by
  rw [exec, execCall, placeStop_none hp, guardStop_none, s.relTarget_eq]

theorem exec_creg (n : DReg) (hp : PlaceFree s) : exec (.creg n) s = callAction (s.ptr n) 3 s := by
  rw [exec, execCreg, placeStop_none hp, guardStop_none]

theorem exec_ret (hp : PlaceFree s) (hmoved : s.marks.stackMoved = false) :
    exec .ret s = retAction 2 s := by
  rw [exec, execRet, (returnPlaceStop_eq_none_iff s).2 ⟨hp, hmoved⟩, guardStop_none]

theorem exec_reti (hp : PlaceFree s) (hmoved : s.marks.stackMoved = false)
    (hvector : ∀ q ∈ s.platform.intSources, s.pc.toNat + 1 ≠ q.vector.toNat) :
    exec .reti s = retiAction 2 s := by
  rw [exec, execReti, (retiPlaceStop_eq_none_iff s).2 ⟨⟨hp, hmoved⟩, hvector⟩, guardStop_none]

/-- Settles O48: both are the call action, with their targets and cycles. -/
theorem callsPushTheReturnAddress : Obligations.CallsPushTheReturnAddress := by
  intro rel n s hp
  rw [exec_call rel hp, exec_creg n hp]
  exact ⟨fun k hk => ⟨callAction_next _ _ hk, callAction_next _ _ hk⟩,
    fun hfull => ⟨callAction_full _ _ hfull, callAction_full _ _ hfull⟩⟩

/-- Settles O49: the return action, with an entry and without one. -/
theorem returnPopsTheAddress : Obligations.ReturnPopsTheAddress := by
  intro s hp hmoved
  rw [exec_ret hp hmoved]
  exact ⟨fun k hk => retAction_next 2 hk, retAction_empty 2⟩

/-- Settles O50: the interrupt return action where it pops nothing. -/
theorem retiOutsideAHandlerOnlyAdvances : Obligations.RetiOutsideAHandlerOnlyAdvances := by
  intro s hp hmoved hvector
  rw [exec_reti hp hmoved hvector]
  exact ⟨retiAction_outside 2, retiAction_empty 2⟩

/-! ## RETI after interrupt entry -/

/-- Entry puts the address of the interrupted word where a return finds it (R388). -/
theorem State.entered_stk_get (q : IntSource) (h : s.sp.toNat = k.val) : (s.entered q).stk[k] = s.pc := by
  rw [State.entered, State.pushReturn_of_sp s.pc h]
  simp

/-- Settles O15: the entry that RETI pops is the one that interrupt entry pushed. -/
theorem returnUndoesInterruptEntry : Obligations.ReturnUndoesInterruptEntry := by
  intro s u q hroom hw hsp hstk hdepth hp hmoved hvector
  obtain ⟨k, hk⟩ : ∃ k : Fin 15, s.sp.toNat = k.val := ⟨⟨s.sp.toNat, by omega⟩, rfl⟩
  rw [State.entered_eq s q hroom] at hsp hdepth
  have husp : u.sp.toNat = k.val + 1 := by rw [hsp]; show (s.sp + 1).toNat = k.val + 1; bv_omega
  have hinside : u.intDepth ≠ 0 := by rw [hdepth]; exact Nat.succ_ne_zero _
  have hpc : u.stk[k] = s.pc := by rw [hstk]; exact State.entered_stk_get q hk
  have hback : BitVec.ofNat 16 k.val = s.sp := by rw [← hk]; simp
  have hless : u.intDepth - 1 = s.intDepth := by rw [hdepth]; exact Nat.add_sub_cancel ..
  rw [exec_reti hp hmoved hvector, retiAction_inside 2 hinside husp, State.interruptReturned_of_sp 2 husp hw,
    hpc, hback, hless]

/-! ## Branches under a condition that holds -/

theorem exec_cond_jmp (rel : Word16) (hc : c.holds (s.reg top) = true) (hp : PlaceFree s) :
    exec (.cond c top (.jmp rel)) s
      = .next (s.goTo (BitVec.ofNat 16 (s.pc.toNat + rel.toNat)) {} 3) := by
  rw [exec_cond_of_holds (b := .jmp rel) hc (placeStop_none hp), bodyRun, s.relTarget_eq]

theorem exec_cond_jreg (n : DReg) (hc : c.holds (s.reg top) = true) (hp : PlaceFree s) :
    exec (.cond c top (.jreg n)) s = .next (s.goTo (s.ptr n) {} 3) :=
  exec_cond_of_holds hc (placeStop_none hp)

theorem exec_cond_call (rel : Word16) (hc : c.holds (s.reg top) = true) (hstop : condCallStop s = none) :
    exec (.cond c top (.call rel)) s = callAction (BitVec.ofNat 16 (s.pc.toNat + rel.toNat)) 3 s := by
  rw [exec_cond_of_holds (b := .call rel) hc hstop, bodyRun, s.relTarget_eq]

theorem exec_cond_creg (n : DReg) (hc : c.holds (s.reg top) = true) (hstop : condCallStop s = none) :
    exec (.cond c top (.creg n)) s = callAction (s.ptr n) 3 s :=
  exec_cond_of_holds hc hstop

theorem exec_cond_ret (hc : c.holds (s.reg top) = true) (hp : PlaceFree s)
    (hmoved : s.marks.stackMoved = false) : exec (.cond c top .ret) s = retAction 3 s :=
  exec_cond_of_holds hc ((returnPlaceStop_eq_none_iff s).2 ⟨hp, hmoved⟩)

theorem exec_cond_reti (hc : c.holds (s.reg top) = true) (hp : PlaceFree s)
    (hmoved : s.marks.stackMoved = false)
    (hvector : ∀ q ∈ s.platform.intSources, s.pc.toNat + 1 ≠ q.vector.toNat) :
    exec (.cond c top .reti) s = retiAction 3 s :=
  exec_cond_of_holds hc ((retiPlaceStop_eq_none_iff s).2 ⟨⟨hp, hmoved⟩, hvector⟩)

/-- Settles O60: a taken branch is the action of the plain one, in 3 cycles. -/
theorem takenConditionalBranches : Obligations.TakenConditionalBranches := by
  intro c top rel n s _ hc hp
  have hfree (hret : fetchAt s (s.pc + 1) ≠ .ok .ret) (hreti : fetchAt s (s.pc + 1) ≠ .ok .reti) :
      condCallStop s = none := (condCallStop_eq_none_iff s).2 ⟨hp, hret, hreti⟩
  refine ⟨exec_cond_jmp rel hc hp, exec_cond_jreg n hc hp,
    fun k hk hret hreti => ?call, fun hfull hret hreti => ?callFull,
    fun k hk hmoved => ⟨?ret, fun hvector hd hw => ?reti⟩,
    fun hmoved hempty => ⟨?retEmpty, fun hvector hd => ?retiEmpty⟩, fun hmoved hvector hd hpc => ?outside⟩
  case call =>
    rw [exec_cond_call rel hc (hfree hret hreti), exec_cond_creg n hc (hfree hret hreti)]
    exact ⟨callAction_next _ 3 hk, callAction_next _ 3 hk⟩
  case callFull =>
    rw [exec_cond_call rel hc (hfree hret hreti), exec_cond_creg n hc (hfree hret hreti)]
    exact ⟨callAction_full _ 3 hfull, callAction_full _ 3 hfull⟩
  case ret => rw [exec_cond_ret hc hp hmoved, retAction_next 3 hk]
  case reti =>
    rw [exec_cond_reti hc hp hmoved hvector, retiAction_inside 3 hd hk, State.interruptReturned_of_sp 3 hk hw]
  case retEmpty => rw [exec_cond_ret hc hp hmoved, retAction_empty 3 hempty]
  case retiEmpty => rw [exec_cond_reti hc hp hmoved hvector, retiAction_empty 3 hd hempty]
  case outside => rw [exec_cond_reti hc hp hmoved hvector, retiAction_outside 3 hd hpc]

end Sys2Proof.Machine
end

section
/-! The hardware loops (48_hardware_loop.md): the counts of REP and LOOP and their checks, the loop stack
under LOOP and LPOP, and how one execution of a repeat target or of a loop-end word ends. -/

namespace Sys2Proof.Machine

variable {i : Instr} {c : Count} {s t : State}

/-! ## Counts -/

/-- The count a word carries or reads, as the statements write it (R341, R345). -/
theorem State.countOf_toNat (s : State) (c : Count) : (s.countOf c).toNat = countValue s c := by
  cases c with
  | imm n =>
    have hn := n.isLt
    simp only [State.countOf, countValue, BitVec.toNat_setWidth]
    omega
  | reg r => rfl

theorem State.countOf_eq_ofNat (s : State) (c : Count) :
    s.countOf c = BitVec.ofNat 16 (countValue s c) := by
  rw [← s.countOf_toNat c, BitVec.ofNat_toNat, BitVec.setWidth_eq]

theorem countStop_countOf_none (hlow : 1 ≤ countValue s c) (hhigh : countValue s c ≤ 0x7FFF) :
    countStop (s.countOf c) = none :=
  (countStop_eq_none_iff _).2 (by rw [s.countOf_toNat]; exact ⟨hlow, hhigh⟩)

theorem countStop_countOf_bad (h : countValue s c = 0 ∨ 0x8000 ≤ countValue s c) :
    countStop (s.countOf c) = some (.fault .badCount) :=
  countStop_bad (by rwa [s.countOf_toNat])

/-! ## Words that only advance PC -/

theorem advance_eq (m : Marks) (cyc : Nat) (hpc : s.pc ≠ 0xFFFF) :
    advance m cyc s = .next (s.goTo (s.pc + 1) m cyc) :=
  (advance_eq_next_iff ..).2 ⟨hpc, rfl⟩

/-! ## REP -/

theorem exec_rep (c : Count) (hp : PlaceFree s) :
    exec (.rep c) s =
      guardStop (countStop (s.countOf c)) (advance {} 2 { s with rc := s.countOf c, rf := false }) := by
  rw [exec, execRep, placeStop_none hp, Option.none_or]

/-- Settles O53: past its place REP has the check of the count only. -/
theorem repStartsARepeat : Obligations.RepStartsARepeat := by
  intro c s hp
  rw [exec_rep c hp]
  refine ⟨fun hlow hhigh hpc => ?_, fun hbad => guardStop_fault _ (countStop_countOf_bad hbad)⟩
  rw [countStop_countOf_none hlow hhigh, guardStop_none, s.countOf_eq_ofNat c]
  exact advance_eq {} 2 hpc

/-! ## LOOP -/

/-- The last address of the body, modulo 2^16 (R345, log 33). -/
theorem State.loopEndOf_eq (s : State) (rle : Byte) :
    s.loopEndOf rle = BitVec.ofNat 16 (s.pc.toNat + rle.toNat) := by
  rw [State.loopEndOf, BitVec.ofNat_add, BitVec.ofNat_toNat, BitVec.ofNat_toNat, BitVec.setWidth_eq]

/-- The body ends where the enclosing loop does (R349 b). -/
theorem loopEnd_shared_iff (s : State) (e : Word16) :
    (s.loopActive && e == s.lea) = true ↔ s.lsp ≠ 0 ∧ e = s.lea := by
  rw [Bool.and_eq_true, State.loopActive, bne_iff_ne, beq_iff_eq]

/-- Past its place LOOP checks the loop stack, the count and the shared end, in this order (log 30). -/
theorem exec_loop (c : Count) (rle : Byte) (hp : PlaceFree s) :
    exec (.loop c rle) s =
      guardStop (stopIf (decide (4 ≤ s.lsp.toNat)) (.fault .loopStackOverflow))
        (guardStop (countStop (s.countOf c))
          (guardStop (stopIf (s.loopActive && s.loopEndOf rle == s.lea) (.fault .forbiddenNearLoopEnd))
            (advance { acceptHold := true } 2
              { s.pushLoop with lsa := s.pc + 1, lea := s.loopEndOf rle, lc := s.countOf c }))) := by
  rw [exec, execLoop, loopStop, placeStop_none hp, Option.none_or, guardStop_or, guardStop_or]

/-- Settles O55: the three checks one after the other, then the push. -/
theorem loopPushesAndStarts : Obligations.LoopPushesAndStarts := by
  rintro c rle s _ hp rfl
  rw [← s.loopEndOf_eq rle, exec_loop c rle hp]
  have hroom (h : s.lsp.toNat ≤ 3) :
      stopIf (decide (4 ≤ s.lsp.toNat)) (.fault .loopStackOverflow) = none := by
    rw [decide_eq_false (by omega), stopIf_false]
  refine ⟨fun k hk hlow hhigh hshared hpc => ?push, fun hfull => ?full, fun h hbad => ?count,
    fun h hlow hhigh hlsp hend => ?shared⟩
  case push =>
    have hapart : (s.loopActive && s.loopEndOf rle == s.lea) = false := by
      rw [← Bool.not_eq_true, loopEnd_shared_iff]
      exact hshared
    rw [hroom (by omega), countStop_countOf_none hlow hhigh, hapart, stopIf_false, guardStop_none,
      guardStop_none, guardStop_none, State.pushLoop_eq s k hk, s.countOf_eq_ofNat c]
    exact advance_eq { acceptHold := true } 2 hpc
  case full => exact guardStop_fault _ (by rw [decide_eq_true hfull, stopIf_true])
  case count =>
    rw [hroom h, guardStop_none]
    exact guardStop_fault _ (countStop_countOf_bad hbad)
  case shared =>
    rw [hroom h, countStop_countOf_none hlow hhigh, guardStop_none, guardStop_none]
    exact guardStop_fault _ (by rw [(loopEnd_shared_iff s _).2 ⟨hlsp, hend⟩, stopIf_true])

/-! ## LPOP -/

theorem exec_lpop (hp : PlaceFree s) :
    exec .lpop s =
      guardStop (stopIf s.loopPlace.isNone (.fault .loopStackUnderflow)) (advance {} 1 s.popLoop) := by
  rw [exec, execLpop, placeStop_none hp, Option.none_or]

/-- Settles O56: past its place LPOP needs the entry it restores, and only advances PC (log 41). -/
theorem lpopRestoresTheOuterLoop : Obligations.LpopRestoresTheOuterLoop := by
  intro s hp
  rw [exec_lpop hp]
  refine ⟨fun k hk hpc => ?_, fun hempty => ?_⟩
  · rw [State.loopPlace_isNone_eq_false hk, stopIf_false, guardStop_none, State.popLoop_eq s k hk]
    exact advance_eq {} 1 hpc
  · have hnone : s.loopPlace.isNone = true := (State.loopPlace_isNone_iff s).2 (by omega)
    exact guardStop_fault _ (by rw [hnone, stopIf_true])

/-! ## Repeat targets and loop-end words -/

/-- No barred word is a repeat target (R343). -/
theorem endsAfterEffect_of_repeat (h : exec i s = .next t) (hrf : s.rf = false) :
    EndsAfterEffect i s t :=
  (exec_next_cases h).resolve_right fun ⟨_, hplace⟩ => by
    obtain ⟨hfree, -⟩ := hplace
    exact absurd (hrf.symm.trans hfree) Bool.false_ne_true

/-- No barred word is a loop-end word (R349). -/
theorem endsAfterEffect_of_loopEnd (h : exec i s = .next t) (hlsp : s.lsp ≠ 0) (hpc : s.pc = s.lea) :
    EndsAfterEffect i s t :=
  (exec_next_cases h).resolve_right fun ⟨_, hplace⟩ => by
    obtain ⟨-, hfar⟩ := hplace
    exact hfar ⟨hlsp, by simp [hpc]⟩

/-- An execution of the repeat target with another one left (R342). -/
theorem exec_repeat_goesOn (h : exec i s = .next t) (hrf : s.rf = false) (hrc : 1 < s.rc.toNat) :
    t.pc = s.pc ∧ t.rf = false ∧ t.rc = s.rc - 1 := by
  obtain ⟨u, m, heff, -, rfl⟩ := endsAfterEffect_of_repeat h hrf
  have hleft : u.rf = false ∧ 1 < u.rc.toNat := by rw [heff.rf, heff.rc]; exact ⟨hrf, hrc⟩
  obtain ⟨-, hend⟩ := retired_retires m u
  rw [if_pos hleft] at hend
  obtain ⟨hpc, hrc', hrf', -⟩ := hend
  exact ⟨hpc.trans heff.pc, hrf', by rw [hrc', heff.rc]⟩

/-- The last execution of the repeat target. A loop that goes on would leave LSP as it is, and so not 0
(R342, D14). -/
theorem exec_repeat_ends (h : exec i s = .next t) (hrf : s.rf = false) (hrc : s.rc.toNat = 1) :
    t.rf = true ∧ (t.lsp = 0 → t.pc = s.pc + 1) := by
  obtain ⟨u, m, heff, -, rfl⟩ := endsAfterEffect_of_repeat h hrf
  have hlast : ¬ (u.rf = false ∧ 1 < u.rc.toNat) := by rw [heff.rc, hrc]; omega
  obtain ⟨-, hend⟩ := retired_retires m u
  rw [if_neg hlast] at hend
  obtain ⟨-, hrf', hnext⟩ := hend
  refine ⟨hrf', fun hlsp => ?_⟩
  rw [← heff.pc]
  split at hnext
  case isTrue hloop =>
    obtain ⟨-, hpass⟩ := hnext
    split at hpass
    case isTrue =>
      obtain ⟨-, -, -, -, hkept⟩ := hpass
      exact absurd (hkept.symm.trans hlsp) hloop.1
    case isFalse => exact hpass.1
  case isFalse => exact hnext.1

/-- Settles O54, by induction on the executions done: each but the last counts RC down by one. -/
theorem repeatRunsItsTargetCountTimes : Obligations.RepeatRunsItsTargetCountTimes := by
  intro i n f hrf hrc hexec
  have hruns : ∀ k, k ≤ n → (f k).pc = (f 0).pc ∧ (f k).rf = false ∧ (f k).rc.toNat = n + 1 - k := by
    intro k
    induction k with
    | zero => exact fun _ => ⟨rfl, hrf, hrc⟩
    | succ k ih =>
      intro hk
      obtain ⟨hpc, hrf, hrc⟩ := ih (by omega)
      obtain ⟨hpc', hrf', hrc'⟩ := exec_repeat_goesOn (hexec k (by omega)) hrf (by omega)
      exact ⟨hpc'.trans hpc, hrf', by rw [hrc']; bv_omega⟩
  obtain ⟨hpc, hrf, hrc⟩ := hruns n le_rfl
  obtain ⟨hended, hnext⟩ := exec_repeat_ends (hexec n le_rfl) hrf (by omega)
  exact ⟨hruns, hended, fun hlsp => by rw [hnext (hlsp (n + 1) le_rfl), hpc]⟩

end Sys2Proof.Machine
end

section
/-! CPU control (49_control.md): NOP and FINT with the stops of R158, HALT and STOP with what a step does in
their modes, and the predicates of the conditions. -/

namespace Sys2Proof.Machine

variable {s : State}

/-! ## Where R158 has no next PC -/

/-- No execution and no pass is left, and PC cannot advance or the loop that ends has no entry. -/
theorem goesOn_of_not_canRetire (h : ¬ CanRetire s) :
    s.repeatGoesOn = false ∧ s.loopGoesOn = false ∧
      (s.pc = 0xFFFF ∨ s.lsp ≠ 0 ∧ s.pc = s.lea ∧ 4 < s.lsp.toNat) := by
  have hentry : 4 < s.lsp.toNat ↔ ¬ s.lsp.toNat ≤ 4 := Nat.not_le.symm
  rw [← Bool.not_eq_true, ← Bool.not_eq_true, repeatGoesOn_iff, loopGoesOn_iff, hentry]
  unfold CanRetire at h
  tauto

theorem retireStop_of_not_goesOn (hrep : s.repeatGoesOn = false) (hloop : s.loopGoesOn = false) :
    retireStop s =
      (stopIf (s.atLoopEnd && s.loopPlace.isNone) (.refusal .noLoopEntry)).or (advanceStop s) := by
  rw [retireStop, hrep, hloop, Bool.or_false, if_neg Bool.false_ne_true]

/-- A loop exit with LSP above 4 (log 34). -/
theorem loopExit_without_entry_iff (s : State) :
    (s.atLoopEnd && s.loopPlace.isNone) = true ↔ s.pc = s.lea ∧ 4 < s.lsp.toNat := by
  rw [Bool.and_eq_true, atLoopEnd_iff, State.loopPlace_isNone_iff, lsp_ne_zero_iff]
  constructor
  · rintro ⟨⟨hlsp, hend⟩, hnone⟩
    exact ⟨hend, by omega⟩
  · rintro ⟨hend, hlsp⟩
    exact ⟨⟨by omega, hend⟩, by omega⟩

theorem retireStop_pcOverrun (h : ¬ CanRetire s) (hentry : s.lsp.toNat ≤ 4 ∨ s.pc ≠ s.lea) :
    retireStop s = some (.refusal .pcOverrun) := by
  have hnot : ¬ (s.pc = s.lea ∧ 4 < s.lsp.toNat) := fun ⟨hend, hlsp⟩ =>
    hentry.elim (Nat.not_le.2 hlsp) (fun hother => hother hend)
  obtain ⟨hrep, hloop, hwhy⟩ := goesOn_of_not_canRetire h
  have hpc : s.pc = 0xFFFF := hwhy.resolve_right fun ⟨_, hexit⟩ => hnot hexit
  have hexit : (s.atLoopEnd && s.loopPlace.isNone) = false := by
    rwa [← Bool.not_eq_true, loopExit_without_entry_iff]
  rw [retireStop_of_not_goesOn hrep hloop, hexit, stopIf_false, Option.none_or, advanceStop,
    beq_iff_eq.2 hpc, stopIf_true]

theorem retireStop_noLoopEntry (h : ¬ CanRetire s) (hlsp : 4 < s.lsp.toNat) (hend : s.pc = s.lea) :
    retireStop s = some (.refusal .noLoopEntry) := by
  obtain ⟨hrep, hloop, -⟩ := goesOn_of_not_canRetire h
  rw [retireStop_of_not_goesOn hrep hloop, (loopExit_without_entry_iff s).2 ⟨hend, hlsp⟩, stopIf_true,
    Option.some_or]

theorem complete_refused {x : Refusal} (m : Marks) (cyc : Nat) (h : retireStop s = some (.refusal x)) :
    complete m cyc s = .refused x := by
  rw [complete, h]
  rfl

/-! ## NOP and FINT -/

theorem exec_nop (s : State) : exec .nop s = complete {} 1 s := rfl

theorem exec_fint (s : State) : exec .fint s = complete {} 1 { s with pending := [] } := rfl

/-- The pending requests decide nothing about the next PC. -/
theorem retireStop_withPending (s : State) (l : List Nat) :
    retireStop { s with pending := l } = retireStop s := rfl

/-- Settles O17: both words are the word end, FINT on the state without requests. -/
theorem nopAndFintEndAWord : Obligations.NopAndFintEndAWord := by
  have stops (s : State) {x : Refusal} (h : retireStop s = some (.refusal x)) :
      exec .nop s = .refused x ∧ exec .fint s = .refused x := by
    rw [exec_nop, exec_fint]
    exact ⟨complete_refused {} 1 h,
      complete_refused {} 1 ((retireStop_withPending s []).trans h)⟩
  intro s
  exact ⟨fun hr => ⟨completes_of_complete (exec_nop s) hr, completes_of_complete (exec_fint s) hr⟩,
    fun h hentry => stops s (retireStop_pcOverrun h hentry),
    fun h hlsp hend => stops s (retireStop_noLoopEntry h hlsp hend)⟩

/-! ## HALT and STOP -/

theorem exec_halt (hp : PlaceFree s) : exec .halt s = advance {} 1 { s with mode := .halted } := by
  rw [exec, execHalt, placeStop_none hp, guardStop_none]

theorem exec_stop (hp : PlaceFree s) (hm : s.platform.member ≠ .upd77016) :
    exec .stop s = advance {} 1 { s with mode := .stopped } := by
  rw [exec, execStop, hasStop_of_ne_upd77016 hm, Bool.not_true, stopIf_false, Option.none_or,
    placeStop_none hp, guardStop_none]

theorem exec_stop_upd77016 (hm : s.platform.member = .upd77016) :
    exec .stop s = .refused .stopNotOnMember := by
  rw [exec, execStop, hm]
  rfl

theorem readySource_none_of_pending (h : s.pending = []) : s.readySource = none := by
  simp [State.readySource, h]

theorem step_halted (hmode : s.mode = .halted) : step s = stepHalted s := by
  simp only [step, hmode]

theorem step_stopped (hmode : s.mode = .stopped) : step s = .refused .inStopMode := by
  simp only [step, hmode]

/-- Settles O16: the two words advance PC from a free place; the two modes are those of `step` (log 24). -/
theorem haltAndStopEnterTheirModes : Obligations.HaltAndStopEnterTheirModes := by
  refine fun s => ⟨fun hp hpc => ?halt, fun hp hpc hm => ?stop, exec_stop_upd77016,
    fun hmode hpending => ?idle, step_stopped⟩
  case halt =>
    rw [exec_halt hp]
    exact advance_eq {} 1 hpc
  case stop =>
    rw [exec_stop hp hm]
    exact advance_eq {} 1 hpc
  case idle => rw [step_halted hmode, stepHalted, readySource_none_of_pending hpending]

/-! ## Conditions -/

theorem bits31to39_toNat (v : Word40) : (v.extractLsb' 31 9).toNat = v.toNat / 2 ^ 31 := by
  have hv := v.isLt
  rw [BitVec.extractLsb'_toNat, Nat.shiftRight_eq_div_pow]
  omega

/-- A value fits in 32 bits where bits 39-31 are all its sign (R365). -/
theorem outside32_eq_false_iff_signBits (v : Word40) :
    outside32 v.toInt = false ↔ v.extractLsb' 31 9 = 0 ∨ v.extractLsb' 31 9 = BitVec.allOnes 9 := by
  have hv := v.isLt
  have hzero : v.extractLsb' 31 9 = 0 ↔ v.toNat / 2 ^ 31 = 0 := by
    rw [← bits31to39_toNat, BitVec.toNat_eq]
    rfl
  have hones : v.extractLsb' 31 9 = BitVec.allOnes 9 ↔ v.toNat / 2 ^ 31 = 511 := by
    rw [← bits31to39_toNat, BitVec.toNat_eq]
    rfl
  rw [hzero, hones, ← Bool.not_eq_true, outside32_iff, BitVec.toInt_eq_toNat_cond]
  split <;> omega

theorem holds_neEx_iff (v : Word40) : Cond.neEx.holds v = true ↔ outside32 v.toInt = false := by
  rw [outside32_eq_false_iff_signBits, Cond.holds, Bool.or_eq_true, beq_iff_eq, beq_iff_eq]

theorem holds_eqEx_iff (v : Word40) : Cond.eqEx.holds v = true ↔ outside32 v.toInt = true := by
  rw [← Bool.not_eq_false (outside32 _), outside32_eq_false_iff_signBits, Cond.holds, Bool.and_eq_true,
    bne_iff_ne, bne_iff_ne, not_or]

/-- Settles O57: the comparisons with 0 are the model's own, EX is the test of the sign bits. -/
theorem conditionPredicates : Obligations.ConditionPredicates := fun v =>
  ⟨rfl, beq_iff_eq, bne_iff_ne, decide_eq_true_iff, decide_eq_true_iff, decide_eq_true_iff,
    decide_eq_true_iff, holds_eqEx_iff v, holds_neEx_iff v⟩

end Sys2Proof.Machine
end

section
/-! Interrupts (60_exceptions.md): after which words none is accepted (R390), which one is taken (R384,
R391), and entry (R388). -/

namespace Sys2Proof.Machine

variable {i : Instr} {c : Count} {q : IntSource} {s t : State}

/-! ## Acceptance held off -/

theorem acceptAllowed_of_repeat (h : s.rf = false) : s.acceptAllowed = false := by
  rw [State.acceptAllowed, h, Bool.false_and]

theorem acceptAllowed_of_hold (h : s.marks.acceptHold = true) : s.acceptAllowed = false := by
  rw [State.acceptAllowed, h, Bool.not_true, Bool.and_false]

theorem exec_rep_acceptAllowed (h : exec (.rep c) s = .next t) : t.acceptAllowed = false := by
  obtain ⟨-, hend⟩ := (guardStop_eq_next_iff ..).1 h
  obtain ⟨-, rfl⟩ := (advance_eq_next_iff ..).1 hend
  exact acceptAllowed_of_repeat rfl

theorem exec_loop_acceptAllowed {rle : Byte} (h : exec (.loop c rle) s = .next t) :
    t.acceptAllowed = false := by
  obtain ⟨-, hend⟩ := (guardStop_eq_next_iff ..).1 h
  obtain ⟨-, rfl⟩ := (advance_eq_next_iff ..).1 hend
  exact acceptAllowed_of_hold rfl

/-- A word at LEA either goes on repeating or leaves the mark of a loop-end word, unless it wrote LSP
(R390 c, log 38). -/
theorem exec_loopEnd_acceptAllowed (h : exec i s = .next t) (hlsp : s.lsp ≠ 0) (hpc : s.pc = s.lea)
    (hi : ∀ r, i ≠ .mov .toSpecial (.ctl .lsp) r) : t.acceptAllowed = false := by
  obtain ⟨u, m, heff, -, rfl⟩ := endsAfterEffect_of_loopEnd h hlsp hpc
  have hend : u.lsp ≠ 0 ∧ u.pc = u.lea := by
    rw [heff.lsp hi, heff.pc, heff.lea]
    exact ⟨hlsp, hpc⟩
  obtain ⟨-, hretires⟩ := retired_retires m u
  by_cases hleft : u.rf = false ∧ 1 < u.rc.toNat
  · rw [if_pos hleft] at hretires
    obtain ⟨-, -, hrf, -⟩ := hretires
    exact acceptAllowed_of_repeat hrf
  · rw [if_neg hleft, if_pos hend] at hretires
    obtain ⟨-, -, hmarks, -⟩ := hretires
    exact acceptAllowed_of_hold (by rw [hmarks])

/-- Settles O13: RF is 0 after REP and between repetitions, the mark stands after LOOP and a loop end. -/
theorem interruptsAreHeldOff : Obligations.InterruptsAreHeldOff := by
  refine fun s t => ⟨fun c => exec_rep_acceptAllowed, fun c rle => exec_loop_acceptAllowed,
    fun i h hrf hrc => ?_, fun i => exec_loopEnd_acceptAllowed⟩
  obtain ⟨-, hrf', -⟩ := exec_repeat_goesOn h hrf hrc
  exact acceptAllowed_of_repeat hrf'

/-! ## The request taken -/

/-- The model's search is the first match of the list (R391). -/
theorem find?_eq_firstUnmasked (s : State) (l : List IntSource) :
    l.find? (fun q => s.pending.contains q.id && !Config.intMasked q.id s.sr s.eir)
      = firstUnmasked s l := by
  induction l with
  | nil => rfl
  | cons q rest ih =>
    rw [List.find?_cons, firstUnmasked, ih]
    by_cases h : q.id ∈ s.pending ∧ Config.intMasked q.id s.sr s.eir = false
    · simp [h]
    · rw [if_neg h]
      have hmiss : (s.pending.contains q.id && !Config.intMasked q.id s.sr s.eir) = false := by
        simpa [← Bool.not_eq_true] using h
      rw [hmiss]

theorem readySource_eq_firstUnmasked (s : State) :
    s.readySource = firstUnmasked s s.platform.intSources := find?_eq_firstUnmasked s _

/-- Entry, or the overflow of a full call stack (R388). -/
theorem acceptInterrupt_eq_entryOutcome (q : IntSource) (hw : s.platform.eirWidth ≤ 16) :
    acceptInterrupt q s = entryOutcome s q := by
  unfold entryOutcome
  split
  case isTrue hfull => exact guardStop_fault _ (pushStop_full hfull)
  case isFalse hroom =>
    have hsp : s.sp.toNat ≤ 14 := by omega
    rw [acceptInterrupt, pushStop_none hsp, guardStop_none, State.entered_eq s q hsp, narrowed_eq _ _ hw]
    rfl

/-! ## Steps -/

theorem acceptAllowed_eq_true (hrf : s.rf = true) (hhold : s.marks.acceptHold = false) :
    s.acceptAllowed = true := by
  rw [State.acceptAllowed, hrf, hhold]
  rfl

theorem stepHalted_of_ready (h : s.readySource = some q) : stepHalted s = acceptInterrupt q s := by
  simp only [stepHalted, h]

theorem stepHalted_of_none (h : s.readySource = none) : stepHalted s = .next s := by
  simp only [stepHalted, h]

theorem step_running_of_ready (hmode : s.mode = .running) (hallowed : s.acceptAllowed = true)
    (h : s.readySource = some q) :
    step s = if Config.acceptNow s.draws then acceptInterrupt q { s with draws := s.draws + 1 }
      else runWord { s with draws := s.draws + 1 } := by
  simp only [step, hmode, stepRunning, hallowed, h, if_true]

/-- Settles O14: the three kinds of step, each with the source that `firstUnmasked` finds or none. -/
theorem interruptEntrySavesAndVectors : Obligations.InterruptEntrySavesAndVectors := by
  intro s hw
  rw [← readySource_eq_firstUnmasked]
  refine ⟨fun hmode => ?halted, fun hmode hrf hhold => ?allowed, fun hmode hheld => ?held⟩
  case halted =>
    rw [step_halted hmode]
    cases hready : s.readySource with
    | none => exact stepHalted_of_none hready
    | some q => rw [stepHalted_of_ready hready, acceptInterrupt_eq_entryOutcome q hw]
  case allowed =>
    cases hready : s.readySource with
    | none => exact step_eq_runWord hmode (.inr hready)
    | some q =>
      rw [step_running_of_ready hmode (acceptAllowed_eq_true hrf hhold) hready,
        acceptInterrupt_eq_entryOutcome (s := { s with draws := s.draws + 1 }) q hw]
  case held =>
    exact step_eq_runWord hmode (.inl (hheld.elim acceptAllowed_of_repeat acceptAllowed_of_hold))

end Sys2Proof.Machine
end

section
/-! Reset and hazards (70_reset_and_hazards.md): the rules on pointers (R430, R266), the neighbours of a
return (R431, R432, R385), and the state after reset (R422). -/

namespace Sys2Proof.Machine

variable {n : DReg} {d : PartSide} {s : State}

/-! ## Pointers -/

theorem pointerStop_fresh (m : Modi) (h : s.marks.dpFresh = some n) :
    pointerStop s n m = some (.fault (.dpUsedTooEarly n)) := by
  rw [pointerStop, beq_iff_eq.2 h, stopIf_true, Option.some_or]

theorem pointerStop_modulo (hfresh : s.marks.dpFresh ≠ some n)
    (hrange : (s.moduloReg n).toNat = 0 ∨ 0x8000 ≤ (s.moduloReg n).toNat) :
    pointerStop s n .modulo = some (.fault .moduloRange) := by
  have hbad : moduloInRange (s.moduloReg n) = false := by
    rw [← Bool.not_eq_true, moduloInRange_iff]
    omega
  rw [pointerStop, beq_eq_false_iff_ne.2 hfresh, stopIf_false, Option.none_or, hbad]
  rfl

/-- DP0-DP3 serve the X side, DP4-DP7 the Y side (R71, R106). -/
theorem ptrSpace_sidePtr (p : Space) (k : Fin 4) : ptrSpace (sidePtr p k) = p := by
  cases p with
  | x => revert k; decide
  | y => revert k; decide

/-- `%%` on the X side reads DMX (R35). -/
theorem State.moduloReg_sidePtr_x (s : State) (k : Fin 4) : s.moduloReg (sidePtr .x k) = s.dmx := by
  rw [State.moduloReg, ptrSpace_sidePtr]

/-- `%%` on the Y side reads DMY (R35). -/
theorem State.moduloReg_sidePtr_y (s : State) (k : Fin 4) : s.moduloReg (sidePtr .y k) = s.dmy := by
  rw [State.moduloReg, ptrSpace_sidePtr]

/-- The X side is the first check of a word's transfers (log 30). -/
theorem pairStop_x {q : PartPair} {x : Stop} (hx : q.x = some d)
    (h : pointerStop s (sidePtr .x d.dp) d.modi = some x) : pairStop s q = some x := by
  rw [pairStop, hx, sidePointerStop, h, Option.some_or]

/-- The Y side is the next one where the pointer of the X side may be used. -/
theorem pairStop_y {q : PartPair} {x : Stop}
    (hx : ∀ e, q.x = some e → PointerReady s (sidePtr .x e.dp) e.modi) (hy : q.y = some d)
    (h : pointerStop s (sidePtr .y d.dp) d.modi = some x) : pairStop s q = some x := by
  rw [pairStop, sidePointerStop_none hx, Option.none_or, hy, sidePointerStop, h, Option.some_or]

/-- Settles O38: the fault of a side's pointer is the first that the checks of the word find. -/
theorem pointerRulesStopTransfers : Obligations.PointerRulesStopTransfers := by
  refine ⟨fun i q s hq hdiv => ?_, fun op k n imm s hfresh => ?_⟩
  · obtain ⟨k, hexec⟩ := exec_eq_guardStop_pairStop hq hdiv s
    rw [hexec]
    refine ⟨fun d hd => ⟨fun hfresh => ?xFresh, fun hfresh hmod hrange => ?xRange⟩,
      fun d hd hx => ⟨fun hfresh => ?yFresh, fun hfresh hmod hrange => ?yRange⟩⟩
    case xFresh => exact guardStop_fault k (pairStop_x hd (pointerStop_fresh _ hfresh))
    case xRange =>
      refine guardStop_fault k (pairStop_x hd ?_)
      rw [hmod, pointerStop_modulo hfresh (by rwa [s.moduloReg_sidePtr_x])]
    case yFresh => exact guardStop_fault k (pairStop_y hx hd (pointerStop_fresh _ hfresh))
    case yRange =>
      refine guardStop_fault k (pairStop_y hx hd ?_)
      rw [hmod, pointerStop_modulo hfresh (by rwa [s.moduloReg_sidePtr_y])]
  · exact guardStop_or_fault _ _ (pointerStop_fresh .plain hfresh)

/-! ## Neighbours of a return -/

theorem returnPlaceStop_moved (hp : PlaceFree s) (h : s.marks.stackMoved = true) :
    returnPlaceStop s = some (.fault .returnAfterStackMove) := by
  rw [returnPlaceStop, placeStop_none hp, h, Option.none_or, stopIf_true]

/-- The move before a RETI is found before the vector entry after it (log 30). -/
theorem retiPlaceStop_moved (hp : PlaceFree s) (h : s.marks.stackMoved = true) :
    retiPlaceStop s = some (.fault .returnAfterStackMove) := by
  rw [retiPlaceStop, returnPlaceStop_moved hp h, Option.some_or]

theorem retiPlaceStop_vector (hp : PlaceFree s) (hmoved : s.marks.stackMoved = false)
    (h : ∃ q ∈ s.platform.intSources, s.pc.toNat + 1 = q.vector.toNat) :
    retiPlaceStop s = some (.refusal .retiBeforeVectorEntry) := by
  have hbefore : beforeVectorEntry s = true := by
    rw [← Bool.not_eq_false, beforeVectorEntry_eq_false_iff]
    obtain ⟨q, hq, hpc⟩ := h
    exact fun hnone => hnone q hq hpc
  rw [retiPlaceStop, (returnPlaceStop_eq_none_iff s).2 ⟨hp, hmoved⟩, Option.none_or, hbefore, stopIf_true]

theorem condCallStop_return (hp : PlaceFree s)
    (h : fetchAt s (s.pc + 1) = .ok .ret ∨ fetchAt s (s.pc + 1) = .ok .reti) :
    condCallStop s = some (.fault .returnAfterCondCall) := by
  have hreturn : plainReturnAt s (s.pc + 1) = true := by
    rw [← Bool.not_eq_false, plainReturnAt_eq_false_iff, not_and_or, not_not, not_not]
    exact h
  rw [condCallStop, placeStop_none hp, hreturn, Option.none_or, stopIf_true]

/-- A condition other than EVER leaves the checks of its function as they are (R329). -/
theorem condPlaceStop_of_ne_ever {c : Cond} (b : CondBody) (hc : c ≠ .ever) :
    condPlaceStop c b s = bodyPlaceStop b s := by
  cases c with
  | ever => exact absurd rfl hc
  | _ => rfl

/-- The conditional returns have the checks of the plain ones, under EVER too (R323, R431). -/
theorem condPlaceStop_ret (c : Cond) (s : State) : condPlaceStop c .ret s = returnPlaceStop s := by
  cases c <;> rfl

theorem condPlaceStop_reti (c : Cond) (s : State) : condPlaceStop c .reti s = retiPlaceStop s := by
  cases c <;> rfl

/-- Settles O52: the checks of the returns and of the conditional calls, made before the condition. -/
theorem returnNeighboursFault : Obligations.ReturnNeighboursFault := by
  refine fun s hp => ⟨fun hmoved => ?moved, fun hnext c top rel dp hc => ?call,
    fun hmoved hvector => ?vector⟩
  case moved =>
    have hret := returnPlaceStop_moved hp hmoved
    have hreti := retiPlaceStop_moved hp hmoved
    exact ⟨guardStop_fault _ hret, guardStop_fault _ hreti, fun c top =>
      ⟨guardStop_fault _ (by rwa [condPlaceStop_ret]), guardStop_fault _ (by rwa [condPlaceStop_reti])⟩⟩
  case call =>
    have hstop := condCallStop_return hp hnext
    exact ⟨guardStop_fault _ (by rwa [condPlaceStop_of_ne_ever _ hc]),
      guardStop_fault _ (by rwa [condPlaceStop_of_ne_ever _ hc])⟩
  case vector =>
    have hreti := retiPlaceStop_vector hp hmoved hvector
    refine ⟨?_, fun c top => ?_⟩
    · rw [exec, execReti, hreti]
      rfl
    · rw [exec, execCond, condPlaceStop_reti, hreti]
      rfl

/-! ## Reset -/

theorem platformSound_default : platformSound Config.defaultPlatform := by
  unfold platformSound
  decide

/-- Settles O8: empty memories, empty stacks, no repeat, no request, and registers that hold 0. -/
theorem resetMeetsTheInvariant : Obligations.ResetMeetsTheInvariant where
  platform := platformSound_default
  imem_wf := rfl
  xmem_wf := rfl
  ymem_wf := rfl
  imem_below := rfl
  xmem_below := rfl
  ymem_below := rfl
  sp_legal := Nat.zero_le _
  lsp_legal := Nat.zero_le _
  esr_width := Nat.two_pow_pos _
  eir_width := Nat.two_pow_pos _
  repeat_count := nofun
  repeat_runs := .inl rfl
  pending_set := .nil

end Sys2Proof.Machine
end
